-- ==== Sys2Proof/Word.lean ====
section
/-! DEFINITION. The byte, the unit of every stream of HFE (20_memory.md R61, 00_scope.md R10). -/

namespace Sys2Proof

/-- The 8-bit byte of 00_scope.md R10. -/
abbrev Byte := BitVec 8

end Sys2Proof
end

