-- ==== Sys2Proof/Machine/Bytes.lean ====
section
/-! DEFINITION. Conversions between words and bytes (00_scope.md R10, R11). -/

namespace Sys2Proof

/-- `le_N(v)` with `n = N/8` bytes, least significant byte first; the bits of `v` from `N` up do not
show, so this is `le_N(trunc_N(v))` (00_scope.md R11). -/
def leBytes : Nat → Nat → List Byte
  | 0, _ => []
  | n + 1, v => BitVec.ofNat 8 v :: leBytes n (v / 256)

/-- `be_N(v)` with `n = N/8` bytes, most significant byte first (00_scope.md R11). -/
def beBytes (n v : Nat) : List Byte := (leBytes n v).reverse

/-- `le_N⁻¹(s)`: the unsigned number a byte sequence spells, first byte least significant
(00_scope.md R11, 30_encoding.md R98). -/
def leVal : List Byte → Nat
  | [] => 0
  | b :: bs => b.toNat + 256 * leVal bs

/-- `LE_w(ws)` (00_scope.md R11). -/
def leWords {w : Nat} (ws : List (BitVec w)) : List Byte :=
  ws.flatMap fun x => leBytes (w / 8) x.toNat

/-- `BE_w(ws)` (00_scope.md R11). -/
def beWords {w : Nat} (ws : List (BitVec w)) : List Byte :=
  ws.flatMap fun x => beBytes (w / 8) x.toNat

/-- The first `n` words of `LEW_w(s)` (00_scope.md R11). -/
def lewWords (w n : Nat) (s : List Byte) : List (BitVec w) :=
  (List.range n).map fun i => BitVec.ofNat w (leVal ((s.drop (i * (w / 8))).take (w / 8)))

/-- `lewWords` as a register file of `n` words. -/
def lewVec (w n : Nat) (s : List Byte) : Vector (BitVec w) n :=
  ⟨⟨lewWords w n s⟩, by simp [lewWords]⟩

/-- `0^k`, `k` bytes of value 0x00 (00_scope.md R10). -/
def zeros (k : Nat) : List Byte := List.replicate k 0

/-- `zpad(s, n)` (00_scope.md R11). -/
def zpad (s : List Byte) (n : Nat) : List Byte := s ++ zeros (n - s.length)

/-- Word by word XOR of a register file with a list of words (00_scope.md R10). -/
def xorWords {w n : Nat} (h : Vector (BitVec w) n) (ws : Vector (BitVec w) n) : Vector (BitVec w) n :=
  ⟨⟨List.zipWith (· ^^^ ·) h.toList ws.toList⟩, by simp⟩

end Sys2Proof
end

