-- ==== Sys2Proof/Config.lean ====
section
/-! DEFINITION. What an implementation fixes (00_scope.md R9): the primitives of the Compression
Contract, the algorithms and their primitives, and the four parameters that a model takes as arguments.
COMPRESS and IVTAB have no body, and NCTX and B3_CEIL are fields of a record that the machine carries, so
a theorem about every state holds whatever the four are. -/

namespace Sys2Proof

/-- The primitives of the Compression Contract (00_scope.md R16, 10_state.md R26). -/
inductive Prim where
  | md5 | sha1 | sha256 | sha512 | keccak | b2b | b2s | b3
deriving DecidableEq, Repr

/-- `W`, the word width in bits (10_state.md R26). -/
def Prim.width : Prim → Nat
  | .md5 | .sha1 | .sha256 | .b2s | .b3 => 32
  | .sha512 | .keccak | .b2b => 64

/-- `NW`, the live words of the HashState (10_state.md R26, 90_conflicts.md C7). -/
def Prim.words : Prim → Nat
  | .md5 => 4
  | .sha1 => 5
  | .sha256 | .sha512 | .b2b | .b2s | .b3 => 8
  | .keccak => 25

/-- HashState: the `NW` live words of `W` bits of a primitive (10_state.md R25, R26), which is what a
transaction carries (20_memory.md R69). -/
abbrev HashState (P : Prim) := Vector (BitVec P.width) P.words

/-- Positions `NW … 7` of the 8-position register file: 4 of them for MD5, 3 for SHA-1, none for a
primitive whose 8 words are all live (10_state.md R26, 90_conflicts.md C7). -/
abbrev UnusedWords (P : Prim) := Vector (BitVec P.width) (8 - P.words)

/-- A chaining value of BLAKE3: 8 words of 32 bits (42_blake3_tree.md R181). -/
abbrev ChainVal := HashState .b3

/-- The algorithms of class `MD` (30_encoding.md R97). -/
inductive MdAlg where
  | md5 | sha1 | sha224 | sha256 | sha384 | sha512 | sha512_224 | sha512_256
deriving DecidableEq, Repr

/-- The primitive of each `MD` algorithm (41_incremental_hasher.md R134). -/
def MdAlg.prim : MdAlg → Prim
  | .md5 => .md5
  | .sha1 => .sha1
  | .sha224 | .sha256 => .sha256
  | .sha384 | .sha512 | .sha512_224 | .sha512_256 => .sha512

/-- The algorithms of class `SPONGE` (30_encoding.md R97). -/
inductive SpongeAlg where
  | sha3_224 | sha3_256 | sha3_384 | sha3_512 | shake128 | shake256
deriving DecidableEq, Repr

/-- The two BLAKE2 primitives. Each of the classes `B2`, `B2P`, `B2X` has one algorithm for each
(30_encoding.md R97). -/
inductive B2Prim where
  | b2b | b2s
deriving DecidableEq, Repr

/-- The primitive of the Compression Contract (10_state.md R26). -/
def B2Prim.prim : B2Prim → Prim
  | .b2b => .b2b
  | .b2s => .b2s

/-- `N`, the leaves of the parallel combiner (00_scope.md R9 `NLEAF`, 43_parallel_combiner.md R220). -/
def B2Prim.nleaf : B2Prim → Nat
  | .b2b => 4
  | .b2s => 8

/-- The algorithms of class `B3` (30_encoding.md R97). -/
inductive B3Alg where
  | blake3 | deriveKey
deriving DecidableEq, Repr

/-- The 22 algorithms, by class (00_scope.md R7). The constructor is `CLS` of 10_state.md R24. -/
inductive Alg where
  | md (a : MdAlg)
  | sponge (a : SpongeAlg)
  | b2 (p : B2Prim)
  | b2p (p : B2Prim)
  | b2x (p : B2Prim)
  | b3 (a : B3Alg)
deriving DecidableEq, Repr

/-- One transaction on `CPORT`, as HFE sends it (20_memory.md R69): the primitive, the state words,
exactly one block, the counter, the block length and the flags. -/
structure Tx where
  prim : Prim
  state : HashState prim
  block : List Byte
  counter : Nat
  blen : Nat
  flags : BitVec 7
deriving DecidableEq, Repr

/-- `COMPRESS` for the primitives that return a HashState (20_memory.md R69, R70, R72, R73): a total
pure function about which nothing else is known (log 1). Not used with primitive `B3`. -/
opaque Config.compress (P : Prim) (state : HashState P) (block : List Byte)
    (counter blen : Nat) (flags : BitVec 7) : HashState P

/-- `COMPRESS` for primitive `B3`, which returns 16 words (20_memory.md R71, log 1). -/
opaque Config.compressB3 (cv : ChainVal) (block : List Byte) (counter blen : Nat)
    (flags : BitVec 7) : Vector (BitVec (Prim.width .b3)) 16

/-- `IVTAB` for class `MD`, one row per algorithm (20_memory.md R74, log 2). -/
opaque Config.ivMd (a : MdAlg) : HashState a.prim

/-- `IVTAB` for BLAKE2: 8 words for each primitive (20_memory.md R74, log 2). -/
opaque Config.ivB2 (p : B2Prim) : HashState p.prim

/-- `IVTAB` for `B3`: the default initial chaining value (20_memory.md R74, log 2). -/
opaque Config.ivB3 : ChainVal

/-- `IVTAB` for `KECCAK`: all-zero lanes, a value the spec gives (20_memory.md R74). -/
def Config.ivKeccak : HashState .keccak := Vector.replicate 25 0

/-- What the unused positions of the register file hold in a live slot: any value
(93_implementation_defined.md U7, log 7). -/
opaque Config.unusedWords (a : MdAlg) : UnusedWords a.prim

/-- The two numbers that an instance of HFE is built with and a model takes as arguments (00_scope.md R9,
logs 3 and 4): `NCTX`, the number of context slots, and `B3_CEIL`, the highest BLAKE3 output position plus
one. -/
structure Params where
  nctx : Nat
  b3Ceil : Nat
deriving DecidableEq, Repr

/-- The values this hardware takes (00_scope.md R9, 92_eei_decisions.md D3, D4). -/
def Params.reference : Params where
  nctx := 16
  b3Ceil := 2 ^ 53

/-- The ranges of the two parameters (92_eei_decisions.md section 2): `1 ≤ NCTX ≤ 16`; `B3_CEIL` a multiple
of 64, at most 2^70. -/
def Params.legal (P : Params) : Bool :=
  decide (1 ≤ P.nctx ∧ P.nctx ≤ 16) && decide (P.b3Ceil % 64 = 0 ∧ P.b3Ceil ≤ 2 ^ 70)

/-- The slots that the 4-bit `CTX` field can name, the most that `NCTX` can be (30_encoding.md R92). -/
abbrev Config.maxSlots : Nat := 16

end Sys2Proof
end

