-- ==== Sys2Proof/Syntax.lean ====
section
/-! DEFINITION. The commands of HFE: one constructor per row of spec/opcode_table.json
(30_encoding.md R93, R109). A command holds the values of its operands and its payload; the length
operands KLEN, SLEN and LEN of NEW and ABSORB are the lengths of the payload they announce. -/

namespace Sys2Proof

/-- A host command. `c` is the header's CTX field (R92), `xof` its XOF bit (R96), `dlen` the operand
DLEN (R95), `key` and `salt` the payload of NEW (45_keying_construction.md R280), `data` the payload
of ABSORB, `len` and `pos` the operands LEN and POS. -/
inductive Instr where
  | newMd5 (c : BitVec 4) (xof : Bool) (dlen : BitVec 64) (key salt : List Byte)
  | newSha1 (c : BitVec 4) (xof : Bool) (dlen : BitVec 64) (key salt : List Byte)
  | newSha224 (c : BitVec 4) (xof : Bool) (dlen : BitVec 64) (key salt : List Byte)
  | newSha256 (c : BitVec 4) (xof : Bool) (dlen : BitVec 64) (key salt : List Byte)
  | newSha384 (c : BitVec 4) (xof : Bool) (dlen : BitVec 64) (key salt : List Byte)
  | newSha512 (c : BitVec 4) (xof : Bool) (dlen : BitVec 64) (key salt : List Byte)
  | newSha512_224 (c : BitVec 4) (xof : Bool) (dlen : BitVec 64) (key salt : List Byte)
  | newSha512_256 (c : BitVec 4) (xof : Bool) (dlen : BitVec 64) (key salt : List Byte)
  | newSha3_224 (c : BitVec 4) (xof : Bool) (dlen : BitVec 64) (key salt : List Byte)
  | newSha3_256 (c : BitVec 4) (xof : Bool) (dlen : BitVec 64) (key salt : List Byte)
  | newSha3_384 (c : BitVec 4) (xof : Bool) (dlen : BitVec 64) (key salt : List Byte)
  | newSha3_512 (c : BitVec 4) (xof : Bool) (dlen : BitVec 64) (key salt : List Byte)
  | newShake128 (c : BitVec 4) (xof : Bool) (dlen : BitVec 64) (key salt : List Byte)
  | newShake256 (c : BitVec 4) (xof : Bool) (dlen : BitVec 64) (key salt : List Byte)
  | newBlake2b (c : BitVec 4) (xof : Bool) (dlen : BitVec 64) (key salt : List Byte)
  | newBlake2s (c : BitVec 4) (xof : Bool) (dlen : BitVec 64) (key salt : List Byte)
  | newBlake2bp (c : BitVec 4) (xof : Bool) (dlen : BitVec 64) (key salt : List Byte)
  | newBlake2sp (c : BitVec 4) (xof : Bool) (dlen : BitVec 64) (key salt : List Byte)
  | newBlake2xb (c : BitVec 4) (xof : Bool) (dlen : BitVec 64) (key salt : List Byte)
  | newBlake2xs (c : BitVec 4) (xof : Bool) (dlen : BitVec 64) (key salt : List Byte)
  | newBlake3 (c : BitVec 4) (xof : Bool) (dlen : BitVec 64) (key salt : List Byte)
  | newBlake3DeriveKey (c : BitVec 4) (xof : Bool) (dlen : BitVec 64) (key salt : List Byte)
  | absorb (c : BitVec 4) (data : List Byte)
  | finalize (c : BitVec 4)
  | xofRead (c : BitVec 4) (len : BitVec 64)
  | xofSeek (c : BitVec 4) (pos : BitVec 64)
  | xofReadAt (c : BitVec 4) (pos len : BitVec 64)
deriving DecidableEq, Repr

/-- The slot a command names (10_state.md R20, 30_encoding.md R92). -/
def Instr.context : Instr → BitVec 4
  | .newMd5 c _ _ _ _ => c
  | .newSha1 c _ _ _ _ => c
  | .newSha224 c _ _ _ _ => c
  | .newSha256 c _ _ _ _ => c
  | .newSha384 c _ _ _ _ => c
  | .newSha512 c _ _ _ _ => c
  | .newSha512_224 c _ _ _ _ => c
  | .newSha512_256 c _ _ _ _ => c
  | .newSha3_224 c _ _ _ _ => c
  | .newSha3_256 c _ _ _ _ => c
  | .newSha3_384 c _ _ _ _ => c
  | .newSha3_512 c _ _ _ _ => c
  | .newShake128 c _ _ _ _ => c
  | .newShake256 c _ _ _ _ => c
  | .newBlake2b c _ _ _ _ => c
  | .newBlake2s c _ _ _ _ => c
  | .newBlake2bp c _ _ _ _ => c
  | .newBlake2sp c _ _ _ _ => c
  | .newBlake2xb c _ _ _ _ => c
  | .newBlake2xs c _ _ _ _ => c
  | .newBlake3 c _ _ _ _ => c
  | .newBlake3DeriveKey c _ _ _ _ => c
  | .absorb c _ => c
  | .finalize c => c
  | .xofRead c _ => c
  | .xofSeek c _ => c
  | .xofReadAt c _ _ => c

end Sys2Proof
end

