-- ==== Sys2Proof/WellFormed.lean ====
section
/-! DEFINITION. Which commands a frame can spell on an instance of HFE: the lengths KLEN, SLEN and LEN are
64-bit operands (30_encoding.md R90, R98), so each payload is shorter than 2^64 bytes, and CTX is below the
instance's NCTX (R92). Every other field has the width of its place in the frame by its type. -/

namespace Sys2Proof

/-- A payload whose length its 64-bit length operand can say (30_encoding.md R90). -/
def lengthFits (bs : List Byte) : Bool := decide (bs.length < 2 ^ 64)

/-- The key, the salt and the data each fit their length operand (30_encoding.md R90). -/
def Instr.payloadsFit : Instr → Bool
  | .newMd5 _ _ _ key salt => lengthFits key && lengthFits salt
  | .newSha1 _ _ _ key salt => lengthFits key && lengthFits salt
  | .newSha224 _ _ _ key salt => lengthFits key && lengthFits salt
  | .newSha256 _ _ _ key salt => lengthFits key && lengthFits salt
  | .newSha384 _ _ _ key salt => lengthFits key && lengthFits salt
  | .newSha512 _ _ _ key salt => lengthFits key && lengthFits salt
  | .newSha512_224 _ _ _ key salt => lengthFits key && lengthFits salt
  | .newSha512_256 _ _ _ key salt => lengthFits key && lengthFits salt
  | .newSha3_224 _ _ _ key salt => lengthFits key && lengthFits salt
  | .newSha3_256 _ _ _ key salt => lengthFits key && lengthFits salt
  | .newSha3_384 _ _ _ key salt => lengthFits key && lengthFits salt
  | .newSha3_512 _ _ _ key salt => lengthFits key && lengthFits salt
  | .newShake128 _ _ _ key salt => lengthFits key && lengthFits salt
  | .newShake256 _ _ _ key salt => lengthFits key && lengthFits salt
  | .newBlake2b _ _ _ key salt => lengthFits key && lengthFits salt
  | .newBlake2s _ _ _ key salt => lengthFits key && lengthFits salt
  | .newBlake2bp _ _ _ key salt => lengthFits key && lengthFits salt
  | .newBlake2sp _ _ _ key salt => lengthFits key && lengthFits salt
  | .newBlake2xb _ _ _ key salt => lengthFits key && lengthFits salt
  | .newBlake2xs _ _ _ key salt => lengthFits key && lengthFits salt
  | .newBlake3 _ _ _ key salt => lengthFits key && lengthFits salt
  | .newBlake3DeriveKey _ _ _ key salt => lengthFits key && lengthFits salt
  | .absorb _ data => lengthFits data
  | .finalize _ => true
  | .xofRead _ _ => true
  | .xofSeek _ _ => true
  | .xofReadAt _ _ _ => true

/-- The well-formed commands of an instance with `nctx` slots: the slot named exists (30_encoding.md R92) and
the payloads fit their length operands. -/
def Instr.wellFormed (nctx : Nat) (i : Instr) : Bool :=
  decide (i.context.toNat < nctx) && i.payloadsFit

end Sys2Proof
end

