-- ==== Sys2Proof/Decode.lean ====
section
/-! DEFINITION. Command frames (30_encoding.md): the decoder, total on any byte sequence, and the
encoder. -/

namespace Sys2Proof

/-! ### Algorithm numbers (30_encoding.md R97) -/

/-- The algorithm number `ALG` (30_encoding.md R97). -/
def Alg.number : Alg → BitVec 8
  | .md .md5 => 0x01
  | .md .sha1 => 0x02
  | .md .sha224 => 0x03
  | .md .sha256 => 0x04
  | .md .sha384 => 0x05
  | .md .sha512 => 0x06
  | .md .sha512_224 => 0x07
  | .md .sha512_256 => 0x08
  | .sponge .sha3_224 => 0x10
  | .sponge .sha3_256 => 0x11
  | .sponge .sha3_384 => 0x12
  | .sponge .sha3_512 => 0x13
  | .sponge .shake128 => 0x14
  | .sponge .shake256 => 0x15
  | .b2 .b2b => 0x20
  | .b2 .b2s => 0x21
  | .b2p .b2b => 0x22
  | .b2p .b2s => 0x23
  | .b2x .b2b => 0x24
  | .b2x .b2s => 0x25
  | .b3 .blake3 => 0x30
  | .b3 .deriveKey => 0x31

/-- The 22 algorithms in the order of 30_encoding.md R97. -/
def Alg.all : List Alg :=
  [.md .md5, .md .sha1, .md .sha224, .md .sha256, .md .sha384, .md .sha512, .md .sha512_224,
    .md .sha512_256, .sponge .sha3_224, .sponge .sha3_256, .sponge .sha3_384, .sponge .sha3_512,
    .sponge .shake128, .sponge .shake256, .b2 .b2b, .b2 .b2s, .b2p .b2b, .b2p .b2s, .b2x .b2b,
    .b2x .b2s, .b3 .blake3, .b3 .deriveKey]

/-- The algorithm a number names; none for a reserved number (30_encoding.md R97). -/
def Alg.ofNumber (n : BitVec 8) : Option Alg := Alg.all.find? fun a => a.number == n

/-- The NEW command of each algorithm (one row of the opcode table each, 30_encoding.md R109). -/
def Instr.new (a : Alg) (c : BitVec 4) (xof : Bool) (dlen : BitVec 64) (key salt : List Byte) :
    Instr :=
  match a with
  | .md .md5 => .newMd5 c xof dlen key salt
  | .md .sha1 => .newSha1 c xof dlen key salt
  | .md .sha224 => .newSha224 c xof dlen key salt
  | .md .sha256 => .newSha256 c xof dlen key salt
  | .md .sha384 => .newSha384 c xof dlen key salt
  | .md .sha512 => .newSha512 c xof dlen key salt
  | .md .sha512_224 => .newSha512_224 c xof dlen key salt
  | .md .sha512_256 => .newSha512_256 c xof dlen key salt
  | .sponge .sha3_224 => .newSha3_224 c xof dlen key salt
  | .sponge .sha3_256 => .newSha3_256 c xof dlen key salt
  | .sponge .sha3_384 => .newSha3_384 c xof dlen key salt
  | .sponge .sha3_512 => .newSha3_512 c xof dlen key salt
  | .sponge .shake128 => .newShake128 c xof dlen key salt
  | .sponge .shake256 => .newShake256 c xof dlen key salt
  | .b2 .b2b => .newBlake2b c xof dlen key salt
  | .b2 .b2s => .newBlake2s c xof dlen key salt
  | .b2p .b2b => .newBlake2bp c xof dlen key salt
  | .b2p .b2s => .newBlake2sp c xof dlen key salt
  | .b2x .b2b => .newBlake2xb c xof dlen key salt
  | .b2x .b2s => .newBlake2xs c xof dlen key salt
  | .b3 .blake3 => .newBlake3 c xof dlen key salt
  | .b3 .deriveKey => .newBlake3DeriveKey c xof dlen key salt

/-! ### The header word (30_encoding.md R91) -/

/-- `OPC`, bits 31:28. -/
def hdrOpc (w : BitVec 32) : BitVec 4 := w.extractLsb' 28 4

/-- `CTX`, bits 27:24. -/
def hdrCtx (w : BitVec 32) : BitVec 4 := w.extractLsb' 24 4

/-- `ALG`, bits 23:16. -/
def hdrAlg (w : BitVec 32) : BitVec 8 := w.extractLsb' 16 8

/-- Bits 15:9, reserved. -/
def hdrReservedHigh (w : BitVec 32) : BitVec 7 := w.extractLsb' 9 7

/-- `XOF`, bit 8. -/
def hdrXof (w : BitVec 32) : Bool := w.extractLsb' 8 1 == 1

/-- Bits 7:0, reserved. -/
def hdrReservedLow (w : BitVec 32) : BitVec 8 := w.extractLsb' 0 8

/-- The header word with the given fields and every reserved bit 0 (30_encoding.md R91). -/
def hdrWord (opc c : BitVec 4) (alg : BitVec 8) (xof : Bool) : BitVec 32 :=
  opc ++ c ++ alg ++ (0 : BitVec 7) ++ (if xof then 1 else 0 : BitVec 1) ++ (0 : BitVec 8)

/-- `n(OPC)`, the number of 8-byte operands (30_encoding.md R102). -/
def operandCount (opc : BitVec 4) : Nat :=
  match opc.toNat with
  | 1 => 3
  | 2 => 1
  | 4 => 1
  | 5 => 1
  | 6 => 2
  | _ => 0

/-- Operand `k` of a frame whose bytes after the header are `bs` (30_encoding.md R98). -/
def operand (bs : List Byte) (k : Nat) : Nat := leVal ((bs.drop (8 * k)).take 8)

/-- The length of the payload: `KLEN + SLEN` for NEW, `LEN` for ABSORB, none otherwise
(30_encoding.md R102). -/
def payloadLength (opc : BitVec 4) (bs : List Byte) : Nat :=
  match opc.toNat with
  | 1 => operand bs 1 + operand bs 2
  | 2 => operand bs 0
  | _ => 0

/-! ### Decoding -/

/-- Why a frame is illegal (30_encoding.md R104). -/
inductive Illegal where
  /-- `OPC` is 0x0 or 0x7 … 0xF. -/
  | reservedOpcode
  /-- A reserved header bit is 1. -/
  | reservedBit
  /-- `ALG ≠ 0` in a command other than NEW. -/
  | algOutsideNew
  /-- `XOF = 1` in a command other than NEW. -/
  | xofOutsideNew
  /-- `ALG` in NEW is not in the table of R97. -/
  | unknownAlg
  /-- `CTX ≥ NCTX`, on an instance with fewer than 16 slots (70_reset_and_hazards.md R364). -/
  | ctxOutOfRange
deriving DecidableEq, Repr

/-- The checks of 30_encoding.md R104 that every command shares; they look at the header alone
(60_exceptions.md R329). `nctx` is the instance's `NCTX`. -/
def headerIllegal (nctx : Nat) (w : BitVec 32) : Option Illegal :=
  if hdrOpc w = 0 ∨ 7 ≤ (hdrOpc w).toNat then some .reservedOpcode
  else if hdrReservedHigh w ≠ 0 ∨ hdrReservedLow w ≠ 0 then some .reservedBit
  else if hdrOpc w ≠ 1 ∧ hdrAlg w ≠ 0 then some .algOutsideNew
  else if hdrOpc w ≠ 1 ∧ hdrXof w = true then some .xofOutsideNew
  else if hdrOpc w = 1 ∧ (Alg.ofNumber (hdrAlg w)).isNone then some .unknownAlg
  else if nctx ≤ (hdrCtx w).toNat then some .ctxOutOfRange
  else none

/-- The command that a legal header with operand bytes `ops` and payload `payload` spells
(30_encoding.md R93); none where the header is illegal. -/
def buildInstr (w : BitVec 32) (ops payload : List Byte) : Option Instr :=
  match (hdrOpc w).toNat with
  | 1 =>
    match Alg.ofNumber (hdrAlg w) with
    | some a =>
      some (.new a (hdrCtx w) (hdrXof w) (BitVec.ofNat 64 (operand ops 0))
        (payload.take (operand ops 1)) (payload.drop (operand ops 1)))
    | none => none
  | 2 => some (.absorb (hdrCtx w) payload)
  | 3 => some (.finalize (hdrCtx w))
  | 4 => some (.xofRead (hdrCtx w) (BitVec.ofNat 64 (operand ops 0)))
  | 5 => some (.xofSeek (hdrCtx w) (BitVec.ofNat 64 (operand ops 0)))
  | 6 => some (.xofReadAt (hdrCtx w) (BitVec.ofNat 64 (operand ops 0))
      (BitVec.ofNat 64 (operand ops 1)))
  | _ => none

/-- What the bytes on `CMD` begin with. -/
inductive Frame where
  /-- A legal command, and the bytes after its frame. -/
  | command (i : Instr) (rest : List Byte)
  /-- A whole frame that is illegal, why, and the bytes after it. -/
  | illegal (why : Illegal) (rest : List Byte)
  /-- The frame's bytes have not all arrived (70_reset_and_hazards.md R356). -/
  | incomplete
deriving DecidableEq, Repr

/-- Read one frame (30_encoding.md R90, R102): the header, `n(OPC)` operands, the payload they
announce. A frame is consumed whole whether or not it is legal (R102, 70_reset_and_hazards.md
R362). Nothing but the bytes decides (R106), given the instance's `NCTX`. -/
def decodeFrame (nctx : Nat) (bs : List Byte) : Frame :=
  if bs.length < 4 then .incomplete
  else
    let w := BitVec.ofNat 32 (leVal (bs.take 4))
    let n := 8 * operandCount (hdrOpc w)
    let body := bs.drop 4
    if body.length < n then .incomplete
    else
      let len := payloadLength (hdrOpc w) body
      let tail := body.drop n
      if tail.length < len then .incomplete
      else
        let rest := tail.drop len
        match headerIllegal nctx w with
        | some why => .illegal why rest
        | none =>
          match buildInstr w body (tail.take len) with
          | some i => .command i rest
          | none => .illegal .reservedOpcode rest

/-! ### Encoding -/

/-- The frame of a NEW command (30_encoding.md R94 format `N`). -/
def encodeNew (a : Alg) (c : BitVec 4) (xof : Bool) (dlen : BitVec 64) (key salt : List Byte) :
    List Byte :=
  leBytes 4 (hdrWord 1 c a.number xof).toNat ++ leBytes 8 dlen.toNat ++ leBytes 8 key.length
    ++ leBytes 8 salt.length ++ key ++ salt

/-- The header of a command other than NEW (30_encoding.md R91, R103). -/
def encodeHeader (opc c : BitVec 4) : List Byte := leBytes 4 (hdrWord opc c 0 false).toNat

/-- The frame of a command, written from the same tables (30_encoding.md R90 to R98). -/
def encode : Instr → List Byte
  | .newMd5 c xof dlen key salt => encodeNew (.md .md5) c xof dlen key salt
  | .newSha1 c xof dlen key salt => encodeNew (.md .sha1) c xof dlen key salt
  | .newSha224 c xof dlen key salt => encodeNew (.md .sha224) c xof dlen key salt
  | .newSha256 c xof dlen key salt => encodeNew (.md .sha256) c xof dlen key salt
  | .newSha384 c xof dlen key salt => encodeNew (.md .sha384) c xof dlen key salt
  | .newSha512 c xof dlen key salt => encodeNew (.md .sha512) c xof dlen key salt
  | .newSha512_224 c xof dlen key salt => encodeNew (.md .sha512_224) c xof dlen key salt
  | .newSha512_256 c xof dlen key salt => encodeNew (.md .sha512_256) c xof dlen key salt
  | .newSha3_224 c xof dlen key salt => encodeNew (.sponge .sha3_224) c xof dlen key salt
  | .newSha3_256 c xof dlen key salt => encodeNew (.sponge .sha3_256) c xof dlen key salt
  | .newSha3_384 c xof dlen key salt => encodeNew (.sponge .sha3_384) c xof dlen key salt
  | .newSha3_512 c xof dlen key salt => encodeNew (.sponge .sha3_512) c xof dlen key salt
  | .newShake128 c xof dlen key salt => encodeNew (.sponge .shake128) c xof dlen key salt
  | .newShake256 c xof dlen key salt => encodeNew (.sponge .shake256) c xof dlen key salt
  | .newBlake2b c xof dlen key salt => encodeNew (.b2 .b2b) c xof dlen key salt
  | .newBlake2s c xof dlen key salt => encodeNew (.b2 .b2s) c xof dlen key salt
  | .newBlake2bp c xof dlen key salt => encodeNew (.b2p .b2b) c xof dlen key salt
  | .newBlake2sp c xof dlen key salt => encodeNew (.b2p .b2s) c xof dlen key salt
  | .newBlake2xb c xof dlen key salt => encodeNew (.b2x .b2b) c xof dlen key salt
  | .newBlake2xs c xof dlen key salt => encodeNew (.b2x .b2s) c xof dlen key salt
  | .newBlake3 c xof dlen key salt => encodeNew (.b3 .blake3) c xof dlen key salt
  | .newBlake3DeriveKey c xof dlen key salt => encodeNew (.b3 .deriveKey) c xof dlen key salt
  | .absorb c data => encodeHeader 2 c ++ leBytes 8 data.length ++ data
  | .finalize c => encodeHeader 3 c
  | .xofRead c len => encodeHeader 4 c ++ leBytes 8 len.toNat
  | .xofSeek c pos => encodeHeader 5 c ++ leBytes 8 pos.toNat
  | .xofReadAt c pos len => encodeHeader 6 c ++ leBytes 8 pos.toNat ++ leBytes 8 len.toNat

/-! ### One word of the opcode table as a frame -/

/-- The longest frame without payload: NEW's header and three operands (30_encoding.md R94). -/
def longestFrame : Nat := 28

/-- The bytes of the table's word `w` of `nbits` bits, as `CMD` carries them (30_encoding.md R91,
R109), every later byte up to the longest frame zero. -/
def tableBytes (nbits w : Nat) : List Byte := zpad (leBytes (nbits / 8) w) longestFrame

/-- The command the decoder of the reference instance reads from a word of the opcode table. -/
def decodeTableWord (nbits w : Nat) : Option Instr :=
  match decodeFrame Params.reference.nctx (tableBytes nbits w) with
  | .command i _ => some i
  | .illegal _ _ => none
  | .incomplete => none

end Sys2Proof
end

