-- ==== Sys2Proof/Machine/State.lean ====
section
/-! DEFINITION. The architectural state of HFE (10_state.md) and its value after reset
(70_reset_and_hazards.md R350). Plain data. Accessors and updates are in Ops.lean. -/

namespace Sys2Proof.Machine

/-! ### Class records (10_state.md sections 5 to 9) -/

/-- State of class `MD` (10_state.md R28): `H`, whose register file has 8 positions (R26), the live ones in `h`
and the others in `unused` (log 7), and `TAIL`. -/
structure MdState (a : MdAlg) where
  h : HashState a.prim
  unused : UnusedWords a.prim
  tail : List Byte
deriving DecidableEq, Repr

/-- State of class `SPONGE` (10_state.md R29): the lanes `S` and `TAIL`. -/
structure SpongeState where
  s : HashState .keccak
  tail : List Byte
deriving DecidableEq, Repr

/-- A BLAKE2 instance (10_state.md R30): `H`, the counter `T`, `TAIL`, `LASTNODE`. -/
structure B2Inst (p : B2Prim) where
  h : HashState p.prim
  t : Nat
  tail : List Byte
  lastNode : Bool
deriving DecidableEq, Repr

/-- State of class `B2P` (10_state.md R38): the leaves and the root. -/
structure B2PState (p : B2Prim) where
  leaf : Vector (B2Inst p) p.nleaf
  root : B2Inst p
deriving DecidableEq, Repr

/-- State of class `B2X` (10_state.md R32): the outer instance, `XLEN` and `SALTP`. -/
structure B2XState (p : B2Prim) where
  inst : B2Inst p
  xlen : Nat
  saltp : List Byte
deriving DecidableEq, Repr

/-- State of class `B3` (10_state.md R33, R34, R36). `stack` lists `STACK[SP−1]` first and
`STACK[0]` last; its length is `SP`. -/
structure B3State where
  keyw : ChainVal
  base : BitVec 7
  cidx : Nat
  blocks : Nat
  cv : ChainVal
  tail : List Byte
  stack : List ChainVal
deriving DecidableEq, Repr

/-- The root descriptor `ROOTD` (10_state.md R37). -/
structure RootD where
  rcv : ChainVal
  rblock : List Byte
  rblen : Nat
  rflags : BitVec 7
deriving DecidableEq, Repr

/-- The class state of an `ABSORBING` slot, with its algorithm (10_state.md R24 `ALG`, `CLS`). -/
inductive Hasher where
  | md (a : MdAlg) (m : MdState a)
  | sponge (a : SpongeAlg) (m : SpongeState)
  | b2 (p : B2Prim) (m : B2Inst p)
  | b2p (p : B2Prim) (m : B2PState p)
  | b2x (p : B2Prim) (m : B2XState p)
  | b3 (a : B3Alg) (m : B3State)
deriving DecidableEq, Repr

/-- The class state of a `SEALED` slot: what FINALIZE left, with `H0` (10_state.md R32) and `ROOTD`
(R37), which exist only there. -/
inductive Sealed where
  | md (a : MdAlg) (m : MdState a)
  | sponge (a : SpongeAlg) (m : SpongeState)
  | b2 (p : B2Prim) (m : B2Inst p)
  | b2p (p : B2Prim) (m : B2PState p)
  | b2x (p : B2Prim) (m : B2XState p) (h0 : List Byte)
  | b3 (a : B3Alg) (m : B3State) (rootd : RootD)
deriving DecidableEq, Repr

/-- The control fields common to every class (10_state.md R24). -/
structure Ctl where
  xof : Bool
  dlen : Nat
  total : Nat
  xpos : Nat
deriving DecidableEq, Repr

/-- A context slot; the constructor is `PHASE` (10_state.md R22). A `FREE` slot has no other field
(R50). `digest` is `DIGEST` (R24, R41; log 6). -/
inductive Slot where
  | free
  | absorbing (ctl : Ctl) (h : Hasher)
  | sealed (ctl : Ctl) (digest : List Byte) (z : Sealed)
deriving DecidableEq, Repr

/-- The whole state: the context store (10_state.md R20, R21) and the three ports (20_memory.md
R60). `cmd` holds the bytes delivered on `CMD` and not yet consumed, `rsp` the bytes emitted on
`RSP` since reset, `cport` the transactions issued on `CPORT` since reset, each oldest first
(log 8). `params` is no state of the machine but the numbers the instance is built with (00_scope.md R9),
which no command reads or writes but through the rules that name them (logs 3 and 4). The context store has a
place for every slot a 4-bit `CTX` can name; of these the first `params.nctx` exist, and the others stay `FREE`
(log 3). -/
structure State where
  params : Params
  ctx : Vector Slot Config.maxSlots
  cmd : List Byte
  rsp : List Byte
  cport : List Tx
deriving DecidableEq, Repr

/-- The reasons a step could stop with a fault: none. "HFE has no fatal, machine-check or
double-fault condition and never stops accepting commands" (60_exceptions.md R321): every error is
a response, and the step goes on. Safe: no step is lost to a fault. -/
inductive Fault where
deriving DecidableEq, Repr

/-- The reasons a step could be refused. -/
inductive Refusal where
  /-- Raised by an arm of `exec` for an instruction that has no meaning yet; no arm does. Safe: a
  refused step proves nothing. -/
  | notModelled (mnemonic : String)
deriving DecidableEq, Repr

/-- An instance of HFE with parameters `P` after reset: every slot is `FREE`, `CMD` is at a frame boundary,
`RSP` has no response pending and `CPORT` no transaction (70_reset_and_hazards.md R350, 10_state.md R50). -/
def State.resetOf (P : Params) : State where
  params := P
  ctx := Vector.replicate Config.maxSlots .free
  cmd := []
  rsp := []
  cport := []

/-- The reference instance after reset (00_scope.md R9, 70_reset_and_hazards.md R350). -/
def State.reset : State := State.resetOf Params.reference

end Sys2Proof.Machine
end

