-- ==== Sys2Proof/Machine/Flags.lean ====
section
/-! DEFINITION. The flags of compression transactions (20_memory.md R71, R72): computed for each
transaction, never stored (10_state.md R35, R40). -/

namespace Sys2Proof.Machine

/-! ### BLAKE3 (20_memory.md R71) -/

def CHUNK_START : BitVec 7 := 0x01
def CHUNK_END : BitVec 7 := 0x02
def PARENT : BitVec 7 := 0x04
def ROOT : BitVec 7 := 0x08
def KEYED_HASH : BitVec 7 := 0x10
def DERIVE_KEY_CONTEXT : BitVec 7 := 0x20
def DERIVE_KEY_MATERIAL : BitVec 7 := 0x40

/-- `CHUNK_START` exactly when `BLOCKS = 0` (42_blake3_tree.md R184). -/
def startFlag (blocks : Nat) : BitVec 7 := if blocks = 0 then CHUNK_START else 0

/-- A chunk block that is not its chunk's last (42_blake3_tree.md R183, R196). -/
def midChunkFlags (m : B3State) : BitVec 7 := m.base ||| startFlag m.blocks

/-- A chunk's last block (42_blake3_tree.md R185, R189, R196). -/
def endChunkFlags (m : B3State) : BitVec 7 := m.base ||| startFlag m.blocks ||| CHUNK_END

/-- A PARENT transaction (42_blake3_tree.md R187, R196). -/
def parentFlags (base : BitVec 7) : BitVec 7 := base ||| PARENT

/-! ### BLAKE2 (20_memory.md R72) -/

def FINAL_BLOCK : BitVec 7 := 0x1
def LAST_NODE : BitVec 7 := 0x2

/-- The flags of an instance's final block (41_incremental_hasher.md R147). -/
def finalFlags (lastNode : Bool) : BitVec 7 :=
  FINAL_BLOCK ||| (if lastNode then LAST_NODE else 0)

end Sys2Proof.Machine
end

