-- ==== Sys2Proof/Machine/Port.lean ====
section
/-! DEFINITION. The compression port (20_memory.md R69): values paired with the transactions their
computation issues, in order, and the port's two operations. -/

namespace Sys2Proof.Machine

/-- A value together with the transactions issued to obtain it, oldest first. -/
structure Traced (α : Type) where
  val : α
  txs : List Tx

/-- A value that costs no transaction. -/
def Traced.pure {α : Type} (a : α) : Traced α := ⟨a, []⟩

/-- First `x`, then `f` on its value; the transactions follow one another. -/
def Traced.bind {α β : Type} (x : Traced α) (f : α → Traced β) : Traced β :=
  ⟨(f x.val).val, x.txs ++ (f x.val).txs⟩

/-- `f` on the value of `x`, no further transaction. -/
def Traced.map {α β : Type} (f : α → β) (x : Traced α) : Traced β := ⟨f x.val, x.txs⟩

/-- `compress_P(state, block, counter, blen, flags)`: one transaction (20_memory.md R69). -/
def compress (P : Prim) (state : HashState P) (block : List Byte) (counter blen : Nat)
    (flags : BitVec 7) : Traced (HashState P) :=
  ⟨Config.compress P state block counter blen flags, [⟨P, state, block, counter, blen, flags⟩]⟩

/-- `compress_B3(cv, block, counter, blen, flags)`: one transaction, 16 result words
(20_memory.md R71). -/
def compressB3 (cv : ChainVal) (block : List Byte) (counter blen : Nat) (flags : BitVec 7) :
    Traced (Vector (BitVec (Prim.width .b3)) 16) :=
  ⟨Config.compressB3 cv block counter blen flags, [⟨.b3, cv, block, counter, blen, flags⟩]⟩

/-- `out[0 … 7]`, the new chaining value (20_memory.md R71). -/
def firstEight (out : Vector (BitVec (Prim.width .b3)) 16) : ChainVal :=
  ⟨⟨out.toList.take 8⟩, by simp [Prim.words]⟩

/-- A `B3` transaction of which only the chaining value is used. -/
def compressCv (cv : ChainVal) (block : List Byte) (counter blen : Nat) (flags : BitVec 7) :
    Traced ChainVal :=
  (compressB3 cv block counter blen flags).map firstEight

/-- The loop of 41_incremental_hasher.md R135, R146 and R157 for a number of blocks known
beforehand: `n` times, compress the first `B` bytes of `d` and drop them. What is left of `d` is
the new `TAIL`. -/
def absorbBlocks {σ : Type} (B : Nat) (f : σ → List Byte → Traced σ) :
    Nat → σ → List Byte → Traced (σ × List Byte)
  | 0, h, d => .pure (h, d)
  | n + 1, h, d => (f h (d.take B)).bind fun h' => absorbBlocks B f n h' (d.drop B)

/-- "while |d| ≥ B" (41_incremental_hasher.md R131, R135, R157): the number of rounds. -/
def eagerBlocks (B : Nat) (d : List Byte) : Nat := d.length / B

/-- "while |d| > B" (41_incremental_hasher.md R131, R146): the number of rounds. -/
def lazyBlocks (B : Nat) (d : List Byte) : Nat := (d.length - 1) / B

/-- Eager absorption (41_incremental_hasher.md R131): compress while a full block is there. -/
def absorbEager {σ : Type} (B : Nat) (f : σ → List Byte → Traced σ) (h : σ) (d : List Byte) :
    Traced (σ × List Byte) :=
  absorbBlocks B f (eagerBlocks B d) h d

/-- Lazy absorption (41_incremental_hasher.md R131): compress while more than a full block is
there. -/
def absorbLazy {σ : Type} (B : Nat) (f : σ → List Byte → Traced σ) (h : σ) (d : List Byte) :
    Traced (σ × List Byte) :=
  absorbBlocks B f (lazyBlocks B d) h d

/-- Read `n` bytes at position `p` of a stream made of blocks of `B` bytes, block `j` given by
`blk j` (44_xof_adapter.md R251, R261): one evaluation of `blk` per block touched, in increasing
order. The first argument bounds the number of rounds; each round takes at least one byte. -/
def readBlocks (B : Nat) (blk : Nat → Traced (List Byte)) : Nat → Nat → Nat → Traced (List Byte)
  | 0, _, _ => .pure []
  | fuel + 1, p, n =>
    if n = 0 then .pure []
    else
      let off := p % B
      let take := min (B - off) n
      (blk (p / B)).bind fun bytes =>
        (readBlocks B blk fuel (p + take) (n - take)).map fun out => (bytes.drop off).take take ++ out

end Sys2Proof.Machine
end

