-- ==== Sys2Proof/Machine/Ops.lean ====
section
/-! DEFINITION. The named operations over the state: reading and writing a slot, answering a command,
raising an error, running a command on its slot. -/

namespace Sys2Proof.Machine

/-! ### The fields of a slot -/

/-- The phases of a slot (10_state.md R22). -/
inductive Phase where
  | free | absorbing | sealed
deriving DecidableEq, Repr

/-- The numbers of 10_state.md R22; 3 is never written. -/
def Phase.code : Phase → BitVec 2
  | .free => 0
  | .absorbing => 1
  | .sealed => 2

/-- `PHASE` of a slot (10_state.md R22). -/
def Slot.phase : Slot → Phase
  | .free => .free
  | .absorbing _ _ => .absorbing
  | .sealed _ _ _ => .sealed

/-- `ALG` of a class state (10_state.md R24). -/
def Hasher.alg : Hasher → Alg
  | .md a _ => .md a
  | .sponge a _ => .sponge a
  | .b2 p _ => .b2 p
  | .b2p p _ => .b2p p
  | .b2x p _ => .b2x p
  | .b3 a _ => .b3 a

/-- `ALG` of a sealed class state (10_state.md R24). -/
def Sealed.alg : Sealed → Alg
  | .md a _ => .md a
  | .sponge a _ => .sponge a
  | .b2 p _ => .b2 p
  | .b2p p _ => .b2p p
  | .b2x p _ _ => .b2x p
  | .b3 a _ _ => .b3 a

/-- `ALG` of a slot; a `FREE` slot has none (10_state.md R50). -/
def Slot.alg : Slot → Option Alg
  | .free => none
  | .absorbing _ h => some h.alg
  | .sealed _ _ z => some z.alg

/-! ### The context store (10_state.md R20) -/

/-- `CTX[c]`. -/
def State.slot (s : State) (c : BitVec 4) : Slot := s.ctx[c.toNat]'c.isLt

/-- `CTX[c] <- v`. -/
def State.setSlot (s : State) (c : BitVec 4) (v : Slot) : State :=
  { s with ctx := s.ctx.set c.toNat v c.isLt }

/-! ### The ports -/

/-- The host delivers bytes on `CMD` (20_memory.md R60). -/
def State.deliver (s : State) (bs : List Byte) : State := { s with cmd := s.cmd ++ bs }

/-- The bytes after the frame just read remain on `CMD` (30_encoding.md R102). -/
def State.consume (s : State) (rest : List Byte) : State := { s with cmd := rest }

/-- `CPORT` carries further transactions (20_memory.md R69). -/
def State.issue (s : State) (txs : List Tx) : State := { s with cport := s.cport ++ txs }

/-- The statuses of a command (60_exceptions.md R320). -/
inductive Status where
  | ok | invalidParameter | sequenceError | unsupportedLength | illegalCommand
deriving DecidableEq, Repr

/-- The status codes (30_encoding.md R100). -/
def Status.code : Status → Nat
  | .ok => 0
  | .invalidParameter => 1
  | .sequenceError => 2
  | .unsupportedLength => 3
  | .illegalCommand => 4

/-- A response frame: status word, `RLEN`, payload (30_encoding.md R99). -/
def responseFrame (st : Status) (payload : List Byte) : List Byte :=
  leBytes 4 st.code ++ leBytes 8 payload.length ++ payload

/-- Emit one response frame on `RSP` (30_encoding.md R99). -/
def State.respond (s : State) (st : Status) (payload : List Byte) : State :=
  { s with rsp := s.rsp ++ responseFrame st payload }

/-! ### The outcome of a command -/

/-- The outcomes of a step of this machine. -/
abbrev StepOutcome := Host.Outcome State Fault Refusal

/-- Raise an error: what takes the place of exception entry (60_exceptions.md R320, R324, R332).
Nothing is saved and no field changes; one response frame with the status and `RLEN = 0`. There is
no return operation (R334). -/
def raise (e : Status) (s : State) : StepOutcome := .next (s.respond e [])

/-- What a command that succeeds does: the new contents of its slot, the payload of its response,
the transactions it issues. -/
structure Result where
  slot : Slot
  payload : List Byte
  txs : List Tx

/-- Complete a command on slot `c` (20_memory.md R80). -/
def complete (c : BitVec 4) (r : Result) (s : State) : StepOutcome :=
  .next (((s.setSlot c r.slot).issue r.txs).respond .ok r.payload)

/-- Run a command on slot `c`: it reads that slot only and either raises an error, with no other
effect, or completes (10_state.md R20, 60_exceptions.md R323, R324). -/
def runOn (c : BitVec 4) (f : Slot → Except Status Result) (s : State) : StepOutcome :=
  match f (s.slot c) with
  | .error e => raise e s
  | .ok r => complete c r s

end Sys2Proof.Machine
end

