-- ==== Sys2Proof/Machine/Operands.lean ====
section
/-! DEFINITION. The parameters of the algorithms, the checks on NEW's operands
(45_keying_construction.md R282 to R285) and the BLAKE2 parameter block (R288). -/

namespace Sys2Proof.Machine

/-! ### Parameters of class MD (41_incremental_hasher.md R134) -/

/-- `B`, the block size in bytes (10_state.md R26). -/
def mdBlock (a : MdAlg) : Nat :=
  match a.prim with
  | .sha512 => 128
  | _ => 64

/-- `LF`, the width of the length field in bytes (20_memory.md R66). -/
def mdLengthField (a : MdAlg) : Nat :=
  match a.prim with
  | .sha512 => 16
  | _ => 8

/-- The length field and the digest words are little-endian for MD5 alone (20_memory.md R65,
R66). -/
def mdLittle (a : MdAlg) : Bool :=
  match a.prim with
  | .md5 => true
  | _ => false

/-- The only legal digest length (41_incremental_hasher.md R134, 45_keying_construction.md R284). -/
def mdDlen : MdAlg → Nat
  | .md5 => 16
  | .sha1 => 20
  | .sha224 => 28
  | .sha256 => 32
  | .sha384 => 48
  | .sha512 => 64
  | .sha512_224 => 28
  | .sha512_256 => 32

/-! ### Parameters of class SPONGE (41_incremental_hasher.md R156) -/

/-- `R`, the rate in bytes. -/
def rate : SpongeAlg → Nat
  | .sha3_224 => 144
  | .sha3_256 => 136
  | .sha3_384 => 104
  | .sha3_512 => 72
  | .shake128 => 168
  | .shake256 => 136

/-- `SFX`, the domain suffix byte. -/
def suffix : SpongeAlg → Byte
  | .sha3_224 | .sha3_256 | .sha3_384 | .sha3_512 => 0x06
  | .shake128 | .shake256 => 0x1F

/-- The default digest length (41_incremental_hasher.md R156, 45_keying_construction.md R284). -/
def spongeDlen : SpongeAlg → Nat
  | .sha3_224 => 28
  | .sha3_256 => 32
  | .sha3_384 => 48
  | .sha3_512 => 64
  | .shake128 => 32
  | .shake256 => 64

/-- The SHAKE algorithms: any digest length, or a reader. -/
def isShake : SpongeAlg → Bool
  | .shake128 | .shake256 => true
  | .sha3_224 | .sha3_256 | .sha3_384 | .sha3_512 => false

/-! ### Parameters of BLAKE2 (10_state.md R26, 41_incremental_hasher.md R147) -/

/-- `B`, the block size in bytes. -/
def b2Block : B2Prim → Nat
  | .b2b => 128
  | .b2s => 64

/-- `OB`, the full width of the 8 state words in bytes. -/
def b2Out : B2Prim → Nat
  | .b2b => 64
  | .b2s => 32

/-- `XLEN_SENT`, the "infinite" sentinel (00_scope.md R9, 44_xof_adapter.md R255). -/
def xlenSent : B2Prim → Nat
  | .b2b => 2 ^ 32 - 1
  | .b2s => 2 ^ 16 - 1

/-- `PERIOD` in bytes (00_scope.md R9, 44_xof_adapter.md R255). -/
def b2xPeriod : B2Prim → Nat
  | .b2b => 2 ^ 38
  | .b2s => 2 ^ 37

/-! ### The checks on NEW's operands -/

/-- The algorithms that have an XOF mechanism (30_encoding.md R96, R97, 45_keying_construction.md
R283). -/
def hasXof : Alg → Bool
  | .md _ => false
  | .sponge a => isShake a
  | .b2 _ => false
  | .b2p _ => false
  | .b2x _ => true
  | .b3 _ => true

/-- The maximum of `KLEN`; none where the key payload is unbounded (45_keying_construction.md
R285). -/
def keyMax : Alg → Option Nat
  | .md _ => some 0
  | .sponge _ => some 0
  | .b2 p => some (b2Out p)
  | .b2p p => some (b2Out p)
  | .b2x p => some (b2Out p)
  | .b3 .blake3 => some 32
  | .b3 .deriveKey => none

/-- `KLEN` is within the maximum (45_keying_construction.md R285). -/
def keyFits (a : Alg) (klen : Nat) : Bool :=
  match keyMax a with
  | some m => decide (klen ≤ m)
  | none => true

/-- The maximum of `SLEN` (45_keying_construction.md R285). -/
def saltMax : Alg → Nat
  | .md _ => 0
  | .sponge _ => 0
  | .b2 p => b2Out p / 2
  | .b2p p => b2Out p / 2
  | .b2x p => b2Out p / 2
  | .b3 _ => 0

/-- `DLEN` is in the set whose complement is `InvalidParameter`, for `XOF = 0`
(45_keying_construction.md R284). -/
def dlenValid (a : Alg) (dlen : Nat) : Bool :=
  match a with
  | .md a => decide (dlen = 0 ∨ dlen = mdDlen a)
  | .sponge a => isShake a || decide (dlen = 0 ∨ dlen = spongeDlen a)
  | .b2 p => decide (dlen ≤ b2Out p)
  | .b2p p => decide (dlen ≤ b2Out p)
  | .b2x _ => decide (dlen ≠ 0)
  | .b3 _ => true

/-- `DLEN` is one the algorithm cannot represent, `UnsupportedLength` for `XOF = 0`
(45_keying_construction.md R284). `ceil` is the instance's `B3_CEIL`. -/
def dlenUnsupported (ceil : Nat) (a : Alg) (dlen : Nat) : Bool :=
  match a with
  | .md _ => false
  | .sponge _ => false
  | .b2 _ => false
  | .b2p _ => false
  | .b2x p => decide (xlenSent p ≤ dlen)
  | .b3 _ => decide (ceil < dlen)

/-- The `XOF` bit and `DLEN` go together (45_keying_construction.md R283, R284). -/
def lengthRequestValid (a : Alg) (xof : Bool) (dlen : Nat) : Bool :=
  if xof then hasXof a && decide (dlen = 0) else dlenValid a dlen

/-- The validation of NEW (45_keying_construction.md R281), in the order of R282: every
`InvalidParameter` condition, then `UnsupportedLength`. -/
def newCheck (ceil : Nat) (a : Alg) (xof : Bool) (dlen klen slen : Nat) : Except Status Unit :=
  if (lengthRequestValid a xof dlen && keyFits a klen && decide (slen ≤ saltMax a)) = false then
    .error .invalidParameter
  else if (!xof && dlenUnsupported ceil a dlen) = true then .error .unsupportedLength
  else .ok ()

/-! ### The BLAKE2 parameter block (45_keying_construction.md R288) -/

/-- The fields of the parameter block. -/
structure B2Params where
  digestLength : Nat
  keyLength : Nat
  fanout : Nat
  depth : Nat
  leafLength : Nat
  nodeOffset : Nat
  xofLength : Nat
  nodeDepth : Nat
  innerLength : Nat
  saltpers : List Byte

/-- `b2_pblock`: 64 bytes for `B2B`, 32 for `B2S` (45_keying_construction.md R288). -/
def b2Pblock (p : B2Prim) (f : B2Params) : List Byte :=
  match p with
  | .b2b =>
    leBytes 1 f.digestLength ++ leBytes 1 f.keyLength ++ leBytes 1 f.fanout ++ leBytes 1 f.depth
      ++ leBytes 4 f.leafLength ++ leBytes 4 f.nodeOffset ++ leBytes 4 f.xofLength
      ++ leBytes 1 f.nodeDepth ++ leBytes 1 f.innerLength ++ zeros 14 ++ zpad f.saltpers 32
  | .b2s =>
    leBytes 1 f.digestLength ++ leBytes 1 f.keyLength ++ leBytes 1 f.fanout ++ leBytes 1 f.depth
      ++ leBytes 4 f.leafLength ++ leBytes 4 f.nodeOffset ++ leBytes 2 f.xofLength
      ++ leBytes 1 f.nodeDepth ++ leBytes 1 f.innerLength ++ zpad f.saltpers 16

/-- The initial HashState of an instance: the initial value XORed with the parameter block word by
word (45_keying_construction.md R288). -/
def b2Init (p : B2Prim) (f : B2Params) : HashState p.prim :=
  xorWords (Config.ivB2 p) (lewVec p.prim.width p.prim.words (b2Pblock p f))

/-- The key block of a keyed instance, ε without a key (45_keying_construction.md R289). -/
def keyBlock (p : B2Prim) (key : List Byte) : List Byte :=
  if key.length > 0 then zpad key (b2Block p) else []

end Sys2Proof.Machine
end

