-- ==== Sys2Proof/Machine/Blake3.lean ====
section
/-! DEFINITION. The BLAKE3 Tree Engine (42_blake3_tree.md) and its output blocks
(44_xof_adapter.md R251). -/

namespace Sys2Proof.Machine

/-- The creation values of a `B3` engine (45_keying_construction.md R296). -/
def b3Fresh (keyw : ChainVal) (base : BitVec 7) : B3State where
  keyw := keyw
  base := base
  cidx := 0
  blocks := 0
  cv := keyw
  tail := []
  stack := []

/-- `parent_cv(left, right)` (42_blake3_tree.md R187). -/
def parentCv (keyw : ChainVal) (base : BitVec 7) (left right : ChainVal) : Traced ChainVal :=
  compressCv keyw (leWords left.toList ++ leWords right.toList) 0 64 (parentFlags base)

/-- The merge loop of `add_chunk_cv` (42_blake3_tree.md R186): while the count is even, the two most
recent entries become one. The first number bounds the rounds. -/
def mergeLoop (keyw : ChainVal) (base : BitVec 7) : Nat → Nat → List ChainVal → Traced (List ChainVal)
  | 0, _, stack => .pure stack
  | fuel + 1, count, stack =>
    if count % 2 = 0 then
      match stack with
      | right :: left :: below =>
        (parentCv keyw base left right).bind fun cv => mergeLoop keyw base fuel (count / 2) (cv :: below)
      | _ => .pure stack
    else .pure stack

/-- `add_chunk_cv(cv, count)` (42_blake3_tree.md R186): the stack after it. Every merge takes one
entry away, so the pushed stack's length bounds the merges. -/
def addChunkCv (m : B3State) (cv : ChainVal) (count : Nat) : Traced (List ChainVal) :=
  mergeLoop m.keyw m.base (m.stack.length + 1) count (cv :: m.stack)

/-- Compress the held block when a later byte exists (42_blake3_tree.md R183 to R186): the chunk's
16th block seals the chunk, any other goes into its chaining value. -/
def b3Flush (m : B3State) : Traced B3State :=
  if m.blocks = 15 then
    (compressCv m.cv m.tail m.cidx 64 (endChunkFlags m)).bind fun cv =>
      (addChunkCv m cv (m.cidx + 1)).map fun stack =>
        { m with cidx := m.cidx + 1, cv := m.keyw, blocks := 0, tail := [], stack := stack }
  else
    (compressCv m.cv m.tail m.cidx 64 (midChunkFlags m)).map fun cv =>
      { m with cv := cv, blocks := m.blocks + 1, tail := [] }

/-- The loop body before bytes are taken: flush a full held block (42_blake3_tree.md R183). -/
def b3MakeRoom (m : B3State) : Traced B3State :=
  if m.tail.length = 64 then b3Flush m else .pure m

/-- The loop of ABSORB, class `B3` (42_blake3_tree.md R183); the first number bounds the rounds, each
of which takes at least one byte. -/
def b3AbsorbLoop : Nat → B3State → List Byte → Traced B3State
  | 0, m, _ => .pure m
  | fuel + 1, m, data =>
    if data.length = 0 then .pure m
    else
      (b3MakeRoom m).bind fun m' =>
        let take := min (64 - m'.tail.length) data.length
        b3AbsorbLoop fuel { m' with tail := m'.tail ++ data.take take } (data.drop take)

/-- ABSORB, class `B3` (42_blake3_tree.md R183). -/
def b3Absorb (m : B3State) (data : List Byte) : Traced B3State := b3AbsorbLoop data.length m data

/-- The last merge is the root (42_blake3_tree.md R190 b). -/
def parentRoot (keyw : ChainVal) (base : BitVec 7) (left right : ChainVal) : RootD where
  rcv := keyw
  rblock := leWords left.toList ++ leWords right.toList
  rblen := 64
  rflags := parentFlags base ||| ROOT

/-- The merges of FINALIZE from the most recent entry to the oldest (42_blake3_tree.md R188); `older`
lists the entries still below, most recent first, and the last of them is the root's left child. -/
def finalMerges (keyw : ChainVal) (base : BitVec 7) : ChainVal → List ChainVal → ChainVal → Traced RootD
  | left, [], cv => .pure (parentRoot keyw base left cv)
  | left, older :: rest, cv =>
    (parentCv keyw base left cv).bind fun cv' => finalMerges keyw base older rest cv'

/-- The root descriptor that FINALIZE forms (42_blake3_tree.md R188 to R190). -/
def b3Root (m : B3State) : Traced RootD :=
  let blk := zpad m.tail 64
  match m.stack with
  | [] => .pure ⟨m.cv, blk, m.tail.length, endChunkFlags m ||| ROOT⟩
  | left :: older =>
    (compressCv m.cv blk m.cidx m.tail.length (endChunkFlags m)).bind fun cv =>
      finalMerges m.keyw m.base left older cv

/-- `b3_out(j)`, output block `j`: 64 bytes (44_xof_adapter.md R251). -/
def b3Out (r : RootD) (j : Nat) : Traced (List Byte) :=
  (compressB3 r.rcv r.rblock j r.rblen r.rflags).map fun out => leWords out.toList

/-- `n` bytes of the output stream from position `p` (44_xof_adapter.md R251). -/
def b3Read (r : RootD) (p n : Nat) : Traced (List Byte) := readBlocks 64 (b3Out r) n p n

end Sys2Proof.Machine
end

