-- ==== Sys2Proof/Machine/Incremental.lean ====
section
/-! DEFINITION. The Incremental Hasher (41_incremental_hasher.md): absorption and finalization of the
classes MD and SPONGE and of BLAKE2 instances. -/

namespace Sys2Proof.Machine

/-! ### Class MD -/

/-- ABSORB, class `MD` (41_incremental_hasher.md R135). -/
def mdAbsorb (a : MdAlg) (m : MdState a) (data : List Byte) : Traced (MdState a) :=
  (absorbEager (mdBlock a) (fun h blk => compress a.prim h blk 0 0 0) m.h (m.tail ++ data)).map
    fun r => { m with h := r.1, tail := r.2 }

/-- `k` of 41_incremental_hasher.md R137: the zero bytes between the marker and the length field. -/
def mdZeroFill (a : MdAlg) (t : List Byte) : Nat :=
  (mdBlock a - (t.length + 1 + mdLengthField a) % mdBlock a) % mdBlock a

/-- `L` of 41_incremental_hasher.md R137: the length of the message in bits. -/
def mdLengthBytes (a : MdAlg) (n : Nat) : List Byte :=
  if mdLittle a then leBytes (mdLengthField a) (8 * n) else beBytes (mdLengthField a) (8 * n)

/-- `mdpad(t, n)` (41_incremental_hasher.md R137). -/
def mdPad (a : MdAlg) (t : List Byte) (n : Nat) : List Byte :=
  t ++ [0x80] ++ zeros (mdZeroFill a t) ++ mdLengthBytes a n

/-- The native digest (41_incremental_hasher.md R139, 20_memory.md R65). -/
def mdReadout (a : MdAlg) (h : HashState a.prim) : List Byte :=
  if mdLittle a then leWords h.toList else beWords h.toList

/-- FINALIZE, class `MD` (41_incremental_hasher.md R136): compress the padded tail. -/
def mdFinalize (a : MdAlg) (m : MdState a) (total : Nat) : Traced (MdState a) :=
  let padded := mdPad a m.tail total
  (absorbBlocks (mdBlock a) (fun h blk => compress a.prim h blk 0 0 0)
      (padded.length / mdBlock a) m.h padded).map
    fun r => { m with h := r.1 }

/-! ### BLAKE2 instances -/

/-- `trunc_{2W}(T)` (41_incremental_hasher.md R146, R150). -/
def b2Counter (p : B2Prim) (t : Nat) : Nat := t % 2 ^ (2 * p.prim.width)

/-- One non-final block: `T <- T + B`, then the transaction with flags 0
(41_incremental_hasher.md R146). -/
def b2Step (p : B2Prim) (ht : HashState p.prim × Nat) (blk : List Byte) :
    Traced (HashState p.prim × Nat) :=
  let t := ht.2 + b2Block p
  (compress p.prim ht.1 blk (b2Counter p t) 0 0).map fun h => (h, t)

/-- `b2_absorb(I, data)` (41_incremental_hasher.md R146). -/
def b2Absorb (p : B2Prim) (m : B2Inst p) (data : List Byte) : Traced (B2Inst p) :=
  (absorbLazy (b2Block p) (b2Step p) (m.h, m.t) (m.tail ++ data)).map
    fun r => { m with h := r.1.1, t := r.1.2, tail := r.2 }

/-- `b2_finalize(I, n)` (41_incremental_hasher.md R147): the instance after it and its `n` bytes. -/
def b2Finalize (p : B2Prim) (m : B2Inst p) (n : Nat) : Traced (B2Inst p × List Byte) :=
  let t := m.t + m.tail.length
  (compress p.prim m.h (zpad m.tail (b2Block p)) (b2Counter p t) 0 (finalFlags m.lastNode)).map
    fun h => ({ m with h := h, t := t }, (leWords h.toList).take n)

/-! ### Class SPONGE -/

/-- ABSORB, class `SPONGE` (41_incremental_hasher.md R157). -/
def spongeAbsorb (a : SpongeAlg) (m : SpongeState) (data : List Byte) : Traced SpongeState :=
  (absorbEager (rate a) (fun s blk => compress .keccak s blk 0 0 0) m.s (m.tail ++ data)).map
    fun r => { s := r.1, tail := r.2 }

/-- The padded last block (41_incremental_hasher.md R158). -/
def spongePad (a : SpongeAlg) (tail : List Byte) : List Byte :=
  ((zpad tail (rate a)).modify tail.length (· ^^^ suffix a)).modify (rate a - 1) (· ^^^ 0x80)

/-- The absorbing transaction of FINALIZE, class `SPONGE` (41_incremental_hasher.md R158). -/
def spongeFinalize (a : SpongeAlg) (m : SpongeState) : Traced SpongeState :=
  (compress .keccak m.s (spongePad a m.tail) 0 0 0).map fun s => { m with s := s }

/-- What a squeeze produces: the bytes, the squeeze state and the cursor after it. -/
structure Squeezed where
  out : List Byte
  s : HashState .keccak
  xpos : Nat

/-- The bare permutation, when the buffer is exhausted (44_xof_adapter.md R248). -/
def spongePermute (a : SpongeAlg) (s : HashState .keccak) (xpos : Nat) :
    Traced (HashState .keccak) :=
  if 0 < xpos ∧ xpos % rate a = 0 then compress .keccak s (zeros (rate a)) 0 0 0 else .pure s

/-- The loop of `sponge_squeeze` (44_xof_adapter.md R248); the first number bounds the rounds, each
of which takes at least one byte. -/
def squeezeLoop (a : SpongeAlg) : Nat → HashState .keccak → Nat → Nat → Traced Squeezed
  | 0, s, xpos, _ => .pure ⟨[], s, xpos⟩
  | fuel + 1, s, xpos, n =>
    if n = 0 then .pure ⟨[], s, xpos⟩
    else
      let off := xpos % rate a
      let take := min (rate a - off) n
      (spongePermute a s xpos).bind fun s' =>
        (squeezeLoop a fuel s' (xpos + take) (n - take)).map fun r =>
          { r with out := ((leWords s'.toList).drop off).take take ++ r.out }

/-- `sponge_squeeze(n)` (44_xof_adapter.md R248). -/
def spongeSqueeze (a : SpongeAlg) (s : HashState .keccak) (xpos n : Nat) : Traced Squeezed :=
  squeezeLoop a n s xpos n

end Sys2Proof.Machine
end

