-- ==== Sys2Proof/Machine/Combiner.lean ====
section
/-! DEFINITION. The Parallel Tree Combiner (43_parallel_combiner.md): classes BLAKE2bp and
BLAKE2sp. -/

namespace Sys2Proof.Machine

/-- The leaf that the message byte at position `total` goes to (43_parallel_combiner.md R221). -/
def leafIndex (p : B2Prim) (total : Nat) : Fin p.nleaf :=
  ⟨(total / b2Block p) % p.nleaf, Nat.mod_lt _ (by cases p <;> decide)⟩

/-- The loop of ABSORB, class `B2P` (43_parallel_combiner.md R221): each round gives the rest of the
current slice, or of the data, to its leaf. The first number bounds the rounds, each of which takes
at least one byte. -/
def b2pAbsorbLoop (p : B2Prim) :
    Nat → Nat → Vector (B2Inst p) p.nleaf → List Byte → Traced (Vector (B2Inst p) p.nleaf)
  | 0, _, leaf, _ => .pure leaf
  | fuel + 1, total, leaf, data =>
    if data.length = 0 then .pure leaf
    else
      let k := leafIndex p total
      let take := min (b2Block p - total % b2Block p) data.length
      (b2Absorb p leaf[k] (data.take take)).bind fun l =>
        b2pAbsorbLoop p fuel (total + take) (leaf.set k l) (data.drop take)

/-- ABSORB, class `B2P` (43_parallel_combiner.md R221); `total` is `TOTAL` before it. -/
def b2pAbsorb (p : B2Prim) (m : B2PState p) (total : Nat) (data : List Byte) :
    Traced (B2PState p) :=
  (b2pAbsorbLoop p data.length total m.leaf data).map fun leaf => { m with leaf := leaf }

/-- After an odd leaf the root absorbs the pair's digests (43_parallel_combiner.md R223, R224). -/
def feedRoot (p : B2Prim) (k : Nat) (root : B2Inst p) (prev d : List Byte) : Traced (B2Inst p) :=
  if k % 2 = 1 then b2Absorb p root (prev ++ d) else .pure root

/-- The loop of FINALIZE, class `B2P` (43_parallel_combiner.md R224): leaf `k` is sealed at full
width and, after every odd `k`, the pair is fed to the root. The first number is how many leaves
are left, `prev` the digest of leaf `k − 1`. -/
def b2pSealLoop (p : B2Prim) :
    Nat → Nat → Vector (B2Inst p) p.nleaf → List Byte → B2Inst p → Traced (B2PState p)
  | 0, _, leaf, _, root => .pure ⟨leaf, root⟩
  | left + 1, k, leaf, prev, root =>
    if h : k < p.nleaf then
      (b2Finalize p leaf[k] (b2Out p)).bind fun ld =>
        (feedRoot p k root prev ld.2).bind fun root' =>
          b2pSealLoop p left (k + 1) (leaf.set k ld.1) ld.2 root'
    else .pure ⟨leaf, root⟩

/-- FINALIZE, class `B2P` (43_parallel_combiner.md R224): the state after it and the `n` bytes of the
root. -/
def b2pFinalize (p : B2Prim) (m : B2PState p) (n : Nat) : Traced (B2PState p × List Byte) :=
  (b2pSealLoop p p.nleaf 0 m.leaf [] m.root).bind fun m' =>
    (b2Finalize p m'.root n).map fun rd => ({ m' with root := rd.1 }, rd.2)

end Sys2Proof.Machine
end

