-- ==== Sys2Proof/Machine/Xof.lean ====
section
/-! DEFINITION. The XOF Adapter (44_xof_adapter.md): BLAKE2X expansion blocks and the readers of the
three mechanisms. -/

namespace Sys2Proof.Machine

/-! ### BLAKE2X expansion -/

/-- `osz`, the size of expansion block `b` (44_xof_adapter.md R258). -/
def b2xBlockSize (p : B2Prim) (xof : Bool) (xlen b : Nat) : Nat :=
  if xof then b2Out p else min (b2Out p) (xlen - b2Out p * b)

/-- The parameter block of expansion block `b` (44_xof_adapter.md R258, log 17). -/
def b2xParams (p : B2Prim) (xof : Bool) (xlen : Nat) (saltp : List Byte) (b : Nat) : B2Params where
  digestLength := b2xBlockSize p xof xlen b
  keyLength := 0
  fanout := 0
  depth := 0
  leafLength := b2Out p
  nodeOffset := b
  xofLength := xlen
  nodeDepth := 0
  innerLength := b2Out p
  saltpers := saltp

/-- `b2x_block(b)` (44_xof_adapter.md R258): one transaction. -/
def b2xBlock (p : B2Prim) (xof : Bool) (m : B2XState p) (h0 : List Byte) (b : Nat) :
    Traced (List Byte) :=
  (compress p.prim (b2Init p (b2xParams p xof m.xlen m.saltp b)) (zpad h0 (b2Block p)) (b2Out p) 0
      FINAL_BLOCK).map
    fun h => (leWords h.toList).take (b2xBlockSize p xof m.xlen b)

/-- `b2x_read(p, n)` (44_xof_adapter.md R261); the block index is reduced to 32 bits. -/
def b2xRead (p : B2Prim) (xof : Bool) (m : B2XState p) (h0 : List Byte) (pos n : Nat) :
    Traced (List Byte) :=
  readBlocks (b2Out p) (fun j => b2xBlock p xof m h0 (j % 2 ^ 32)) n pos n

/-! ### Readers on a sealed class state -/

/-- What a reader operation leaves: the bytes, the control fields, the class state. -/
structure Reading where
  out : List Byte
  ctl : Ctl
  z : Sealed

/-- XOF_READ after the reader check, for `LEN > 0` (44_xof_adapter.md R243). A class without an XOF
mechanism has no reader: the case cannot arise, and answers as R242 (log 16). `ceil` is the instance's
`B3_CEIL`, here and below. -/
def readSealed (ceil : Nat) (ctl : Ctl) (z : Sealed) (len : Nat) : Except Status (Traced Reading) :=
  match z with
  | .sponge a m =>
    .ok ((spongeSqueeze a m.s ctl.xpos len).map fun r =>
      ⟨r.out, { ctl with xpos := r.xpos }, .sponge a { m with s := r.s }⟩)
  | .b3 a m rootd =>
    if ceil < ctl.xpos + len then .error .unsupportedLength
    else .ok ((b3Read rootd ctl.xpos len).map fun out =>
      ⟨out, { ctl with xpos := ctl.xpos + len }, .b3 a m rootd⟩)
  | .b2x p m h0 =>
    .ok ((b2xRead p ctl.xof m h0 ctl.xpos len).map fun out =>
      ⟨out, { ctl with xpos := (ctl.xpos + len) % b2xPeriod p }, .b2x p m h0⟩)
  | .md _ _ => .error .sequenceError
  | .b2 _ _ => .error .sequenceError
  | .b2p _ _ => .error .sequenceError

/-- XOF_SEEK after the reader check (44_xof_adapter.md R244). -/
def seekSealed (ceil : Nat) (ctl : Ctl) (z : Sealed) (pos : Nat) : Except Status (Traced Reading) :=
  match z with
  | .sponge a m =>
    if pos < ctl.xpos then .error .sequenceError
    else .ok ((spongeSqueeze a m.s ctl.xpos (pos - ctl.xpos)).map fun r =>
      ⟨[], { ctl with xpos := r.xpos }, .sponge a { m with s := r.s }⟩)
  | .b3 a m rootd =>
    if ceil < pos then .error .unsupportedLength
    else .ok (.pure ⟨[], { ctl with xpos := pos }, .b3 a m rootd⟩)
  | .b2x p m h0 => .ok (.pure ⟨[], { ctl with xpos := pos % b2xPeriod p }, .b2x p m h0⟩)
  | .md _ _ => .error .sequenceError
  | .b2 _ _ => .error .sequenceError
  | .b2p _ _ => .error .sequenceError

/-- The checks of XOF_READ_AT, for `LEN > 0`, all before any state changes (44_xof_adapter.md
R245). -/
def readAtCheck (ceil : Nat) (ctl : Ctl) (z : Sealed) (pos len : Nat) : Except Status Unit :=
  match z with
  | .sponge _ _ => if pos < ctl.xpos then .error .sequenceError else .ok ()
  | .b3 _ _ _ =>
    if ceil < pos ∨ ceil < pos + len then .error .unsupportedLength else .ok ()
  | .b2x _ _ _ => .ok ()
  | .md _ _ => .error .sequenceError
  | .b2 _ _ => .error .sequenceError
  | .b2p _ _ => .error .sequenceError

/-! ### The output stream `XOUT[c]` (44_xof_adapter.md R241) -/

/-- `S_j`: `j` bare permutations after the padding transaction (44_xof_adapter.md R247). -/
def spongeState (a : SpongeAlg) (s0 : HashState .keccak) : Nat → HashState .keccak
  | 0 => s0
  | j + 1 => Config.compress .keccak (spongeState a s0 j) (zeros (rate a)) 0 0 0

/-- Byte `p` of the output stream of a sponge whose state after FINALIZE is `s0`
(44_xof_adapter.md R247). -/
def spongeXout (a : SpongeAlg) (s0 : HashState .keccak) (p : Nat) : Byte :=
  (leWords (spongeState a s0 (p / rate a)).toList).getD (p % rate a) 0

/-- Byte `p` of the output stream of a `B3` context (44_xof_adapter.md R251). -/
def b3Xout (r : RootD) (p : Nat) : Byte := (b3Out r (p / 64)).val.getD (p % 64) 0

/-- Byte `p` of the output stream of a `B2X` context (44_xof_adapter.md R259, R260). -/
def b2xXout (q : B2Prim) (xof : Bool) (m : B2XState q) (h0 : List Byte) (p : Nat) : Byte :=
  (b2xBlock q xof m h0 ((p / b2Out q) % 2 ^ 32)).val.getD (p % b2Out q) 0

end Sys2Proof.Machine
end

