-- ==== Sys2Proof/Machine/Keying.lean ====
section
/-! DEFINITION. NEW (45_keying_construction.md): the creation values of every class and the 22 NEW
commands. -/

namespace Sys2Proof.Machine

/-- The value of `DLEN` for an operand: the default where it is 0 (45_keying_construction.md R284). -/
def dlenOr (default dlen : Nat) : Nat := if dlen = 0 then default else dlen

/-- The control fields every NEW writes (45_keying_construction.md R296). -/
def newCtl (xof : Bool) (dlen : Nat) : Ctl where
  xof := xof
  dlen := dlen
  total := 0
  xpos := 0

/-- What NEW builds: the control fields and the class state. -/
structure Created where
  ctl : Ctl
  h : Hasher

/-- Creation values, class `MD` (45_keying_construction.md R286); NEW gives the unused positions of `H` no
value, and they hold any (log 7). -/
def createMd (a : MdAlg) (xof : Bool) (dlen : Nat) : Created where
  ctl := newCtl xof (dlenOr (mdDlen a) dlen)
  h := .md a { h := Config.ivMd a, unused := Config.unusedWords a, tail := [] }

/-- Creation values, class `SPONGE` (45_keying_construction.md R287). -/
def createSponge (a : SpongeAlg) (xof : Bool) (dlen : Nat) : Created where
  ctl := newCtl xof (dlenOr (spongeDlen a) dlen)
  h := .sponge a { s := Config.ivKeccak, tail := [] }

/-- The parameter block of a sequential BLAKE2 (45_keying_construction.md R289, R295). -/
def seqParams (digestLength keyLength xofLength : Nat) (saltpers : List Byte) : B2Params where
  digestLength := digestLength
  keyLength := keyLength
  fanout := 1
  depth := 1
  leafLength := 0
  nodeOffset := 0
  xofLength := xofLength
  nodeDepth := 0
  innerLength := 0
  saltpers := saltpers

/-- The parameter block of a node of the parallel combiner (45_keying_construction.md R290). -/
def treeParams (p : B2Prim) (digestLength keyLength nodeOffset nodeDepth : Nat)
    (saltpers : List Byte) : B2Params where
  digestLength := digestLength
  keyLength := keyLength
  fanout := p.nleaf
  depth := 2
  leafLength := 0
  nodeOffset := nodeOffset
  xofLength := 0
  nodeDepth := nodeDepth
  innerLength := b2Out p
  saltpers := saltpers

/-- A fresh instance (45_keying_construction.md R289). -/
def b2Fresh (p : B2Prim) (f : B2Params) (tail : List Byte) (lastNode : Bool) : B2Inst p where
  h := b2Init p f
  t := 0
  tail := tail
  lastNode := lastNode

/-- `zpad(salt, OB/2)` (45_keying_construction.md R289, R297). -/
def saltPers (p : B2Prim) (salt : List Byte) : List Byte := zpad salt (b2Out p / 2)

/-- Creation values, class `B2` (45_keying_construction.md R289). -/
def createB2 (p : B2Prim) (xof : Bool) (dlen : Nat) (key salt : List Byte) : Created where
  ctl := newCtl xof (dlenOr (b2Out p) dlen)
  h := .b2 p (b2Fresh p (seqParams (dlenOr (b2Out p) dlen) key.length 0 (saltPers p salt))
    (keyBlock p key) false)

/-- `LEAF[k]` as NEW creates it (45_keying_construction.md R290, R291). -/
def freshLeaf (p : B2Prim) (dl : Nat) (key salt : List Byte) (k : Nat) : B2Inst p :=
  b2Fresh p (treeParams p dl key.length k 0 (saltPers p salt)) (keyBlock p key)
    (decide (k = p.nleaf - 1))

/-- `ROOT` as NEW creates it (45_keying_construction.md R290, R291). -/
def freshRoot (p : B2Prim) (dl : Nat) (key salt : List Byte) : B2Inst p :=
  b2Fresh p (treeParams p dl key.length 0 1 (saltPers p salt)) [] true

/-- Creation values, class `B2P` (45_keying_construction.md R290, R291). -/
def createB2p (p : B2Prim) (xof : Bool) (dlen : Nat) (key salt : List Byte) : Created where
  ctl := newCtl xof (dlenOr (b2Out p) dlen)
  h := .b2p p
    { leaf := ⟨⟨(List.range p.nleaf).map (freshLeaf p (dlenOr (b2Out p) dlen) key salt)⟩, by simp⟩
      root := freshRoot p (dlenOr (b2Out p) dlen) key salt }

/-- `XLEN` (45_keying_construction.md R295). -/
def newXlen (p : B2Prim) (xof : Bool) (dlen : Nat) : Nat := if xof then xlenSent p else dlen

/-- Creation values, class `B2X` (45_keying_construction.md R295). -/
def createB2x (p : B2Prim) (xof : Bool) (dlen : Nat) (key salt : List Byte) : Created where
  ctl := newCtl xof dlen
  h := .b2x p
    { inst := b2Fresh p (seqParams (b2Out p) key.length (newXlen p xof dlen) (saltPers p salt))
        (keyBlock p key) false
      xlen := newXlen p xof dlen
      saltp := saltPers p salt }

/-- `DLEN` of class `B3` (45_keying_construction.md R296). -/
def b3Ctl (xof : Bool) (dlen : Nat) : Ctl := newCtl xof (dlenOr 32 dlen)

/-- The words of a 32-byte sequence (20_memory.md R67). -/
def keyWords (bs : List Byte) : ChainVal := lewVec (Prim.width .b3) (Prim.words .b3) bs

/-- Creation values of BLAKE3, plain or keyed (45_keying_construction.md R292, R293). -/
def createBlake3 (xof : Bool) (dlen : Nat) (key : List Byte) : Created where
  ctl := b3Ctl xof dlen
  h := .b3 .blake3
    (if key.length = 0 then b3Fresh Config.ivB3 0 else b3Fresh (keyWords (zpad key 32)) KEYED_HASH)

/-- Stage 1 of derive-key: the 32 bytes `ck` from the context string, hashed by a temporary engine
(45_keying_construction.md R294). -/
def deriveStage1 (context : List Byte) : Traced (List Byte) :=
  (b3Absorb (b3Fresh Config.ivB3 DERIVE_KEY_CONTEXT) context).bind fun e =>
    (b3Root e).bind fun rootd => (b3Out rootd 0).map fun out => out.take 32

/-- Creation values of BLAKE3_DERIVE_KEY (45_keying_construction.md R294). -/
def createDeriveKey (xof : Bool) (dlen : Nat) (key : List Byte) : Traced Created :=
  (deriveStage1 key).map fun ck =>
    { ctl := b3Ctl xof dlen, h := .b3 .deriveKey (b3Fresh (keyWords ck) DERIVE_KEY_MATERIAL) }

/-- What NEW builds for each algorithm (45_keying_construction.md R286 to R296). -/
def create (a : Alg) (xof : Bool) (dlen : Nat) (key salt : List Byte) : Traced Created :=
  match a with
  | .md a => .pure (createMd a xof dlen)
  | .sponge a => .pure (createSponge a xof dlen)
  | .b2 p => .pure (createB2 p xof dlen key salt)
  | .b2p p => .pure (createB2p p xof dlen key salt)
  | .b2x p => .pure (createB2x p xof dlen key salt)
  | .b3 .blake3 => .pure (createBlake3 xof dlen key)
  | .b3 .deriveKey => createDeriveKey xof dlen key

/-- NEW on a slot, whatever it holds (45_keying_construction.md R281): validate, then build and
replace. `ceil` is the instance's `B3_CEIL`. -/
def newCmd (ceil : Nat) (a : Alg) (xof : Bool) (dlen : BitVec 64) (key salt : List Byte) (_old : Slot) :
    Except Status Result :=
  match newCheck ceil a xof dlen.toNat key.length salt.length with
  | .error e => .error e
  | .ok _ =>
    let r := create a xof dlen.toNat key salt
    .ok { slot := .absorbing r.val.ctl r.val.h, payload := [], txs := r.txs }

/-! ### The 22 NEW commands -/

/-- NEW.MD5 (45_keying_construction.md R286). -/
def execNewMd5 (c : BitVec 4) (xof : Bool) (dlen : BitVec 64) (key salt : List Byte) (s : State) :
    StepOutcome := runOn c (newCmd s.params.b3Ceil (.md .md5) xof dlen key salt) s

/-- NEW.SHA1 (R286). -/
def execNewSha1 (c : BitVec 4) (xof : Bool) (dlen : BitVec 64) (key salt : List Byte) (s : State) :
    StepOutcome := runOn c (newCmd s.params.b3Ceil (.md .sha1) xof dlen key salt) s

/-- NEW.SHA224 (R286). -/
def execNewSha224 (c : BitVec 4) (xof : Bool) (dlen : BitVec 64) (key salt : List Byte) (s : State) :
    StepOutcome := runOn c (newCmd s.params.b3Ceil (.md .sha224) xof dlen key salt) s

/-- NEW.SHA256 (R286). -/
def execNewSha256 (c : BitVec 4) (xof : Bool) (dlen : BitVec 64) (key salt : List Byte) (s : State) :
    StepOutcome := runOn c (newCmd s.params.b3Ceil (.md .sha256) xof dlen key salt) s

/-- NEW.SHA384 (R286). -/
def execNewSha384 (c : BitVec 4) (xof : Bool) (dlen : BitVec 64) (key salt : List Byte) (s : State) :
    StepOutcome := runOn c (newCmd s.params.b3Ceil (.md .sha384) xof dlen key salt) s

/-- NEW.SHA512 (R286). -/
def execNewSha512 (c : BitVec 4) (xof : Bool) (dlen : BitVec 64) (key salt : List Byte) (s : State) :
    StepOutcome := runOn c (newCmd s.params.b3Ceil (.md .sha512) xof dlen key salt) s

/-- NEW.SHA512_224 (R286). -/
def execNewSha512_224 (c : BitVec 4) (xof : Bool) (dlen : BitVec 64) (key salt : List Byte)
    (s : State) : StepOutcome := runOn c (newCmd s.params.b3Ceil (.md .sha512_224) xof dlen key salt) s

/-- NEW.SHA512_256 (R286). -/
def execNewSha512_256 (c : BitVec 4) (xof : Bool) (dlen : BitVec 64) (key salt : List Byte)
    (s : State) : StepOutcome := runOn c (newCmd s.params.b3Ceil (.md .sha512_256) xof dlen key salt) s

/-- NEW.SHA3_224 (R287). -/
def execNewSha3_224 (c : BitVec 4) (xof : Bool) (dlen : BitVec 64) (key salt : List Byte)
    (s : State) : StepOutcome := runOn c (newCmd s.params.b3Ceil (.sponge .sha3_224) xof dlen key salt) s

/-- NEW.SHA3_256 (R287). -/
def execNewSha3_256 (c : BitVec 4) (xof : Bool) (dlen : BitVec 64) (key salt : List Byte)
    (s : State) : StepOutcome := runOn c (newCmd s.params.b3Ceil (.sponge .sha3_256) xof dlen key salt) s

/-- NEW.SHA3_384 (R287). -/
def execNewSha3_384 (c : BitVec 4) (xof : Bool) (dlen : BitVec 64) (key salt : List Byte)
    (s : State) : StepOutcome := runOn c (newCmd s.params.b3Ceil (.sponge .sha3_384) xof dlen key salt) s

/-- NEW.SHA3_512 (R287). -/
def execNewSha3_512 (c : BitVec 4) (xof : Bool) (dlen : BitVec 64) (key salt : List Byte)
    (s : State) : StepOutcome := runOn c (newCmd s.params.b3Ceil (.sponge .sha3_512) xof dlen key salt) s

/-- NEW.SHAKE128 (R287). -/
def execNewShake128 (c : BitVec 4) (xof : Bool) (dlen : BitVec 64) (key salt : List Byte)
    (s : State) : StepOutcome := runOn c (newCmd s.params.b3Ceil (.sponge .shake128) xof dlen key salt) s

/-- NEW.SHAKE256 (R287). -/
def execNewShake256 (c : BitVec 4) (xof : Bool) (dlen : BitVec 64) (key salt : List Byte)
    (s : State) : StepOutcome := runOn c (newCmd s.params.b3Ceil (.sponge .shake256) xof dlen key salt) s

/-- NEW.BLAKE2B (R289). -/
def execNewBlake2b (c : BitVec 4) (xof : Bool) (dlen : BitVec 64) (key salt : List Byte)
    (s : State) : StepOutcome := runOn c (newCmd s.params.b3Ceil (.b2 .b2b) xof dlen key salt) s

/-- NEW.BLAKE2S (R289). -/
def execNewBlake2s (c : BitVec 4) (xof : Bool) (dlen : BitVec 64) (key salt : List Byte)
    (s : State) : StepOutcome := runOn c (newCmd s.params.b3Ceil (.b2 .b2s) xof dlen key salt) s

/-- NEW.BLAKE2BP (R290, R291). -/
def execNewBlake2bp (c : BitVec 4) (xof : Bool) (dlen : BitVec 64) (key salt : List Byte)
    (s : State) : StepOutcome := runOn c (newCmd s.params.b3Ceil (.b2p .b2b) xof dlen key salt) s

/-- NEW.BLAKE2SP (R290, R291). -/
def execNewBlake2sp (c : BitVec 4) (xof : Bool) (dlen : BitVec 64) (key salt : List Byte)
    (s : State) : StepOutcome := runOn c (newCmd s.params.b3Ceil (.b2p .b2s) xof dlen key salt) s

/-- NEW.BLAKE2XB (R295). -/
def execNewBlake2xb (c : BitVec 4) (xof : Bool) (dlen : BitVec 64) (key salt : List Byte)
    (s : State) : StepOutcome := runOn c (newCmd s.params.b3Ceil (.b2x .b2b) xof dlen key salt) s

/-- NEW.BLAKE2XS (R295). -/
def execNewBlake2xs (c : BitVec 4) (xof : Bool) (dlen : BitVec 64) (key salt : List Byte)
    (s : State) : StepOutcome := runOn c (newCmd s.params.b3Ceil (.b2x .b2s) xof dlen key salt) s

/-- NEW.BLAKE3 (R292, R293). -/
def execNewBlake3 (c : BitVec 4) (xof : Bool) (dlen : BitVec 64) (key salt : List Byte)
    (s : State) : StepOutcome := runOn c (newCmd s.params.b3Ceil (.b3 .blake3) xof dlen key salt) s

/-- NEW.BLAKE3_DERIVE_KEY (R294). -/
def execNewBlake3DeriveKey (c : BitVec 4) (xof : Bool) (dlen : BitVec 64) (key salt : List Byte)
    (s : State) : StepOutcome := runOn c (newCmd s.params.b3Ceil (.b3 .deriveKey) xof dlen key salt) s

end Sys2Proof.Machine
end

