-- ==== Sys2Proof/Machine/Commands.lean ====
section
/-! DEFINITION. ABSORB, FINALIZE, XOF_READ, XOF_SEEK and XOF_READ_AT (41_incremental_hasher.md R130,
R132; 44_xof_adapter.md R242 to R245). -/

namespace Sys2Proof.Machine

/-! ### ABSORB -/

/-- The class form of ABSORB (41_incremental_hasher.md R130); `total` is `TOTAL` before it. -/
def absorbClass (total : Nat) (h : Hasher) (data : List Byte) : Traced Hasher :=
  match h with
  | .md a m => (mdAbsorb a m data).map (.md a)
  | .sponge a m => (spongeAbsorb a m data).map (.sponge a)
  | .b2 p m => (b2Absorb p m data).map (.b2 p)
  | .b2p p m => (b2pAbsorb p m total data).map (.b2p p)
  | .b2x p m => (b2Absorb p m.inst data).map fun inst => .b2x p { m with inst := inst }
  | .b3 a m => (b3Absorb m data).map (.b3 a)

/-- ABSORB on a slot (41_incremental_hasher.md R130); every class form adds `LEN` to `TOTAL`. -/
def absorbCmd (data : List Byte) (slot : Slot) : Except Status Result :=
  match slot with
  | .absorbing ctl h =>
    let r := absorbClass ctl.total h data
    .ok { slot := .absorbing { ctl with total := ctl.total + data.length } r.val
          payload := []
          txs := r.txs }
  | .free => .error .sequenceError
  | .sealed _ _ _ => .error .sequenceError

/-- ABSORB. -/
def execAbsorb (c : BitVec 4) (data : List Byte) (s : State) : StepOutcome :=
  runOn c (absorbCmd data) s

/-! ### FINALIZE -/

/-- What sealing leaves: `DIGEST` and the class state. -/
structure SealedWith where
  digest : List Byte
  z : Sealed

/-- `DIGEST`: computed where `XOF = 0`, not given a value where `XOF = 1` (41_incremental_hasher.md
R132, log 6). -/
def digestUnless (xof : Bool) (d : Traced (List Byte)) : Traced (List Byte) :=
  if xof then .pure [] else d

/-- FINALIZE, class `SPONGE` (41_incremental_hasher.md R158): the padding transaction, then, where
`XOF = 0`, the squeeze of the digest from position 0. -/
def sealSponge (a : SpongeAlg) (ctl : Ctl) (m : SpongeState) : Traced SealedWith :=
  (spongeFinalize a m).bind fun m' =>
    if ctl.xof then .pure ⟨[], .sponge a m'⟩
    else (spongeSqueeze a m'.s 0 ctl.dlen).map fun r => ⟨r.out, .sponge a { m' with s := r.s }⟩

/-- FINALIZE, class `B2X` (44_xof_adapter.md R257). -/
def sealB2x (p : B2Prim) (ctl : Ctl) (m : B2XState p) : Traced SealedWith :=
  (b2Finalize p m.inst (b2Out p)).bind fun ih =>
    let m' : B2XState p := { m with inst := ih.1 }
    (digestUnless ctl.xof (b2xRead p ctl.xof m' ih.2 0 ctl.dlen)).map fun d =>
      ⟨d, .b2x p m' ih.2⟩

/-- FINALIZE, class `B3` (42_blake3_tree.md R188): the root descriptor, the stack consumed, then,
where `XOF = 0`, the output blocks of the digest. -/
def sealB3 (a : B3Alg) (ctl : Ctl) (m : B3State) : Traced SealedWith :=
  (b3Root m).bind fun rootd =>
    (digestUnless ctl.xof (b3Read rootd 0 ctl.dlen)).map fun d =>
      ⟨d, .b3 a { m with stack := [] } rootd⟩

/-- The class finalization (41_incremental_hasher.md R132, R136, R149, 43_parallel_combiner.md
R224). -/
def sealClass (ctl : Ctl) (h : Hasher) : Traced SealedWith :=
  match h with
  | .md a m => (mdFinalize a m ctl.total).map fun m' => ⟨(mdReadout a m'.h).take ctl.dlen, .md a m'⟩
  | .sponge a m => sealSponge a ctl m
  | .b2 p m => (b2Finalize p m ctl.dlen).map fun r => ⟨r.2, .b2 p r.1⟩
  | .b2p p m => (b2pFinalize p m ctl.dlen).map fun r => ⟨r.2, .b2p p r.1⟩
  | .b2x p m => sealB2x p ctl m
  | .b3 a m => sealB3 a ctl m

/-- The payload of FINALIZE's response (30_encoding.md R101, 41_incremental_hasher.md R132). -/
def finalPayload (xof : Bool) (digest : List Byte) : List Byte := if xof then [] else digest

/-- FINALIZE on a slot (41_incremental_hasher.md R132). -/
def finalizeCmd (slot : Slot) : Except Status Result :=
  match slot with
  | .free => .error .sequenceError
  | .sealed ctl digest z =>
    .ok { slot := .sealed ctl digest z, payload := finalPayload ctl.xof digest, txs := [] }
  | .absorbing ctl h =>
    let r := sealClass ctl h
    .ok { slot := .sealed { ctl with xpos := 0 } r.val.digest r.val.z
          payload := finalPayload ctl.xof r.val.digest
          txs := r.txs }

/-- FINALIZE. -/
def execFinalize (c : BitVec 4) (s : State) : StepOutcome := runOn c finalizeCmd s

/-! ### The reader commands -/

/-- A reader command on a slot: the reader check (44_xof_adapter.md R242), then `f` on the sealed
context. -/
def readerCmd (f : Ctl → List Byte → Sealed → Except Status Result) (slot : Slot) :
    Except Status Result :=
  match slot with
  | .sealed ctl digest z => if ctl.xof then f ctl digest z else .error .sequenceError
  | .free => .error .sequenceError
  | .absorbing _ _ => .error .sequenceError

/-- Nothing changes and the response is empty (44_xof_adapter.md R243, R245 for `LEN = 0`). -/
def emptyReading (ctl : Ctl) (digest : List Byte) (z : Sealed) : Result where
  slot := .sealed ctl digest z
  payload := []
  txs := []

/-- The result of a reader operation on a slot with digest `digest`. -/
def readingResult (digest : List Byte) (r : Traced Reading) : Result where
  slot := .sealed r.val.ctl digest r.val.z
  payload := r.val.out
  txs := r.txs

/-- XOF_READ on a slot (44_xof_adapter.md R243). -/
def xofReadCmd (ceil len : Nat) : Slot → Except Status Result :=
  readerCmd fun ctl digest z =>
    if len = 0 then .ok (emptyReading ctl digest z)
    else
      match readSealed ceil ctl z len with
      | .error e => .error e
      | .ok r => .ok (readingResult digest r)

/-- XOF_SEEK on a slot (44_xof_adapter.md R244). -/
def xofSeekCmd (ceil pos : Nat) : Slot → Except Status Result :=
  readerCmd fun ctl digest z =>
    match seekSealed ceil ctl z pos with
    | .error e => .error e
    | .ok r => .ok (readingResult digest r)

/-- XOF_READ_AT on a slot (44_xof_adapter.md R245): the checks, then XOF_SEEK and XOF_READ. -/
def xofReadAtCmd (ceil pos len : Nat) : Slot → Except Status Result :=
  readerCmd fun ctl digest z =>
    if len = 0 then .ok (emptyReading ctl digest z)
    else
      match readAtCheck ceil ctl z pos len with
      | .error e => .error e
      | .ok _ =>
        match seekSealed ceil ctl z pos with
        | .error e => .error e
        | .ok k =>
          match readSealed ceil k.val.ctl k.val.z len with
          | .error e => .error e
          | .ok r => .ok (readingResult digest ⟨r.val, k.txs ++ r.txs⟩)

/-- XOF_READ. -/
def execXofRead (c : BitVec 4) (len : BitVec 64) (s : State) : StepOutcome :=
  runOn c (xofReadCmd s.params.b3Ceil len.toNat) s

/-- XOF_SEEK. -/
def execXofSeek (c : BitVec 4) (pos : BitVec 64) (s : State) : StepOutcome :=
  runOn c (xofSeekCmd s.params.b3Ceil pos.toNat) s

/-- XOF_READ_AT. -/
def execXofReadAt (c : BitVec 4) (pos len : BitVec 64) (s : State) : StepOutcome :=
  runOn c (xofReadAtCmd s.params.b3Ceil pos.toNat len.toNat) s

end Sys2Proof.Machine
end

