-- ==== Sys2Proof/Machine/Dispatch.lean ====
section
/-! DEFINITION. The meaning of every command: one arm per constructor. -/

namespace Sys2Proof.Machine

def exec (i : Instr) (s : State) : Host.Outcome State Fault Refusal :=
  match i with
  | .newMd5 c xof dlen key salt => Sys2Proof.Machine.execNewMd5 c xof dlen key salt s
  | .newSha1 c xof dlen key salt => Sys2Proof.Machine.execNewSha1 c xof dlen key salt s
  | .newSha224 c xof dlen key salt => Sys2Proof.Machine.execNewSha224 c xof dlen key salt s
  | .newSha256 c xof dlen key salt => Sys2Proof.Machine.execNewSha256 c xof dlen key salt s
  | .newSha384 c xof dlen key salt => Sys2Proof.Machine.execNewSha384 c xof dlen key salt s
  | .newSha512 c xof dlen key salt => Sys2Proof.Machine.execNewSha512 c xof dlen key salt s
  | .newSha512_224 c xof dlen key salt => Sys2Proof.Machine.execNewSha512_224 c xof dlen key salt s
  | .newSha512_256 c xof dlen key salt => Sys2Proof.Machine.execNewSha512_256 c xof dlen key salt s
  | .newSha3_224 c xof dlen key salt => Sys2Proof.Machine.execNewSha3_224 c xof dlen key salt s
  | .newSha3_256 c xof dlen key salt => Sys2Proof.Machine.execNewSha3_256 c xof dlen key salt s
  | .newSha3_384 c xof dlen key salt => Sys2Proof.Machine.execNewSha3_384 c xof dlen key salt s
  | .newSha3_512 c xof dlen key salt => Sys2Proof.Machine.execNewSha3_512 c xof dlen key salt s
  | .newShake128 c xof dlen key salt => Sys2Proof.Machine.execNewShake128 c xof dlen key salt s
  | .newShake256 c xof dlen key salt => Sys2Proof.Machine.execNewShake256 c xof dlen key salt s
  | .newBlake2b c xof dlen key salt => Sys2Proof.Machine.execNewBlake2b c xof dlen key salt s
  | .newBlake2s c xof dlen key salt => Sys2Proof.Machine.execNewBlake2s c xof dlen key salt s
  | .newBlake2bp c xof dlen key salt => Sys2Proof.Machine.execNewBlake2bp c xof dlen key salt s
  | .newBlake2sp c xof dlen key salt => Sys2Proof.Machine.execNewBlake2sp c xof dlen key salt s
  | .newBlake2xb c xof dlen key salt => Sys2Proof.Machine.execNewBlake2xb c xof dlen key salt s
  | .newBlake2xs c xof dlen key salt => Sys2Proof.Machine.execNewBlake2xs c xof dlen key salt s
  | .newBlake3 c xof dlen key salt => Sys2Proof.Machine.execNewBlake3 c xof dlen key salt s
  | .newBlake3DeriveKey c xof dlen key salt => Sys2Proof.Machine.execNewBlake3DeriveKey c xof dlen key salt s
  | .absorb c data => Sys2Proof.Machine.execAbsorb c data s
  | .finalize c => Sys2Proof.Machine.execFinalize c s
  | .xofRead c len => Sys2Proof.Machine.execXofRead c len s
  | .xofSeek c pos => Sys2Proof.Machine.execXofSeek c pos s
  | .xofReadAt c pos len => Sys2Proof.Machine.execXofReadAt c pos len s

end Sys2Proof.Machine
end

