-- ==== Sys2Proof/Machine/Fetch.lean ====
section
/-! DEFINITION. Taking the next frame from `CMD` and answering an illegal one (30_encoding.md R102,
R104; 70_reset_and_hazards.md R356). -/

namespace Sys2Proof.Machine

/-- The frame that stands first on `CMD`. -/
def fetch (s : State) : Frame := decodeFrame s.params.nctx s.cmd

/-- An illegal frame, consumed whole, answers `ILLEGAL_COMMAND` and has no other effect
(30_encoding.md R104, 60_exceptions.md R329). -/
def stepIllegal (rest : List Byte) (s : State) : StepOutcome := raise .illegalCommand (s.consume rest)

/-- While the bytes of a frame have not all arrived HFE waits; no error is raised
(70_reset_and_hazards.md R356, log 9). -/
def stepWait (s : State) : StepOutcome := .next s

/-- Place bytes in front of what is pending on `CMD`. -/
def State.putFirst (s : State) (bs : List Byte) : State := { s with cmd := bs ++ s.cmd }

end Sys2Proof.Machine
end

