-- ==== Sys2Proof/Machine/Step.lean ====
section
/-! DEFINITION. One step: take one frame from `CMD` and execute it (20_memory.md R80). -/

namespace Sys2Proof.Machine

/-- One step of HFE: the first frame on `CMD` is consumed whole, then its command runs to completion
(20_memory.md R80, R87). -/
def step (s : State) : Host.Outcome State Fault Refusal :=
  match fetch s with
  | .command i rest => exec i (s.consume rest)
  | .illegal _ rest => stepIllegal rest s
  | .incomplete => stepWait s

/-- The state with the word `w` of the opcode table as the first frame on `CMD`, so that the next
step runs it (log 10). -/
def State.withFetchWord (s : State) (nbits w : Nat) : State := s.putFirst (tableBytes nbits w)

end Sys2Proof.Machine
end

