-- ==== Sys2Proof/Safety.lean ====
section
/-! DEFINITION. The terms the statements are written in: the slot a command names, runs of several
commands, the legal values of the state (10_state.md) and of a transaction (20_memory.md), and the
BLAKE3 tree of 42_blake3_tree.md R194 built from the top down. -/

namespace Sys2Proof

/-- The algorithm a NEW command names; none for the other five commands (30_encoding.md R93). -/
def Instr.newAlg : Instr → Option Alg
  | .newMd5 _ _ _ _ _ => some (.md .md5)
  | .newSha1 _ _ _ _ _ => some (.md .sha1)
  | .newSha224 _ _ _ _ _ => some (.md .sha224)
  | .newSha256 _ _ _ _ _ => some (.md .sha256)
  | .newSha384 _ _ _ _ _ => some (.md .sha384)
  | .newSha512 _ _ _ _ _ => some (.md .sha512)
  | .newSha512_224 _ _ _ _ _ => some (.md .sha512_224)
  | .newSha512_256 _ _ _ _ _ => some (.md .sha512_256)
  | .newSha3_224 _ _ _ _ _ => some (.sponge .sha3_224)
  | .newSha3_256 _ _ _ _ _ => some (.sponge .sha3_256)
  | .newSha3_384 _ _ _ _ _ => some (.sponge .sha3_384)
  | .newSha3_512 _ _ _ _ _ => some (.sponge .sha3_512)
  | .newShake128 _ _ _ _ _ => some (.sponge .shake128)
  | .newShake256 _ _ _ _ _ => some (.sponge .shake256)
  | .newBlake2b _ _ _ _ _ => some (.b2 .b2b)
  | .newBlake2s _ _ _ _ _ => some (.b2 .b2s)
  | .newBlake2bp _ _ _ _ _ => some (.b2p .b2b)
  | .newBlake2sp _ _ _ _ _ => some (.b2p .b2s)
  | .newBlake2xb _ _ _ _ _ => some (.b2x .b2b)
  | .newBlake2xs _ _ _ _ _ => some (.b2x .b2s)
  | .newBlake3 _ _ _ _ _ => some (.b3 .blake3)
  | .newBlake3DeriveKey _ _ _ _ _ => some (.b3 .deriveKey)
  | .absorb _ _ => none
  | .finalize _ => none
  | .xofRead _ _ => none
  | .xofSeek _ _ => none
  | .xofReadAt _ _ _ => none

end Sys2Proof

namespace Sys2Proof.Machine

/-! ### Runs -/

/-- The commands of a list one after another (20_memory.md R80). -/
def runAll : List Instr → State → StepOutcome
  | [], s => .next s
  | i :: is, s =>
    match exec i s with
    | .next t => runAll is t
    | .fault r => .fault r
    | .refused r => .refused r

/-- The state after a command on slot `c` that succeeds: the slot's new contents, the transactions
issued and one response frame (30_encoding.md R99). -/
def State.answered (s : State) (c : BitVec 4) (v : Slot) (txs : List Tx) (payload : List Byte) :
    State where
  params := s.params
  ctx := s.ctx.set c.toNat v c.isLt
  cmd := s.cmd
  rsp := s.rsp ++ responseFrame .ok payload
  cport := s.cport ++ txs

/-- The state after a command that fails: one response frame, nothing else (60_exceptions.md
R324). -/
def State.failed (s : State) (e : Status) : State := { s with rsp := s.rsp ++ responseFrame e [] }

/-! ### Frames (30_encoding.md R102) -/

/-- How many bytes of a frame follow its header: the operands and the payload they announce, by `OPC`
(30_encoding.md R94, R102). -/
def bytesAfterHeader (opc : Nat) (body : List Byte) : Nat :=
  match opc with
  | 1 => 24 + leVal ((body.drop 8).take 8) + leVal ((body.drop 16).take 8)
  | 2 => 8 + leVal (body.take 8)
  | 4 => 8
  | 5 => 8
  | 6 => 16
  | _ => 0

/-- The algorithm numbers of 30_encoding.md R97. -/
def algNumbers : List (BitVec 8) :=
  [0x01, 0x02, 0x03, 0x04, 0x05, 0x06, 0x07, 0x08, 0x10, 0x11, 0x12, 0x13, 0x14, 0x15, 0x20, 0x21,
    0x22, 0x23, 0x24, 0x25, 0x30, 0x31]

/-- An illegal header word on an instance with `nctx` slots (30_encoding.md R104). -/
def IllegalHeader (nctx : Nat) (w : BitVec 32) : Prop :=
  w.extractLsb' 28 4 = 0 ∨ 7 ≤ (w.extractLsb' 28 4).toNat
    ∨ w.extractLsb' 9 7 ≠ 0 ∨ w.extractLsb' 0 8 ≠ 0
    ∨ (w.extractLsb' 28 4 ≠ 1 ∧ (w.extractLsb' 16 8 ≠ 0 ∨ w.extractLsb' 8 1 = 1))
    ∨ (w.extractLsb' 28 4 = 1 ∧ w.extractLsb' 16 8 ∉ algNumbers)
    ∨ nctx ≤ (w.extractLsb' 24 4).toNat

/-! ### Positions of the output streams -/

/-- `⌈a / b⌉` (00_scope.md R10). -/
def ceilDiv (a b : Nat) : Nat := (a + b - 1) / b

/-- The squeeze state at position `xpos` of a reader whose state after FINALIZE is `s0`: `S_0` at position
0, else `S_((XPOS − 1) div R)` (44_xof_adapter.md R247). -/
def squeezeState (a : SpongeAlg) (s0 : HashState .keccak) (xpos : Nat) : HashState .keccak :=
  spongeState a s0 (if xpos = 0 then 0 else (xpos - 1) / rate a)

/-- The slices of leaf `k`: the message bytes at positions `p` with `(p div B) mod N = k`, in order
(43_parallel_combiner.md R221). -/
def leafBytes (p : B2Prim) (k : Nat) (msg : List Byte) : List Byte :=
  (msg.zipIdx.filter fun bp => (bp.2 / b2Block p) % p.nleaf == k).map (·.1)

/-! ### Legal contents of a slot (10_state.md R24 to R42) -/

/-- `popcount`, for a number below `2 ^ bits` (00_scope.md R11). -/
def popcountTo : Nat → Nat → Nat
  | 0, _ => 0
  | bits + 1, n => n % 2 + popcountTo bits (n / 2)

/-- `popcount(n)`, the number of 1 bits of `n` (00_scope.md R11). -/
def popcount (n : Nat) : Nat := popcountTo n n

/-- Class `MD`: `|TAIL| = TOTAL mod B`, so `|TAIL| < B` (10_state.md R27, R28). -/
def MdState.legal {a : MdAlg} (m : MdState a) (total : Nat) : Bool :=
  decide (m.tail.length = total % mdBlock a)

/-- Class `SPONGE`: `|TAIL| = TOTAL mod R` (10_state.md R29). -/
def SpongeState.legal (a : SpongeAlg) (m : SpongeState) (total : Nat) : Bool :=
  decide (m.tail.length = total % rate a)

/-- The bytes of its input stream an instance has received (10_state.md R30). -/
def B2Inst.received {p : B2Prim} (m : B2Inst p) : Nat := m.t + m.tail.length

/-- A BLAKE2 instance that accepts input: `T` is a multiple of `B`, `|TAIL| ≤ B`, and the tail is
empty only before the first byte (10_state.md R27, R30, 41_incremental_hasher.md R146). -/
def B2Inst.legal {p : B2Prim} (m : B2Inst p) : Bool :=
  decide (m.t % b2Block p = 0 ∧ m.tail.length ≤ b2Block p ∧ (m.tail = [] → m.t = 0))

/-- Class `B2`, and the outer instance of `B2X`: `T + |TAIL| = KB + TOTAL` with `KB` 0 or `B`, and
`LASTNODE = 0` (10_state.md R31, R32). -/
def B2Inst.legalSeq {p : B2Prim} (m : B2Inst p) (total : Nat) : Bool :=
  m.legal && decide (m.received = total ∨ m.received = b2Block p + total) && !m.lastNode

/-- Class `B2P`: the leaves together have received `N·KB + TOTAL` bytes, `LASTNODE` is set for the
last leaf and the root alone, the root has received nothing (10_state.md R38, R42). -/
def B2PState.legal {p : B2Prim} (m : B2PState p) (total : Nat) : Bool :=
  decide (∀ k : Fin p.nleaf,
      m.leaf[k].legal = true ∧ m.leaf[k].lastNode = decide (k.val = p.nleaf - 1))
    && decide ((m.leaf.toList.map B2Inst.received).sum = total
        ∨ (m.leaf.toList.map B2Inst.received).sum = p.nleaf * b2Block p + total)
    && decide (m.root.t = 0 ∧ m.root.tail = [] ∧ m.root.lastNode = true)

/-- `XLEN` and `SALTP` (10_state.md R32, 45_keying_construction.md R295). -/
def B2XState.legalParams {p : B2Prim} (m : B2XState p) (ctl : Ctl) : Bool :=
  decide (m.xlen = if ctl.xof then xlenSent p else ctl.dlen)
    && decide (m.saltp.length = b2Out p / 2)

/-- The mode flag of a `B3` slot (10_state.md R33). -/
def baseLegal (a : B3Alg) (base : BitVec 7) : Bool :=
  match a with
  | .blake3 => base == 0 || base == KEYED_HASH
  | .deriveKey => base == DERIVE_KEY_MATERIAL

/-- Class `B3` while absorbing (10_state.md R34, R36, R42). -/
def B3State.legal (m : B3State) (a : B3Alg) (total : Nat) : Bool :=
  decide (total = 1024 * m.cidx + 64 * m.blocks + m.tail.length)
    && decide (m.blocks ≤ 15 ∧ m.tail.length ≤ 64)
    && decide (m.tail = [] → total = 0)
    && decide (m.blocks = 0 → m.cv = m.keyw)
    && decide (m.stack.length = popcount m.cidx)
    && baseLegal a m.base

/-- A root descriptor: the block's bytes past `RBLEN` are zero; the flags are those of the only chunk's
last block or of the last merge, with `ROOT` (10_state.md R37, 42_blake3_tree.md R190). -/
def RootD.legal (r : RootD) (base : BitVec 7) : Bool :=
  decide (r.rblock.length = 64 ∧ r.rblen ≤ 64) && (r.rblock.drop r.rblen).all (· == 0)
    && (r.rflags == base ||| CHUNK_START ||| CHUNK_END ||| ROOT
      || r.rflags == base ||| CHUNK_END ||| ROOT
      || (r.rflags == base ||| PARENT ||| ROOT && r.rblen == 64))

/-- `XOF` and `DLEN` as NEW leaves them: a reader only where the algorithm has an XOF mechanism; else
a length that NEW accepts (10_state.md R24, 45_keying_construction.md R283, R284; the default of BLAKE3,
32, is accepted whatever the ceiling). `ceil` is the instance's `B3_CEIL`, here and below. -/
def Ctl.legal (ceil : Nat) (ctl : Ctl) (a : Alg) : Bool :=
  if ctl.xof then hasXof a
  else decide (0 < ctl.dlen) && dlenValid a ctl.dlen && !dlenUnsupported (max ceil 32) a ctl.dlen

/-- The class state of an `ABSORBING` slot. -/
def Hasher.legal (ctl : Ctl) : Hasher → Bool
  | .md _ m => m.legal ctl.total
  | .sponge a m => m.legal a ctl.total
  | .b2 _ m => m.legalSeq ctl.total
  | .b2p _ m => m.legal ctl.total
  | .b2x _ m => m.inst.legalSeq ctl.total && m.legalParams ctl
  | .b3 a m => m.legal a ctl.total

/-- The class state and the cursor of a `SEALED` slot (10_state.md R32, R37, R39). -/
def Sealed.legal (ceil : Nat) (ctl : Ctl) : Sealed → Bool
  | .md _ _ => true
  | .sponge _ _ => true
  | .b2 _ _ => true
  | .b2p _ _ => true
  | .b2x p m h0 =>
    m.legalParams ctl && decide (h0.length = b2Out p) && decide (ctl.xpos < b2xPeriod p)
  | .b3 a m rootd =>
    baseLegal a m.base && rootd.legal m.base && m.stack.isEmpty && decide (ctl.xpos ≤ ceil)

/-- A legal slot. A slot with a fixed digest holds `DLEN` bytes of it and its cursor is 0
(10_state.md R24, R39, R41). -/
def Slot.legal (ceil : Nat) : Slot → Bool
  | .free => true
  | .absorbing ctl h => ctl.legal ceil h.alg && ctl.xpos == 0 && h.legal ctl
  | .sealed ctl digest z =>
    ctl.legal ceil z.alg && z.legal ceil ctl && (ctl.xof || (digest.length == ctl.dlen && ctl.xpos == 0))

/-- The parameters are in their ranges (92_eei_decisions.md section 2), every slot is legal, the invariants of
10_state.md R28 to R42, and a place of the context store that is no slot of the instance is `FREE`
(10_state.md R20, log 3). -/
structure State.Legal (s : State) : Prop where
  params : s.params.legal = true
  slots : ∀ c : BitVec 4, (s.slot c).legal s.params.b3Ceil = true
  absent : ∀ c : BitVec 4, s.params.nctx ≤ c.toNat → s.slot c = .free

/-! ### Legal transactions (20_memory.md R69 to R75) -/

/-- The mode flags (10_state.md R33). -/
def modeFlags : List (BitVec 7) := [0, KEYED_HASH, DERIVE_KEY_CONTEXT, DERIVE_KEY_MATERIAL]

/-- What a `B3` transaction can be: a chunk block, a merge, or the root of either, with at most one mode
flag (20_memory.md R71, 42_blake3_tree.md R184 to R196). -/
def b3FlagKinds : List (BitVec 7) :=
  [0, CHUNK_START, CHUNK_END, CHUNK_START ||| CHUNK_END, PARENT, CHUNK_START ||| CHUNK_END ||| ROOT,
    CHUNK_END ||| ROOT, PARENT ||| ROOT]

/-- The flags of a `B3` transaction. -/
def b3FlagsLegal (f : BitVec 7) : Bool :=
  modeFlags.any fun base => b3FlagKinds.any fun k => f == base ||| k

/-- The rates (41_incremental_hasher.md R156). -/
def rates : List Nat := [72, 104, 136, 144, 168]

/-- What HFE sends on `CPORT` (20_memory.md R69 to R75): exactly one block of the primitive's size; arguments
a primitive ignores are 0; `LAST_NODE` only together with `FINAL_BLOCK`. -/
def txLegal (t : Tx) : Bool :=
  match t.prim with
  | .md5 | .sha1 | .sha256 =>
    t.block.length == 64 && t.counter == 0 && t.blen == 0 && t.flags == 0
  | .sha512 => t.block.length == 128 && t.counter == 0 && t.blen == 0 && t.flags == 0
  | .keccak => rates.contains t.block.length && t.counter == 0 && t.blen == 0 && t.flags == 0
  | .b2b =>
    t.block.length == 128 && decide (t.counter < 2 ^ 128) && t.blen == 0
      && (t.flags == 0 || t.flags == FINAL_BLOCK || t.flags == FINAL_BLOCK ||| LAST_NODE)
  | .b2s =>
    t.block.length == 64 && decide (t.counter < 2 ^ 64) && t.blen == 0
      && (t.flags == 0 || t.flags == FINAL_BLOCK || t.flags == FINAL_BLOCK ||| LAST_NODE)
  | .b3 =>
    t.block.length == 64 && decide (t.blen ≤ 64) && (t.block.drop t.blen).all (· == 0)
      && b3FlagsLegal t.flags
      && (t.flags &&& PARENT == 0 || (t.blen == 64 && (t.flags &&& ROOT == ROOT || t.counter == 0)))

/-- Every transaction issued so far is legal. -/
def State.PortLegal (s : State) : Prop := ∀ t ∈ s.cport, txLegal t = true

/-! ### The BLAKE3 tree, from the top (42_blake3_tree.md R180, R194) -/

/-- The message cut into pieces of `n` bytes, only the last one shorter; the empty message is one empty
piece (42_blake3_tree.md R180). The first argument bounds the number of pieces. -/
def piecesTo : Nat → Nat → List Byte → List (List Byte)
  | 0, _, m => [m]
  | fuel + 1, n, m => if m.length ≤ n then [m] else m.take n :: piecesTo fuel n (m.drop n)

/-- The pieces of `n > 0` bytes of a message. -/
def piecesOf (n : Nat) (m : List Byte) : List (List Byte) := piecesTo m.length n m

/-- The chaining value after the blocks of a chunk that are not its last, and the last block; `b` is the
number of blocks before these. -/
def chunkChain (base : BitVec 7) (index : Nat) : Nat → ChainVal → List (List Byte) →
    ChainVal × Nat × List Byte
  | b, cv, [] => (cv, b, [])
  | b, cv, [last] => (cv, b, last)
  | b, cv, blk :: blks =>
    chunkChain base index (b + 1)
      (firstEight (Config.compressB3 cv blk index 64 (base ||| startFlag b))) blks

/-- What remains to be done for a chunk: its chaining value before its last block, that block's number and
bytes. -/
def chunkParts (keyw : ChainVal) (base : BitVec 7) (index : Nat) (chunk : List Byte) :
    ChainVal × Nat × List Byte :=
  chunkChain base index 0 keyw (piecesOf 64 chunk)

/-- The flags of block `b` of a chunk, its last (42_blake3_tree.md R184, R189). -/
def lastFlags (base : BitVec 7) (b : Nat) : BitVec 7 := base ||| startFlag b ||| CHUNK_END

/-- The chaining value of a chunk. -/
def chunkCv (keyw : ChainVal) (base : BitVec 7) (index : Nat) (chunk : List Byte) : ChainVal :=
  let r := chunkParts keyw base index chunk
  firstEight (Config.compressB3 r.1 (zpad r.2.2 64) index r.2.2.length (lastFlags base r.2.1))

/-- The largest power of two strictly less than `n`, for `n ≥ 2` (42_blake3_tree.md R194). -/
def leftChunks (n : Nat) : Nat := 2 ^ (n - 1).log2

/-- The chaining value of the subtree over some consecutive chunks, the first of which has number `index`
(42_blake3_tree.md R194). The first argument bounds the height. -/
def subtreeCv (keyw : ChainVal) (base : BitVec 7) : Nat → Nat → List (List Byte) → ChainVal
  | 0, _, _ => keyw
  | fuel + 1, index, chunks =>
    match chunks with
    | [] => keyw
    | [c] => chunkCv keyw base index c
    | c :: d :: rest =>
      let k := leftChunks (rest.length + 2)
      let left := subtreeCv keyw base fuel index ((c :: d :: rest).take k)
      let right := subtreeCv keyw base fuel (index + k) ((c :: d :: rest).drop k)
      firstEight
        (Config.compressB3 keyw (leWords left.toList ++ leWords right.toList) 0 64 (base ||| PARENT))

/-- The root descriptor of a message: its only chunk's last block, or the merge of the two subtrees of the
root (42_blake3_tree.md R190, R194). -/
def treeRoot (keyw : ChainVal) (base : BitVec 7) (msg : List Byte) : RootD :=
  match piecesOf 1024 msg with
  | [] => ⟨keyw, [], 0, 0⟩
  | [c] =>
    let r := chunkParts keyw base 0 c
    ⟨r.1, zpad r.2.2 64, r.2.2.length, lastFlags base r.2.1 ||| ROOT⟩
  | c :: d :: rest =>
    let k := leftChunks (rest.length + 2)
    let left := subtreeCv keyw base (rest.length + 2) 0 ((c :: d :: rest).take k)
    let right := subtreeCv keyw base (rest.length + 2) k ((c :: d :: rest).drop k)
    ⟨keyw, leWords left.toList ++ leWords right.toList, 64, base ||| PARENT ||| ROOT⟩

end Sys2Proof.Machine
end

