-- ==== Sys2Proof/Certificates/Slice0/Obligations.lean ====
section
/-! DEFINITION. The statements about HFE for the provers. `Instr.new a` is the NEW command of algorithm
`a`: `.md` the constructors `newMd5` to `newSha512_256`, `.sponge` `newSha3_224` to `newShake256`, `.b2`
`newBlake2b` and `newBlake2s`, `.b2p` `newBlake2bp` and `newBlake2sp`, `.b2x` `newBlake2xb` and
`newBlake2xs`, `.b3` `newBlake3` and `newBlake3DeriveKey` (Decode.lean). -/

section

open Sys2Proof Sys2Proof.Machine

/-! ### Frames (30_encoding.md) -/

/-- Every command is read back from its frame, whatever follows it, on an instance with any number of slots
(30_encoding.md R90 to R98, R102). The encoding is the spec's decision D6. -/
def Obligations.DecodeEncode : Prop :=
  ∀ (nctx : Nat) (i : Instr) (rest : List Byte), i.wellFormed nctx = true →
    decodeFrame nctx (encode i ++ rest) = .command i rest

/-- Every command read is read from its one spelling: each accepted frame is the encoding of a well-formed
command (30_encoding.md R91, R103, R105: no second encoding, no ignored bit). The encoding is the spec's
decision D6. -/
def Obligations.AcceptedFrameIsEncoding : Prop :=
  ∀ (nctx : Nat) (bs : List Byte) (i : Instr) (rest : List Byte),
    decodeFrame nctx bs = .command i rest → i.wellFormed nctx = true ∧ bs = encode i ++ rest

/-- What a frame takes from `CMD` is the header, the operands and the payload its operands announce, legal
or not; until the header and those bytes are there it is no frame (30_encoding.md R102). The spec's
decision D6. -/
def Obligations.FrameConsumedWhole : Prop :=
  ∀ nctx : Nat,
    (∀ bs : List Byte, bs.length < 4 → decodeFrame nctx bs = .incomplete) ∧
      ∀ (w : BitVec 32) (body : List Byte),
        let n := bytesAfterHeader (w.extractLsb' 28 4).toNat body
        (body.length < n → decodeFrame nctx (leBytes 4 w.toNat ++ body) = .incomplete) ∧
          (n ≤ body.length →
            (∃ i, decodeFrame nctx (leBytes 4 w.toNat ++ body) = .command i (body.drop n)) ∨
              ∃ why, decodeFrame nctx (leBytes 4 w.toNat ++ body) = .illegal why (body.drop n))

/-- A whole frame with an illegal header answers `ILLEGAL_COMMAND`, is consumed and does nothing else,
whatever the slots hold; a whole frame with a legal header is a command (30_encoding.md R104). The spec's
decision D15. -/
def Obligations.IllegalCommand : Prop :=
  ∀ (w : BitVec 32) (body : List Byte) (s : State),
    s.cmd = leBytes 4 w.toNat ++ body →
    bytesAfterHeader (w.extractLsb' 28 4).toNat body ≤ body.length →
    (IllegalHeader s.params.nctx w →
      step s = .next (State.failed
        { s with cmd := body.drop (bytesAfterHeader (w.extractLsb' 28 4).toNat body) }
        .illegalCommand)) ∧
      (¬IllegalHeader s.params.nctx w →
        ∃ i, decodeFrame s.params.nctx s.cmd =
          .command i (body.drop (bytesAfterHeader (w.extractLsb' 28 4).toNat body)))

/-- When the bytes on `CMD` begin with a command, one step consumes its frame and executes it
(20_memory.md R80). -/
def Obligations.StepRunsDecoded : Prop :=
  ∀ (s : State) (i : Instr) (rest : List Byte),
    decodeFrame s.params.nctx s.cmd = .command i rest → step s = exec i { s with cmd := rest }

/-- While the first frame is incomplete a step changes nothing: the model's choice, log entry 9. -/
def Obligations.IncompleteFrameWaits : Prop :=
  ∀ s : State, decodeFrame s.params.nctx s.cmd = .incomplete → step s = .next s

/-- A few frames written out from the encoding tables: NEW of SHA256, of a BLAKE3 reader, of a keyed and
salted BLAKE2s, ABSORB with a byte of the next frame, FINALIZE, XOF_READ, XOF_SEEK, XOF_READ_AT
(30_encoding.md R91 to R98, R109), with 16 slots; and one of them with 4 slots, which then names a slot that
is not there (R104). The encoding is the spec's decision D6. -/
def Obligations.FramesReadRight : Prop :=
  decodeFrame 16 ([0x00, 0x00, 0x04, 0x13] ++ zeros 24) = .command (.newSha256 3 false 0 [] []) [] ∧
    decodeFrame 16 ([0x00, 0x01, 0x30, 0x10] ++ zeros 24) = .command (.newBlake3 0 true 0 [] []) [] ∧
    decodeFrame 16 ([0x00, 0x00, 0x21, 0x11, 16, 0, 0, 0, 0, 0, 0, 0, 3, 0, 0, 0, 0, 0, 0, 0, 2, 0, 0, 0,
        0, 0, 0, 0, 0x6b, 0x65, 0x79, 0x01, 0x02]) =
      .command (.newBlake2s 1 false 16 [0x6b, 0x65, 0x79] [0x01, 0x02]) [] ∧
    decodeFrame 16 [0x00, 0x00, 0x00, 0x20, 3, 0, 0, 0, 0, 0, 0, 0, 0x61, 0x62, 0x63, 0xff] =
      .command (.absorb 0 [0x61, 0x62, 0x63]) [0xff] ∧
    decodeFrame 16 [0x00, 0x00, 0x00, 0x3f] = .command (.finalize 15) [] ∧
    decodeFrame 16 [0x00, 0x00, 0x00, 0x40, 7, 0, 0, 0, 0, 0, 0, 0] = .command (.xofRead 0 7) [] ∧
    decodeFrame 16 [0x00, 0x00, 0x00, 0x52, 100, 0, 0, 0, 0x40, 0, 0, 0] =
      .command (.xofSeek 2 (2 ^ 38 + 100)) [] ∧
    decodeFrame 16 [0x00, 0x00, 0x00, 0x60, 64, 0, 0, 0, 0, 0, 0, 0, 10, 0, 0, 0, 0, 0, 0, 0] =
      .command (.xofReadAt 0 64 10) [] ∧
    decodeFrame 4 [0x00, 0x00, 0x00, 0x3f] = .illegal .ctxOutOfRange []

/-! ### Every command -/

/-- Every command ends and answers exactly one response frame: a status word with the code in its low byte
and zeros above, an 8-byte `RLEN`, the payload; a status other than `OK` has no payload. It consumes nothing
more of `CMD`, only appends to the trace of `CPORT` and leaves the instance's parameters (log entries 3 and
4) as they are (30_encoding.md R99, 20_memory.md R87). The response frame is the spec's decision D6; holding
what was emitted since reset is the model's, log entry 8. -/
def Obligations.OneResponse : Prop :=
  ∀ (i : Instr) (s : State), ∃ (t : State) (st : Status) (payload : List Byte) (txs : List Tx),
    exec i s = .next t ∧ t.params = s.params ∧ t.cmd = s.cmd ∧ t.cport = s.cport ++ txs ∧
      t.rsp = s.rsp ++ ([BitVec.ofNat 8 st.code, 0, 0, 0] ++ leBytes 8 payload.length ++ payload) ∧
      (st ≠ .ok → payload = [])

/-- A step that answers an error changes no field of any slot, issues no transaction, has consumed the whole
frame and answers no payload (60_exceptions.md R324). The spec's decision D26. -/
def Obligations.ErrorsChangeNothing : Prop :=
  ∀ (s t : State) (e : Status) (payload : List Byte), step s = .next t → e ≠ .ok →
    t.rsp = s.rsp ++ responseFrame e payload →
    t.params = s.params ∧ t.ctx = s.ctx ∧ t.cport = s.cport ∧ payload = [] ∧
      ((∃ i, decodeFrame s.params.nctx s.cmd = .command i t.cmd) ∨
        ∃ why, decodeFrame s.params.nctx s.cmd = .illegal why t.cmd)

/-- The phases are numbered 0, 1, 2 and change only so: `FREE` to `ABSORBING`, `ABSORBING` to `SEALED`, and,
by NEW on a live slot, `SEALED` to `ABSORBING`; `ABSORBING` is entered by NEW, `SEALED` by FINALIZE, each
with status `OK`, and no command returns a slot to `FREE` (10_state.md R22). The numbering is the spec's
decision D9. -/
def Obligations.PhaseTransitions : Prop :=
  (Phase.code .free = 0 ∧ Phase.code .absorbing = 1 ∧ Phase.code .sealed = 2) ∧
    ∀ (i : Instr) (s t : State) (c : BitVec 4), exec i s = .next t →
      (t.slot c).phase = (s.slot c).phase ∨
        (i.context = c ∧ (∃ payload, t.rsp = s.rsp ++ responseFrame .ok payload) ∧
          ((i.newAlg.isSome = true ∧ (s.slot c).phase = .free ∧ (t.slot c).phase = .absorbing) ∨
            (i = .finalize c ∧ (s.slot c).phase = .absorbing ∧ (t.slot c).phase = .sealed) ∨
            (i.newAlg.isSome = true ∧ (s.slot c).phase = .sealed ∧
              (t.slot c).phase = .absorbing)))

/-- Commands on different slots commute: either order leaves the same slots and gives each command the same
response and the same transactions (20_memory.md R81). -/
def Obligations.SlotsCommute : Prop :=
  ∀ (i j : Instr) (s : State), i.context ≠ j.context →
    ∃ (a ab b ba : State) (ri rj : List Byte) (ti tj : List Tx),
      exec i s = .next a ∧ exec j a = .next ab ∧ exec j s = .next b ∧ exec i b = .next ba ∧
        ab.params = ba.params ∧ ab.ctx = ba.ctx ∧ ab.cmd = s.cmd ∧ ba.cmd = s.cmd ∧
        a.rsp = s.rsp ++ ri ∧ ab.rsp = s.rsp ++ ri ++ rj ∧
        b.rsp = s.rsp ++ rj ∧ ba.rsp = s.rsp ++ rj ++ ri ∧
        a.cport = s.cport ++ ti ∧ ab.cport = s.cport ++ ti ++ tj ∧
        b.cport = s.cport ++ tj ∧ ba.cport = s.cport ++ tj ++ ti

/-- A command reads and writes the slot it names and no other: from two states of one instance with that
slot equal it leaves that slot equal, answers the same bytes and issues the same transactions, and every
other slot keeps its contents (10_state.md R20, 70_reset_and_hazards.md R363). -/
def Obligations.OwnSlotOnly : Prop :=
  ∀ (i : Instr) (s u : State), s.params = u.params → s.slot i.context = u.slot i.context →
    ∃ (t v : State) (r : List Byte) (txs : List Tx), exec i s = .next t ∧ exec i u = .next v ∧
      t.slot i.context = v.slot i.context ∧
      t.rsp = s.rsp ++ r ∧ v.rsp = u.rsp ++ r ∧
      t.cport = s.cport ++ txs ∧ v.cport = u.cport ++ txs ∧
      ∀ c, c ≠ i.context → t.slot c = s.slot c ∧ v.slot c = u.slot c

/-- Sealing is one-way: until a NEW names it, a sealed slot stays sealed with its algorithm, its digest and
every control field but the cursor; where there is no reader it does not change at all, and a class other
than `SPONGE` keeps its class state (70_reset_and_hazards.md R358, 10_state.md R41, R43). -/
def Obligations.SealedUntilNew : Prop :=
  ∀ (i : Instr) (s t : State) (c : BitVec 4) (ctl : Ctl) (digest : List Byte) (z : Sealed),
    exec i s = .next t → s.slot c = .sealed ctl digest z →
    ¬(i.context = c ∧ i.newAlg.isSome = true) →
    ∃ (x : Nat) (z' : Sealed), t.slot c = .sealed { ctl with xpos := x } digest z' ∧
      z'.alg = z.alg ∧ (ctl.xof = false → t.slot c = s.slot c) ∧
      ((∀ a m, z ≠ .sponge a m) → z' = z)

/-! ### Reset and the invariants -/

/-- After reset every slot of any instance is `FREE` (`PHASE` 0), `CMD` is at a frame boundary, no response is
pending and no transaction outstanding (70_reset_and_hazards.md R350), and the reference instance has 16 slots
and the ceiling 2^53 (00_scope.md R9). The spec's decisions D3, D4 and D11; empty lists for the ports are the
model's form of it, log entry 8, and the parameters a field of the state, log entries 3 and 4. -/
def Obligations.ResetState : Prop :=
  (∀ P : Params, (State.resetOf P).params = P ∧
      (∀ c : BitVec 4,
        (State.resetOf P).slot c = .free ∧ ((State.resetOf P).slot c).phase.code = 0) ∧
      (State.resetOf P).cmd = [] ∧ (State.resetOf P).rsp = [] ∧ (State.resetOf P).cport = []) ∧
    State.reset = State.resetOf ⟨16, 2 ^ 53⟩

/-- The reset state of every instance with parameters in their ranges, the reference instance among them, has
the invariants of `StepKeepsLegal` and `StepKeepsPortLegal`. -/
def Obligations.ResetLegal : Prop :=
  (∀ P : Params, P.legal = true → (State.resetOf P).Legal ∧ (State.resetOf P).PortLegal) ∧
    State.reset.Legal ∧ State.reset.PortLegal

/-- The invariants of 10_state.md R27 to R42 are kept by every step from every state that has them: the
length of every tail, `T` a multiple of the block size, the bytes an instance, the leaves together and a
tree engine have received, one stack entry for each 1 bit of the chunk count, the last-node flags, the mode
flag, the length of the digest, the range of the cursor, a well-formed root descriptor; and a place of the
context store that is no slot of the instance stays `FREE` (R20; log entry 3). Some of them the spec derives
itself (R28, R31, R36, R42). The instance's parameters do not change (00_scope.md R9). -/
def Obligations.StepKeepsLegal : Prop :=
  ∀ s t : State, s.Legal → step s = .next t → t.Legal ∧ t.params = s.params

/-- Every transaction carries exactly one block, zeros where the primitive ignores an argument or the block
has no message bytes, and a legal combination of flags (20_memory.md R69 to R75). The flag bits and the
arguments ignored are marked general knowledge in R70 to R72. -/
def Obligations.StepKeepsPortLegal : Prop :=
  ∀ s t : State, s.Legal → s.PortLegal → step s = .next t → t.PortLegal

/-! ### NEW (45_keying_construction.md) -/

/-- NEW of a class `MD` algorithm, `newMd5`, `newSha1`, `newSha224`, `newSha256`, `newSha384`, `newSha512`,
`newSha512_224`, `newSha512_256`, on whatever the slot holds: without a key, a salt or the `XOF` bit, and
with `DLEN` 0 or the native length, the slot becomes `ABSORBING` with the live words of `H` the initial value
of the algorithm, an empty tail, `TOTAL` 0 and the native `DLEN`, at no transaction; else `InvalidParameter`
(45_keying_construction.md R286). The native lengths are marked general knowledge in R284 (log entry 19); what
the unused positions of `H` hold is open (log entry 7). -/
def Obligations.NewMd : Prop :=
  ∀ (a : MdAlg) (c : BitVec 4) (xof : Bool) (dlen : BitVec 64) (key salt : List Byte) (s : State),
    let native : Nat := match a with
      | .md5 => 16 | .sha1 => 20 | .sha224 => 28 | .sha256 => 32
      | .sha384 => 48 | .sha512 => 64 | .sha512_224 => 28 | .sha512_256 => 32
    ((key = [] ∧ salt = [] ∧ xof = false ∧ (dlen.toNat = 0 ∨ dlen.toNat = native)) →
      ∃ unused, exec (.new (.md a) c xof dlen key salt) s = .next (s.answered c
        (.absorbing ⟨false, native, 0, 0⟩ (.md a ⟨Config.ivMd a, unused, []⟩)) [] [])) ∧
    (¬(key = [] ∧ salt = [] ∧ xof = false ∧ (dlen.toNat = 0 ∨ dlen.toNat = native)) →
      exec (.new (.md a) c xof dlen key salt) s = .next (s.failed .invalidParameter))

/-- NEW of a class `SPONGE` algorithm, `newSha3_224`, `newSha3_256`, `newSha3_384`, `newSha3_512`,
`newShake128`, `newShake256`, on whatever the slot holds: where the operands pass the checks the slot
becomes `ABSORBING` with 25 zero lanes, an empty tail, `TOTAL` 0 and `DLEN` or its default, at no
transaction; else `InvalidParameter` (45_keying_construction.md R287). The lengths are marked general knowledge
or the spec's decision D14 in R284 (log entry 19); the `DLEN` field of a reader is not meaningful: log entry
14. -/
def Obligations.NewSponge : Prop :=
  ∀ (a : SpongeAlg) (c : BitVec 4) (xof : Bool) (dlen : BitVec 64) (key salt : List Byte)
    (s : State),
    let native : Nat := match a with
      | .sha3_224 => 28 | .sha3_256 => 32 | .sha3_384 => 48
      | .sha3_512 => 64 | .shake128 => 32 | .shake256 => 64
    ((key = [] ∧ salt = [] ∧
        ((xof = true ∧ (a = .shake128 ∨ a = .shake256) ∧ dlen.toNat = 0) ∨
          (xof = false ∧ (a = .shake128 ∨ a = .shake256 ∨ dlen.toNat = 0 ∨
            dlen.toNat = native)))) →
      ∃ d, (xof = false → d = if dlen.toNat = 0 then native else dlen.toNat) ∧
        exec (.new (.sponge a) c xof dlen key salt) s = .next (s.answered c
          (.absorbing ⟨xof, d, 0, 0⟩ (.sponge a ⟨Vector.replicate 25 0, []⟩)) [] [])) ∧
    (¬(key = [] ∧ salt = [] ∧
        ((xof = true ∧ (a = .shake128 ∨ a = .shake256) ∧ dlen.toNat = 0) ∨
          (xof = false ∧ (a = .shake128 ∨ a = .shake256 ∨ dlen.toNat = 0 ∨
            dlen.toNat = native)))) →
      exec (.new (.sponge a) c xof dlen key salt) s = .next (s.failed .invalidParameter))

/-- NEW of BLAKE2b and BLAKE2s, `newBlake2b`, `newBlake2s`, on whatever the slot holds: where the operands
pass the checks the slot becomes `ABSORBING` with the initial value under the parameter block, counter 0 and
the zero-padded key, if there is one, in the tail, at no transaction; else `InvalidParameter`
(45_keying_construction.md R289). The range and the default of `DLEN` are marked general knowledge in R284
(log entry 19). -/
def Obligations.NewB2 : Prop :=
  ∀ (p : B2Prim) (c : BitVec 4) (xof : Bool) (dlen : BitVec 64) (key salt : List Byte) (s : State),
    ((key.length ≤ b2Out p ∧ salt.length ≤ b2Out p / 2 ∧ xof = false ∧ dlen.toNat ≤ b2Out p) →
      exec (.new (.b2 p) c xof dlen key salt) s =
        (let dl := if dlen.toNat = 0 then b2Out p else dlen.toNat
        .next (s.answered c
          (.absorbing ⟨false, dl, 0, 0⟩ (.b2 p
            { h := b2Init p ⟨dl, key.length, 1, 1, 0, 0, 0, 0, 0, zpad salt (b2Out p / 2)⟩
              t := 0
              tail := if key.length > 0 then zpad key (b2Block p) else []
              lastNode := false }))
          [] []))) ∧
    (¬(key.length ≤ b2Out p ∧ salt.length ≤ b2Out p / 2 ∧ xof = false ∧ dlen.toNat ≤ b2Out p) →
      exec (.new (.b2 p) c xof dlen key salt) s = .next (s.failed .invalidParameter))

/-- NEW of BLAKE2bp and BLAKE2sp, `newBlake2bp`, `newBlake2sp`, on whatever the slot holds: where the
operands pass the checks every leaf has its own node offset and the key block, the last leaf and the root
the last-node flag, the root no key block, at no transaction; else `InvalidParameter`
(45_keying_construction.md R290, R291). Fanout, depth, node depth and inner length are marked general
knowledge in R290. -/
def Obligations.NewB2p : Prop :=
  ∀ (p : B2Prim) (c : BitVec 4) (xof : Bool) (dlen : BitVec 64) (key salt : List Byte) (s : State),
    ((key.length ≤ b2Out p ∧ salt.length ≤ b2Out p / 2 ∧ xof = false ∧ dlen.toNat ≤ b2Out p) →
      ∃ (dl : Nat) (m : B2PState p), (dl = if dlen.toNat = 0 then b2Out p else dlen.toNat) ∧
        (∀ k : Fin p.nleaf, m.leaf[k] =
          { h := b2Init p ⟨dl, key.length, p.nleaf, 2, 0, k.val, 0, 0, b2Out p,
              zpad salt (b2Out p / 2)⟩
            t := 0
            tail := if key.length > 0 then zpad key (b2Block p) else []
            lastNode := decide (k.val = p.nleaf - 1) }) ∧
        m.root =
          { h := b2Init p ⟨dl, key.length, p.nleaf, 2, 0, 0, 0, 1, b2Out p,
              zpad salt (b2Out p / 2)⟩
            t := 0
            tail := []
            lastNode := true } ∧
        exec (.new (.b2p p) c xof dlen key salt) s =
          .next (s.answered c (.absorbing ⟨false, dl, 0, 0⟩ (.b2p p m)) [] [])) ∧
    (¬(key.length ≤ b2Out p ∧ salt.length ≤ b2Out p / 2 ∧ xof = false ∧ dlen.toNat ≤ b2Out p) →
      exec (.new (.b2p p) c xof dlen key salt) s = .next (s.failed .invalidParameter))

/-- NEW of BLAKE2Xb and BLAKE2Xs, `newBlake2xb`, `newBlake2xs`, on whatever the slot holds: where the
operands pass the checks the outer instance is a sequential BLAKE2 of full width with `XLEN` in its
parameter block, `DLEN` or for a reader the sentinel, at no transaction; else `InvalidParameter`, or
`UnsupportedLength` where only the length is too large (45_keying_construction.md R295). The sentinels,
2^32 − 1 and 2^16 − 1, are marked general knowledge in 44_xof_adapter.md R255 (log entry 19); the `DLEN` field
of a reader is not meaningful: log entry 14. -/
def Obligations.NewB2x : Prop :=
  ∀ (p : B2Prim) (c : BitVec 4) (xof : Bool) (dlen : BitVec 64) (key salt : List Byte) (s : State),
    let sentinel : Nat := match p with | .b2b => 2 ^ 32 - 1 | .b2s => 2 ^ 16 - 1
    let params := key.length ≤ b2Out p ∧ salt.length ≤ b2Out p / 2 ∧
      ((xof = false ∧ 1 ≤ dlen.toNat) ∨ (xof = true ∧ dlen.toNat = 0))
    (params → (xof = true ∨ dlen.toNat < sentinel) →
      ∃ (d xlen : Nat), (xof = false → d = dlen.toNat) ∧
        (xlen = if xof = true then sentinel else dlen.toNat) ∧
        exec (.new (.b2x p) c xof dlen key salt) s = .next (s.answered c
          (.absorbing ⟨xof, d, 0, 0⟩ (.b2x p
            { inst :=
                { h := b2Init p ⟨b2Out p, key.length, 1, 1, 0, 0, xlen, 0, 0,
                    zpad salt (b2Out p / 2)⟩
                  t := 0
                  tail := if key.length > 0 then zpad key (b2Block p) else []
                  lastNode := false }
              xlen := xlen
              saltp := zpad salt (b2Out p / 2) }))
          [] [])) ∧
    (¬params → exec (.new (.b2x p) c xof dlen key salt) s = .next (s.failed .invalidParameter)) ∧
    (params → xof = false → sentinel ≤ dlen.toNat →
      exec (.new (.b2x p) c xof dlen key salt) s = .next (s.failed .unsupportedLength))

/-- NEW of BLAKE3, plain or keyed, `newBlake3`, on whatever the slot holds: without a key the key words are
the initial value and `BASE` is 0, with one they are the words of the zero-padded key and `BASE` is
`KEYED_HASH`; the engine is empty, at no transaction; else `InvalidParameter`, or `UnsupportedLength` beyond
`B3_CEIL` (45_keying_construction.md R292, R293). The `DLEN` field of a reader is not meaningful: log entry
14. -/
def Obligations.NewBlake3 : Prop :=
  ∀ (c : BitVec 4) (xof : Bool) (dlen : BitVec 64) (key salt : List Byte) (s : State),
    let params := key.length ≤ 32 ∧ salt = [] ∧ (xof = true → dlen.toNat = 0)
    (params → dlen.toNat ≤ s.params.b3Ceil →
      ∃ (d : Nat) (keyw : ChainVal) (base : BitVec 7),
        (xof = false → d = if dlen.toNat = 0 then 32 else dlen.toNat) ∧
        (key = [] → keyw = Config.ivB3 ∧ base = 0) ∧
        (key ≠ [] → keyw = lewVec 32 8 (zpad key 32) ∧ base = 0x10) ∧
        exec (.newBlake3 c xof dlen key salt) s = .next (s.answered c
          (.absorbing ⟨xof, d, 0, 0⟩ (.b3 .blake3 ⟨keyw, base, 0, 0, keyw, [], []⟩)) [] [])) ∧
    (¬params → exec (.newBlake3 c xof dlen key salt) s = .next (s.failed .invalidParameter)) ∧
    (params → s.params.b3Ceil < dlen.toNat →
      exec (.newBlake3 c xof dlen key salt) s = .next (s.failed .unsupportedLength))

/-- NEW of BLAKE3_DERIVE_KEY, `newBlake3DeriveKey`, on whatever the slot holds: stage 1 hashes the context
string on a temporary engine with `DERIVE_KEY_CONTEXT`; the slot's key words are the first 32 bytes of its
output block 0 and `BASE` is `DERIVE_KEY_MATERIAL`; the transactions are those of stage 1; else
`InvalidParameter`, or `UnsupportedLength` beyond `B3_CEIL` (45_keying_construction.md R294). The context
string in the key payload is the spec's decision D25; the `DLEN` field of a reader is not meaningful: log
entry 14. -/
def Obligations.NewDeriveKey : Prop :=
  ∀ (c : BitVec 4) (xof : Bool) (dlen : BitVec 64) (context salt : List Byte) (s : State),
    let params := salt = [] ∧ (xof = true → dlen.toNat = 0)
    (params → dlen.toNat ≤ s.params.b3Ceil →
      ∃ (d : Nat) (e : Traced B3State) (r : Traced RootD) (out : List Byte) (keyw : ChainVal),
        (xof = false → d = if dlen.toNat = 0 then 32 else dlen.toNat) ∧
        e = b3Absorb ⟨Config.ivB3, 0x20, 0, 0, Config.ivB3, [], []⟩ context ∧
        r = b3Root e.val ∧
        out = leWords (Config.compressB3 r.val.rcv r.val.rblock 0 r.val.rblen r.val.rflags).toList ∧
        keyw = lewVec 32 8 (out.take 32) ∧
        exec (.newBlake3DeriveKey c xof dlen context salt) s = .next (s.answered c
          (.absorbing ⟨xof, d, 0, 0⟩ (.b3 .deriveKey ⟨keyw, 0x40, 0, 0, keyw, [], []⟩))
          (e.txs ++ r.txs ++
            [⟨.b3, r.val.rcv, r.val.rblock, 0, r.val.rblen, r.val.rflags⟩]) [])) ∧
    (¬params →
      exec (.newBlake3DeriveKey c xof dlen context salt) s = .next (s.failed .invalidParameter)) ∧
    (params → s.params.b3Ceil < dlen.toNat →
      exec (.newBlake3DeriveKey c xof dlen context salt) s = .next (s.failed .unsupportedLength))

/-- The BLAKE2 parameter block: each field at its offset, little-endian, the reserved bytes 0, the salt and
personalization bytes its second half; and its XOR into the initial state word by word
(45_keying_construction.md R288). The layout is marked general knowledge in R288. -/
def Obligations.ParameterBlock : Prop :=
  ∀ (p : B2Prim) (f : B2Params), f.saltpers.length = b2Out p / 2 →
    let b := b2Pblock p f
    let x := match p with | .b2b => 4 | .b2s => 2
    b.length = b2Out p ∧
      leVal (b.take 1) = f.digestLength % 256 ∧
      leVal ((b.drop 1).take 1) = f.keyLength % 256 ∧
      leVal ((b.drop 2).take 1) = f.fanout % 256 ∧
      leVal ((b.drop 3).take 1) = f.depth % 256 ∧
      leVal ((b.drop 4).take 4) = f.leafLength % 2 ^ 32 ∧
      leVal ((b.drop 8).take 4) = f.nodeOffset % 2 ^ 32 ∧
      leVal ((b.drop 12).take x) = f.xofLength % 256 ^ x ∧
      leVal ((b.drop (12 + x)).take 1) = f.nodeDepth % 256 ∧
      leVal ((b.drop (13 + x)).take 1) = f.innerLength % 256 ∧
      (∀ j, 14 + x ≤ j → j < b2Out p / 2 → b[j]? = some 0) ∧
      b.drop (b2Out p / 2) = f.saltpers ∧
      ∀ i : Fin 8, (b2Init p f).toList[i.val]? =
        ((Config.ivB2 p).toList[i.val]?).map fun iv =>
          iv ^^^ BitVec.ofNat p.prim.width
            (leVal ((b.drop (i.val * (p.prim.width / 8))).take (p.prim.width / 8)))

/-! ### ABSORB (41_incremental_hasher.md, 42_blake3_tree.md, 43_parallel_combiner.md) -/

/-- ABSORB on an `ABSORBING` slot runs the class form, adds `LEN` to `TOTAL` and answers `OK` with no
payload, whatever the bytes; on any other slot it raises `SequenceError`, whatever `LEN`; with no bytes it
changes nothing and causes no transaction (41_incremental_hasher.md R130). -/
def Obligations.AbsorbAnswers : Prop :=
  ∀ (c : BitVec 4) (data : List Byte) (s : State),
    (∀ ctl h, s.slot c = .absorbing ctl h →
      exec (.absorb c data) s = .next (s.answered c
        (.absorbing { ctl with total := ctl.total + data.length }
          (absorbClass ctl.total h data).val)
        (absorbClass ctl.total h data).txs [])) ∧
    ((s.slot c).phase ≠ .absorbing → exec (.absorb c data) s = .next (s.failed .sequenceError)) ∧
    (s.Legal → (s.slot c).phase = .absorbing →
      exec (.absorb c []) s = .next { s with rsp := s.rsp ++ responseFrame .ok [] })

/-- ABSORB, class `MD`, eager: while a block is there it is compressed and dropped
(41_incremental_hasher.md R135). -/
def Obligations.AbsorbMd : Prop :=
  ∀ (a : MdAlg) (m : MdState a) (total : Nat) (data : List Byte),
    let d := m.tail ++ data
    absorbClass total (.md a m) data = (mdAbsorb a m data).map (.md a) ∧
      (d.length < mdBlock a → mdAbsorb a m data = .pure { m with tail := d }) ∧
      (mdBlock a ≤ d.length →
        mdAbsorb a m data = (compress a.prim m.h (d.take (mdBlock a)) 0 0 0).bind fun h =>
          mdAbsorb a { m with h := h, tail := [] } (d.drop (mdBlock a))) ∧
      (mdAbsorb a m data).val.tail.length < mdBlock a ∧
      (mdAbsorb a m data).txs.length = (m.tail.length + data.length) / mdBlock a

/-- ABSORB, class `SPONGE`, eager: while a rate block is there it is compressed and dropped
(41_incremental_hasher.md R157). -/
def Obligations.AbsorbSponge : Prop :=
  ∀ (a : SpongeAlg) (m : SpongeState) (total : Nat) (data : List Byte),
    let d := m.tail ++ data
    absorbClass total (.sponge a m) data = (spongeAbsorb a m data).map (.sponge a) ∧
      (d.length < rate a → spongeAbsorb a m data = .pure ⟨m.s, d⟩) ∧
      (rate a ≤ d.length →
        spongeAbsorb a m data = (compress .keccak m.s (d.take (rate a)) 0 0 0).bind fun s =>
          spongeAbsorb a ⟨s, []⟩ (d.drop (rate a))) ∧
      (spongeAbsorb a m data).val.tail.length < rate a

/-- ABSORB, classes `B2` and `B2X`, lazy: a block is compressed only while a later byte is there, with the
count of the bytes so far as its counter and no flag; the tail holds at most a block, and nothing only where
the instance has received no byte at all (41_incremental_hasher.md R146). The counter is marked general
knowledge in R145 and R150 (log entry 19). -/
def Obligations.AbsorbB2 : Prop :=
  ∀ (p : B2Prim) (m : B2Inst p) (x : B2XState p) (total : Nat) (data : List Byte),
    let d := m.tail ++ data
    absorbClass total (.b2 p m) data = (b2Absorb p m data).map (.b2 p) ∧
      absorbClass total (.b2x p x) data =
        (b2Absorb p x.inst data).map (fun i => .b2x p { x with inst := i }) ∧
      (d.length ≤ b2Block p → b2Absorb p m data = .pure { m with tail := d }) ∧
      (b2Block p < d.length →
        b2Absorb p m data =
          (compress p.prim m.h (d.take (b2Block p))
            ((m.t + b2Block p) % 2 ^ (2 * p.prim.width)) 0 0).bind fun h =>
              b2Absorb p ⟨h, m.t + b2Block p, [], m.lastNode⟩ (d.drop (b2Block p))) ∧
      (b2Absorb p m data).val.tail.length ≤ b2Block p ∧
      ((b2Absorb p m data).val.tail = [] → d = []) ∧
      (m.legal = true → (b2Absorb p m data).val.tail = [] → m.received = 0 ∧ data = [])

/-- ABSORB, class `B2P`: from a context that has absorbed nothing, leaf `k` absorbs exactly the message bytes
at positions `p` with `(p div B) mod N = k`, in order, and the root absorbs nothing; it issues as many
transactions as the leaves on their slices, so, where no leaf holds a key block, none up to `N·B` bytes and
exactly one, on the first slice with counter `B`, at `N·B + 1` (43_parallel_combiner.md R221, R228). That the
slice is its whole block and the counter are marked general knowledge in 41_incremental_hasher.md R145, R150
(log entry 19). -/
def Obligations.LeafDispatch : Prop :=
  ∀ (p : B2Prim) (m : B2PState p) (data : List Byte), m.legal 0 = true →
    absorbClass 0 (.b2p p m) data = (b2pAbsorb p m 0 data).map (.b2p p) ∧
      (∀ k : Fin p.nleaf, (b2pAbsorb p m 0 data).val.leaf[k] =
        (b2Absorb p m.leaf[k] (leafBytes p k.val data)).val) ∧
      (b2pAbsorb p m 0 data).val.root = m.root ∧
      (b2pAbsorb p m 0 data).txs.length =
        ((List.finRange p.nleaf).map fun k =>
          (b2Absorb p m.leaf[k] (leafBytes p k.val data)).txs.length).sum ∧
      ((∀ k : Fin p.nleaf, m.leaf[k].received = 0) →
        (data.length ≤ p.nleaf * b2Block p → (b2pAbsorb p m 0 data).txs = []) ∧
          (data.length = p.nleaf * b2Block p + 1 →
            (b2pAbsorb p m 0 data).txs.map (fun t => (t.block, t.counter, t.blen, t.flags)) =
              [(data.take (b2Block p), b2Block p, 0, 0)]))

/-- ABSORB, class `B3`, on a fresh engine: block `k` of the message, for every block but the last, is
compressed once, in order, with counter `k div 16` (the chunk's index), length 64 and the flags `BASE`,
`CHUNK_START` for the first of its chunk and `CHUNK_END` for the 16th (42_blake3_tree.md R183 to R185). The
chunk index on the counter input is marked general knowledge in R181. -/
def Obligations.ChunkBlocks : Prop :=
  ∀ (a : B3Alg) (keyw : ChainVal) (base : BitVec 7) (total : Nat) (data : List Byte),
    base ∈ modeFlags →
    let m : B3State := ⟨keyw, base, 0, 0, keyw, [], []⟩
    absorbClass total (.b3 a m) data = (b3Absorb m data).map (.b3 a) ∧
      ((b3Absorb m data).txs.filter fun t => t.flags &&& PARENT == 0).map
          (fun t => (t.block, t.counter, t.blen, t.flags)) =
        (List.range (ceilDiv data.length 64 - 1)).map fun k =>
          ((data.drop (64 * k)).take 64, k / 16, 64,
            base ||| (if k % 16 = 0 then 0x01 else 0) ||| (if k % 16 = 15 then 0x02 else 0))

/-- ABSORB, class `B3`: the number of chunk-block transactions is that of the blocks known not to be the
last; the number of merges is that of the carries of the chunk counter (42_blake3_tree.md R183, R186). -/
def Obligations.TreeAbsorbCost : Prop :=
  ∀ (m : B3State) (a : B3Alg) (total : Nat) (data : List Byte), m.legal a total = true →
    let m' := (b3Absorb m data).val
    let txs := (b3Absorb m data).txs
    (txs.filter fun t => t.flags &&& PARENT == 0).length =
        (ceilDiv (total + data.length) 64 - 1) - (ceilDiv total 64 - 1) ∧
      (txs.filter fun t => t.flags &&& PARENT == PARENT).length + popcount m'.cidx + m.cidx =
        m'.cidx + popcount m.cidx

/-- Chunking invariance, for every algorithm: however a message is cut into pieces, NEW, an ABSORB of each
piece and FINALIZE leave the same slots, issue the same transactions and answer FINALIZE with the same bytes
as with one ABSORB of the whole message (41_incremental_hasher.md R133). R133, which the spec derives itself,
promises the transactions up to the reordering of 20_memory.md R82; that their order is the same too is the
model's choice, log entry 18. -/
def Obligations.ChunkingInvariance : Prop :=
  ∀ (a : Alg) (c : BitVec 4) (xof : Bool) (dlen : BitVec 64) (key salt : List Byte)
    (pieces : List (List Byte)) (s : State),
    newCheck s.params.b3Ceil a xof dlen.toNat key.length salt.length = .ok () →
    ∃ (t u : State) (answer : List Byte),
      runAll ([.new a c xof dlen key salt] ++ pieces.map (.absorb c) ++ [.finalize c]) s = .next t ∧
        runAll [.new a c xof dlen key salt, .absorb c pieces.flatten, .finalize c] s = .next u ∧
        t.ctx = u.ctx ∧ t.cport = u.cport ∧
        t.rsp = s.rsp ++ responseFrame .ok [] ++
          (List.replicate pieces.length (responseFrame .ok [])).flatten ++ answer ∧
        u.rsp = s.rsp ++ responseFrame .ok [] ++ responseFrame .ok [] ++ answer

/-! ### FINALIZE -/

/-- FINALIZE: `SequenceError` on a `FREE` slot; the cached digest and no change on a `SEALED` one; the class
finalization, `XPOS` 0 and phase `SEALED` on an `ABSORBING` one. The payload is the digest, or nothing where
the context is a reader (41_incremental_hasher.md R132). `SequenceError` on a `FREE` slot is the spec's
decision D16. -/
def Obligations.FinalizeAnswers : Prop :=
  ∀ (c : BitVec 4) (s : State),
    (s.slot c = .free → exec (.finalize c) s = .next (s.failed .sequenceError)) ∧
    (∀ ctl digest z, s.slot c = .sealed ctl digest z →
      exec (.finalize c) s =
        .next { s with rsp := s.rsp ++ responseFrame .ok (if ctl.xof = true then [] else digest) }) ∧
    (∀ ctl h, s.slot c = .absorbing ctl h →
      exec (.finalize c) s = .next (s.answered c
        (.sealed { ctl with xpos := 0 } (sealClass ctl h).val.digest (sealClass ctl h).val.z)
        (sealClass ctl h).txs
        (if ctl.xof = true then [] else (sealClass ctl h).val.digest)))

/-- The padding of class `MD`: the tail, a 0x80 byte, the least number of zero bytes that fills the last
block, and the bit length of the message in `LF` bytes, little-endian for MD5 and big-endian else
(41_incremental_hasher.md R137). The reduction of the bit length is marked general knowledge in R137. -/
def Obligations.MdPadding : Prop :=
  ∀ (a : MdAlg) (t : List Byte) (n : Nat),
    ∃ (k : Nat) (len : List Byte), mdPad a t n = t ++ [0x80] ++ zeros k ++ len ∧
      len.length = mdLengthField a ∧
      (a = .md5 → leVal len = (8 * n) % 2 ^ (8 * mdLengthField a)) ∧
      (a ≠ .md5 → leVal len.reverse = (8 * n) % 2 ^ (8 * mdLengthField a)) ∧
      (t.length + 1 + k + mdLengthField a) % mdBlock a = 0 ∧
      ∀ j, (t.length + 1 + j + mdLengthField a) % mdBlock a = 0 → k ≤ j

/-- The padded tail is one block or two: `B` 64 and `LF` 8, so one block up to a tail of 55 bytes, for MD5,
SHA-1, SHA-224 and SHA-256; `B` 128 and `LF` 16, so one block up to 111, for the SHA-512 family
(41_incremental_hasher.md R134, R138). The spec derives R138 from R137; which algorithm takes which width is
marked general knowledge in R134. -/
def Obligations.OneOrTwoFinalBlocks : Prop :=
  (∀ a ∈ [MdAlg.md5, .sha1, .sha224, .sha256],
      mdBlock a = 64 ∧ mdLengthField a = 8 ∧
        ∀ (t : List Byte) (n : Nat), t.length < 64 →
          (mdPad a t n).length = if t.length ≤ 55 then 64 else 128) ∧
    ∀ a ∈ [MdAlg.sha384, .sha512, .sha512_224, .sha512_256],
      mdBlock a = 128 ∧ mdLengthField a = 16 ∧
        ∀ (t : List Byte) (n : Nat), t.length < 128 →
          (mdPad a t n).length = if t.length ≤ 111 then 128 else 256

/-- FINALIZE, class `MD`: the blocks of the padded tail are compressed in order and the digest is the first
`DLEN` bytes of the words read out in the algorithm's byte order (41_incremental_hasher.md R136, R139). The
byte orders and the truncation are marked general knowledge in 20_memory.md R65 and R139 (log entry 19); that
the sealed state keeps its tail is the model's, log entry 13. -/
def Obligations.FinalizeMd : Prop :=
  ∀ (a : MdAlg) (m : MdState a) (ctl : Ctl), m.legal ctl.total = true →
    let b := mdBlock a
    let p := mdPad a m.tail ctl.total
    let h1 := Config.compress a.prim m.h (p.take b) 0 0 0
    let h2 := Config.compress a.prim h1 (p.drop b) 0 0 0
    let bytes := fun h : HashState a.prim => if a = .md5 then leWords h.toList else beWords h.toList
    (m.tail.length ≤ b - mdLengthField a - 1 →
      sealClass ctl (.md a m) =
        ⟨⟨(bytes h1).take ctl.dlen, .md a { m with h := h1 }⟩, [⟨a.prim, m.h, p, 0, 0, 0⟩]⟩) ∧
    (b - mdLengthField a - 1 < m.tail.length →
      sealClass ctl (.md a m) =
        ⟨⟨(bytes h2).take ctl.dlen, .md a { m with h := h2 }⟩,
          [⟨a.prim, m.h, p.take b, 0, 0, 0⟩, ⟨a.prim, h1, p.drop b, 0, 0, 0⟩]⟩)

/-- The byte orders of 00_scope.md R11: byte `k` of word `i` of `LE` is the word's byte `k` counted from the
least significant, of `BE` counted from the most significant; and who uses which: `BE` the digests of SHA-1 and
SHA-2, `LE` that of MD5, of every BLAKE2 instance, the lanes of a rate block of the sponge and the output
blocks of BLAKE3 (20_memory.md R65). The notation is the spec's decision D8; which digest uses which order is
marked general knowledge in R65 (log entry 19). -/
def Obligations.WordByteOrder : Prop :=
  (∀ (w : Nat) (ws : List (BitVec w)) (i k : Nat) (hi : i < ws.length), k < w / 8 →
      (leWords ws)[i * (w / 8) + k]? = some (BitVec.ofNat 8 (ws[i].toNat / 256 ^ k)) ∧
        (beWords ws)[i * (w / 8) + k]? = some (BitVec.ofNat 8 (ws[i].toNat / 256 ^ (w / 8 - 1 - k)))) ∧
    (∀ (a : MdAlg) (m : MdState a) (ctl : Ctl),
      let h := (mdFinalize a m ctl.total).val.h
      (sealClass ctl (.md a m)).val.digest =
        (if a = .md5 then leWords h.toList else beWords h.toList).take ctl.dlen) ∧
    (∀ (p : B2Prim) (m : B2Inst p) (n : Nat),
      (b2Finalize p m n).val.2 = (leWords (b2Finalize p m n).val.1.h.toList).take n) ∧
    (∀ (a : SpongeAlg) (s0 : HashState .keccak) (p : Nat), p < rate a →
      (leWords s0.toList)[p]? = some (spongeXout a s0 p)) ∧
    ∀ (r : RootD) (p : Nat), p < 64 →
      (leWords (Config.compressB3 r.rcv r.rblock 0 r.rblen r.rflags).toList)[p]? = some (b3Xout r p)

/-- The sponge padding: the tail, the suffix byte, zeros, and 0x80 in the last byte of the block, the suffix
and 0x80 in one byte where the tail leaves only one (41_incremental_hasher.md R158, R160), with the rate, the
suffix and the default length of each algorithm (R156). The padding and the table are marked general knowledge
in R158 and R156 (log entry 19). -/
def Obligations.SpongePadding : Prop :=
  ∀ (a : SpongeAlg) (r : Nat) (sfx : Byte) (default : Nat),
    (a, r, sfx, default) ∈
      [(SpongeAlg.sha3_224, 144, (0x06 : Byte), 28), (.sha3_256, 136, 0x06, 32),
        (.sha3_384, 104, 0x06, 48), (.sha3_512, 72, 0x06, 64),
        (.shake128, 168, 0x1F, 32), (.shake256, 136, 0x1F, 64)] →
    rate a = r ∧ suffix a = sfx ∧ spongeDlen a = default ∧
      ∀ tail : List Byte,
        (tail.length < r - 1 →
          spongePad a tail = tail ++ [sfx] ++ zeros (r - 2 - tail.length) ++ [0x80]) ∧
          (tail.length = r - 1 → spongePad a tail = tail ++ [sfx ^^^ 0x80])

/-- FINALIZE, class `SPONGE`: one absorbing transaction on the padded tail gives `S_0`; a reader squeezes
nothing; else the digest is the first `DLEN` bytes of the output stream of `S_0`, at the cost of one
permutation for each further rate block (41_incremental_hasher.md R158, R159, 44_xof_adapter.md R247). The
padding and the order of the lanes are marked general knowledge in R158 and R247; that the sealed state keeps
its tail, which R29 calls not meaningful there, is the model's, log entry 13. -/
def Obligations.FinalizeSponge : Prop :=
  ∀ (a : SpongeAlg) (m : SpongeState) (ctl : Ctl),
    let s0 := Config.compress .keccak m.s (spongePad a m.tail) 0 0 0
    let r := sealClass ctl (.sponge a m)
    let tx : Tx := ⟨.keccak, m.s, spongePad a m.tail, 0, 0, 0⟩
    (ctl.xof = true → r.val.z = .sponge a { m with s := s0 } ∧ r.txs = [tx]) ∧
      (ctl.xof = false →
        r.val.digest = (List.range ctl.dlen).map (spongeXout a s0) ∧
          r.txs.head? = some tx ∧ r.txs.length = 1 + (ceilDiv ctl.dlen (rate a) - 1))

/-- FINALIZE, class `B2`: one transaction on the zero-padded tail, counter the bytes received, flags
`FINAL_BLOCK` and, for a last node, `LAST_NODE`; the digest is the first `DLEN` bytes of the little-endian
words (41_incremental_hasher.md R147, R149). The counter, the zero padding and the final flag are marked
general knowledge in R145 (log entry 19); that the sealed state keeps its tail is the model's, log entry
13. -/
def Obligations.FinalizeB2 : Prop :=
  ∀ (p : B2Prim) (m : B2Inst p) (ctl : Ctl),
    let t := m.t + m.tail.length
    let f : BitVec 7 := if m.lastNode = true then 0x3 else 0x1
    let h := Config.compress p.prim m.h (zpad m.tail (b2Block p)) (t % 2 ^ (2 * p.prim.width)) 0 f
    sealClass ctl (.b2 p m) =
      ⟨⟨(leWords h.toList).take ctl.dlen, .b2 p { m with h := h, t := t }⟩,
        [⟨p.prim, m.h, zpad m.tail (b2Block p), t % 2 ^ (2 * p.prim.width), 0, f⟩]⟩

/-- The blocks, counters and flags of a BLAKE2 instance over its whole input stream, the key block first:
`B, 2B, …` and no flag for the blocks that are not the last; the length of the stream and `FINAL_BLOCK` for
the last, zero-padded one (41_incremental_hasher.md R146, R147, R150). The meaning of the counter is marked
general knowledge in R150. -/
def Obligations.Blake2Trace : Prop :=
  ∀ (p : B2Prim) (h : HashState p.prim) (last : Bool) (keyBlk data : List Byte) (n : Nat),
    (keyBlk = [] ∨ keyBlk.length = b2Block p) →
    let stream := keyBlk ++ data
    let k := (stream.length - 1) / b2Block p
    (((b2Absorb p ⟨h, 0, keyBlk, last⟩ data).bind fun m => b2Finalize p m n).txs.map fun t =>
        (t.block, t.counter, t.blen, t.flags)) =
      ((List.range k).map fun j =>
        ((stream.drop (j * b2Block p)).take (b2Block p),
          ((j + 1) * b2Block p) % 2 ^ (2 * p.prim.width), 0, 0)) ++
      [(zpad (stream.drop (k * b2Block p)) (b2Block p),
        stream.length % 2 ^ (2 * p.prim.width), 0, if last = true then 0x3 else 0x1)]

/-- FINALIZE, class `B2P`: the counters and flags of its transactions, in the order of the sequential
reference: each leaf in turn, the root's blocks as the pairs arrive, the root's last block
(43_parallel_combiner.md R223, R224, R226). The order is the model's choice among those 20_memory.md R82
allows, log entry 18; the counters are marked general knowledge in 41_incremental_hasher.md R150 (log entry
19). -/
def Obligations.CombinerTrace : Prop :=
  (∀ (m : B2PState .b2b) (ctl : Ctl), m.legal ctl.total = true →
    let f := fun (k : Fin 4) => (m.leaf[k].received % 2 ^ 128, if k = 3 then (0x3 : BitVec 7) else 0x1)
    (sealClass ctl (.b2p .b2b m)).txs.map (fun t => (t.counter, t.flags)) =
      [f 0, f 1, f 2, f 3, (128, 0), (256, 0x3)]) ∧
    ∀ (m : B2PState .b2s) (ctl : Ctl), m.legal ctl.total = true →
      let f := fun (k : Fin 8) =>
        (m.leaf[k].received % 2 ^ 64, if k = 7 then (0x3 : BitVec 7) else 0x1)
      (sealClass ctl (.b2p .b2s m)).txs.map (fun t => (t.counter, t.flags)) =
        [f 0, f 1, f 2, f 3, (64, 0), f 4, f 5, (128, 0), f 6, f 7, (192, 0), (256, 0x3)]

/-- FINALIZE, class `B2P`: the root absorbs the leaves' digests at full width, in order, and only its own
output is cut to `DLEN` bytes (43_parallel_combiner.md R224, R225). -/
def Obligations.CombinerDigest : Prop :=
  ∀ (p : B2Prim) (m : B2PState p) (ctl : Ctl),
    let d := fun k : Fin p.nleaf =>
      leWords (Config.compress p.prim m.leaf[k].h (zpad m.leaf[k].tail (b2Block p))
        (m.leaf[k].received % 2 ^ (2 * p.prim.width)) 0
        (if m.leaf[k].lastNode = true then 0x3 else 0x1)).toList
    (∀ k, (d k).length = b2Out p) ∧
      (sealClass ctl (.b2p p m)).val.digest =
        (b2Finalize p (b2Absorb p m.root ((List.finRange p.nleaf).flatMap d)).val ctl.dlen).val.2

/-- FINALIZE, class `B2X`: the outer hash at full width gives `H0`; a reader expands nothing; else the digest
is the concatenation of `⌈DLEN/OB⌉` expansion blocks, the last one cut, one transaction each
(44_xof_adapter.md R257, R258, R259). The expansion parameters are unverified: log entry 17; that the sealed
state keeps the outer instance's tail is the model's, log entry 13. -/
def Obligations.FinalizeB2x : Prop :=
  ∀ (p : B2Prim) (m : B2XState p) (ctl : Ctl),
    let t := m.inst.t + m.inst.tail.length
    let f : BitVec 7 := if m.inst.lastNode = true then 0x3 else 0x1
    let h := Config.compress p.prim m.inst.h (zpad m.inst.tail (b2Block p))
      (t % 2 ^ (2 * p.prim.width)) 0 f
    let outer : Tx := ⟨p.prim, m.inst.h, zpad m.inst.tail (b2Block p), t % 2 ^ (2 * p.prim.width), 0, f⟩
    let h0 := leWords h.toList
    let z : Sealed := .b2x p { m with inst := { m.inst with h := h, t := t } } h0
    let osz := fun b => min (b2Out p) (m.xlen - b2Out p * b)
    let iv := fun b => b2Init p ⟨osz b, 0, 0, 0, b2Out p, b, m.xlen, 0, b2Out p, m.saltp⟩
    let nb := ceilDiv ctl.dlen (b2Out p)
    h0.length = b2Out p ∧
      (ctl.xof = true → (sealClass ctl (.b2x p m)).val.z = z ∧
        (sealClass ctl (.b2x p m)).txs = [outer]) ∧
      (ctl.xof = false → m.xlen = ctl.dlen → ctl.dlen < xlenSent p →
        sealClass ctl (.b2x p m) =
          ⟨⟨(List.range nb).flatMap fun b =>
              (leWords (Config.compress p.prim (iv b) (zpad h0 (b2Block p)) (b2Out p) 0 0x1).toList).take
                (osz b), z⟩,
            outer :: (List.range nb).map fun b =>
              ⟨p.prim, iv b, zpad h0 (b2Block p), b2Out p, 0, 0x1⟩⟩)

/-- The root descriptor: with an empty stack, which is at most one chunk, the held block with `CHUNK_END` and
`ROOT` and no transaction; else the merge of the oldest entry with the last chunk's chaining value folded over
the younger entries, the most recent first, with `PARENT` and `ROOT`, after one chunk-block transaction and one
merge for every other entry (42_blake3_tree.md R188 to R192). R191 the spec derives itself; the counter and the
inputs of a PARENT transaction are marked general knowledge in R181 and R187 (log entry 19). -/
def Obligations.RootDescriptor : Prop :=
  ∀ (m : B3State) (a : B3Alg) (total : Nat), m.legal a total = true →
    let start : BitVec 7 := if m.blocks = 0 then 0x01 else 0
    (m.stack = [] ↔ total ≤ 1024) ∧
      (m.stack = [] → b3Root m =
        .pure ⟨m.cv, zpad m.tail 64, m.tail.length, m.base ||| start ||| 0x02 ||| 0x08⟩) ∧
      (∀ oldest, m.stack.getLast? = some oldest →
        let parent := fun left right : ChainVal => firstEight (Config.compressB3 m.keyw
          (leWords left.toList ++ leWords right.toList) 0 64 (m.base ||| 0x04))
        let chunk := firstEight (Config.compressB3 m.cv (zpad m.tail 64) m.cidx m.tail.length
          (m.base ||| start ||| 0x02))
        let right := m.stack.dropLast.foldl (fun cv left => parent left cv) chunk
        (b3Root m).val =
          ⟨m.keyw, leWords oldest.toList ++ leWords right.toList, 64, m.base ||| 0x04 ||| 0x08⟩) ∧
      (b3Root m).txs.length = m.stack.length ∧
      (m.stack ≠ [] → (b3Root m).txs.head? = some
        ⟨.b3, m.cv, zpad m.tail 64, m.cidx, m.tail.length, m.base ||| start ||| 0x02⟩)

/-- The tree: absorbing a message on a fresh engine and sealing it gives the root descriptor of the tree
built from the top, in which the left subtree covers the largest power of two of chunks strictly less than
their number (42_blake3_tree.md R194). The spec derives it from R186 and R188. -/
def Obligations.TreeShape : Prop :=
  ∀ (keyw : ChainVal) (base : BitVec 7) (msg : List Byte),
    ((b3Absorb ⟨keyw, base, 0, 0, keyw, [], []⟩ msg).bind b3Root).val = treeRoot keyw base msg

/-- FINALIZE, class `B3`: the root descriptor, the stack consumed; a reader issues no output transaction; else
the digest is the first `DLEN` bytes of the output stream, one transaction for each block of 64 bytes
(42_blake3_tree.md R188, 44_xof_adapter.md R251). The other fields of the class state keep their last
values: log entry 13. -/
def Obligations.FinalizeB3 : Prop :=
  ∀ (a : B3Alg) (m : B3State) (ctl : Ctl),
    let r := (b3Root m).val
    let z : Sealed := .b3 a { m with stack := [] } r
    (ctl.xof = true → (sealClass ctl (.b3 a m)).val.z = z ∧
      (sealClass ctl (.b3 a m)).txs = (b3Root m).txs) ∧
      (ctl.xof = false → sealClass ctl (.b3 a m) =
        ⟨⟨(List.range ctl.dlen).map (b3Xout r), z⟩,
          (b3Root m).txs ++ (List.range (ceilDiv ctl.dlen 64)).map fun j =>
            ⟨.b3, r.rcv, r.rblock, j, r.rblen, r.rflags⟩⟩)

/-- What FINALIZE costs in transactions: 1 or 2 for `MD`; 1 for `SPONGE`, `B2` and `B2X`; one for each leaf
and one for each pair of leaves for `B2P`; one for each stack entry for `B3`; and, for a fixed digest, the
output blocks or permutations that `DLEN` takes (70_reset_and_hazards.md R368). -/
def Obligations.FinalizeCost : Prop :=
  ∀ (ceil : Nat) (ctl : Ctl) (h : Hasher), h.legal ctl = true → ctl.legal ceil h.alg = true →
    let out := fun n => if ctl.xof = true then 0 else n
    (sealClass ctl h).txs.length =
      match h with
      | .md a m => if m.tail.length ≤ mdBlock a - mdLengthField a - 1 then 1 else 2
      | .sponge a _ => 1 + out (ceilDiv ctl.dlen (rate a) - 1)
      | .b2 _ _ => 1
      | .b2p p _ => p.nleaf + p.nleaf / 2
      | .b2x p _ => 1 + out (ceilDiv ctl.dlen (b2Out p))
      | .b3 _ m => m.stack.length + out (ceilDiv ctl.dlen 64)

/-! ### The reader commands (44_xof_adapter.md) -/

/-- Every reader command on a slot that is not a sealed reader raises `SequenceError`, whatever its
operands; on a sealed reader a read of no bytes answers `OK` with no payload and changes nothing, the cursor
included (44_xof_adapter.md R242, R243, R245). `SequenceError` for a slot that is `FREE` or has a fixed
digest is the spec's decision D18, a positioned read of no bytes its decision D17. -/
def Obligations.ReaderCheck : Prop :=
  ∀ (c : BitVec 4) (pos len : BitVec 64) (s : State),
    ((∀ ctl digest z, s.slot c = .sealed ctl digest z → ctl.xof = false) →
      exec (.xofRead c len) s = .next (s.failed .sequenceError) ∧
        exec (.xofSeek c pos) s = .next (s.failed .sequenceError) ∧
        exec (.xofReadAt c pos len) s = .next (s.failed .sequenceError)) ∧
    ∀ ctl digest z, s.slot c = .sealed ctl digest z → ctl.xof = true →
      exec (.xofRead c 0) s = .next { s with rsp := s.rsp ++ responseFrame .ok [] } ∧
        exec (.xofReadAt c pos 0) s = .next { s with rsp := s.rsp ++ responseFrame .ok [] }

/-- XOF_READ of at least one byte on a BLAKE3 reader: within the ceiling it answers the bytes of the output
stream from the cursor, one transaction for each output block touched, in increasing order, and advances the
cursor; beyond it raises `UnsupportedLength` (44_xof_adapter.md R243, R251, R252). `UnsupportedLength` is
the spec's decision D20, the 16 result words are marked general knowledge in R251. -/
def Obligations.ReadB3 : Prop :=
  ∀ (c : BitVec 4) (len : BitVec 64) (s : State) (ctl : Ctl) (digest : List Byte) (a : B3Alg)
    (m : B3State) (r : RootD),
    s.slot c = .sealed ctl digest (.b3 a m r) → ctl.xof = true → 0 < len.toNat →
    let p := ctl.xpos
    let n := len.toNat
    (p + n ≤ s.params.b3Ceil →
      exec (.xofRead c len) s = .next (s.answered c
        (.sealed { ctl with xpos := p + n } digest (.b3 a m r))
        ((List.range ((p + n - 1) / 64 - p / 64 + 1)).map fun j =>
          ⟨.b3, r.rcv, r.rblock, p / 64 + j, r.rblen, r.rflags⟩)
        ((List.range n).map fun i => b3Xout r (p + i)))) ∧
      (s.params.b3Ceil < p + n → exec (.xofRead c len) s = .next (s.failed .unsupportedLength))

/-- XOF_READ of at least one byte on a BLAKE2X reader: the bytes of the output stream from the cursor, one
transaction for each expansion block touched, the block index reduced to 32 bits; the cursor advances modulo
the period, 2^38 or 2^37 bytes (44_xof_adapter.md R243, R255, R258, R260, R261). The expansion parameters are
unverified: log entry 17. -/
def Obligations.ReadB2x : Prop :=
  ∀ (c : BitVec 4) (len : BitVec 64) (s : State) (ctl : Ctl) (digest : List Byte) (q : B2Prim)
    (m : B2XState q) (h0 : List Byte),
    s.slot c = .sealed ctl digest (.b2x q m h0) → ctl.xof = true → 0 < len.toNat →
    let p := ctl.xpos
    let n := len.toNat
    let ob := b2Out q
    let period : Nat := match q with | .b2b => 2 ^ 38 | .b2s => 2 ^ 37
    exec (.xofRead c len) s = .next (s.answered c
      (.sealed { ctl with xpos := (p + n) % period } digest (.b2x q m h0))
      ((List.range (ceilDiv (p % ob + n) ob)).map fun j =>
        ⟨q.prim,
          b2Init q ⟨ob, 0, 0, 0, ob, (p / ob + j) % 2 ^ 32, m.xlen, 0, ob, m.saltp⟩,
          zpad h0 (b2Block q), ob, 0, 0x1⟩)
      ((List.range n).map fun i => b2xXout q true m h0 (p + i)))

/-- XOF_READ of at least one byte on a SHAKE reader whose squeeze state is that of its cursor: the bytes of
the output stream from the cursor, one permutation for each rate boundary crossed; the cursor advances and
the squeeze state is again that of the cursor (44_xof_adapter.md R243, R247, R248). The order of the lanes
is marked general knowledge in R247. -/
def Obligations.ReadSponge : Prop :=
  ∀ (c : BitVec 4) (len : BitVec 64) (s : State) (ctl : Ctl) (digest : List Byte) (a : SpongeAlg)
    (s0 : HashState .keccak) (tail : List Byte),
    s.slot c = .sealed ctl digest (.sponge a ⟨squeezeState a s0 ctl.xpos, tail⟩) → ctl.xof = true →
    0 < len.toNat →
    let p := ctl.xpos
    let n := len.toNat
    ∃ txs : List Tx,
      exec (.xofRead c len) s = .next (s.answered c
        (.sealed { ctl with xpos := p + n } digest (.sponge a ⟨squeezeState a s0 (p + n), tail⟩))
        txs ((List.range n).map fun i => spongeXout a s0 (p + i))) ∧
      txs.length = (ceilDiv (p + n) (rate a) - 1) - (ceilDiv p (rate a) - 1)

/-- XOF_SEEK: a BLAKE3 reader moves its cursor within the ceiling and refuses beyond; a BLAKE2X reader moves
it modulo the period, 2^38 or 2^37 bytes; a SHAKE reader refuses to go back and else squeezes and drops what
lies between (44_xof_adapter.md R244, R249, R252, R255). The error classes are the spec's decisions D19 and
D20. -/
def Obligations.SeekAnswers : Prop :=
  ∀ (c : BitVec 4) (pos : BitVec 64) (s : State) (ctl : Ctl) (digest : List Byte), ctl.xof = true →
    let x := pos.toNat
    (∀ a m r, s.slot c = .sealed ctl digest (.b3 a m r) →
      (x ≤ s.params.b3Ceil → exec (.xofSeek c pos) s = .next (s.answered c
        (.sealed { ctl with xpos := x } digest (.b3 a m r)) [] [])) ∧
      (s.params.b3Ceil < x → exec (.xofSeek c pos) s = .next (s.failed .unsupportedLength))) ∧
    (∀ q m h0, s.slot c = .sealed ctl digest (.b2x q m h0) →
      exec (.xofSeek c pos) s = .next (s.answered c
        (.sealed { ctl with xpos := x % (match q with | .b2b => 2 ^ 38 | .b2s => 2 ^ 37) } digest
          (.b2x q m h0)) [] [])) ∧
    ∀ a s0 tail, s.slot c = .sealed ctl digest (.sponge a ⟨squeezeState a s0 ctl.xpos, tail⟩) →
      (x < ctl.xpos → exec (.xofSeek c pos) s = .next (s.failed .sequenceError)) ∧
      (ctl.xpos ≤ x → ∃ txs : List Tx,
        exec (.xofSeek c pos) s = .next (s.answered c
          (.sealed { ctl with xpos := x } digest (.sponge a ⟨squeezeState a s0 x, tail⟩)) txs []) ∧
        txs.length = (ceilDiv x (rate a) - 1) - (ceilDiv ctl.xpos (rate a) - 1))

/-- XOF_READ_AT of at least one byte succeeds exactly when XOF_SEEK and then XOF_READ succeed, and then gives
the same bytes, the same slots and the same transactions, in one response (44_xof_adapter.md R245). -/
def Obligations.ReadAtIsSeekThenRead : Prop :=
  ∀ (c : BitVec 4) (pos len : BitVec 64) (s : State) (out : List Byte) (ctx : Vector Slot Config.maxSlots)
    (cport : List Tx), 0 < len.toNat →
    (exec (.xofReadAt c pos len) s =
        .next { s with ctx := ctx, cport := cport, rsp := s.rsp ++ responseFrame .ok out } ↔
      runAll [.xofSeek c pos, .xofRead c len] s =
        .next { s with
          ctx := ctx, cport := cport
          rsp := s.rsp ++ responseFrame .ok [] ++ responseFrame .ok out })

/-- XOF_READ_AT, on readers of the three mechanisms: where it is accepted it answers the slice of the output
stream at the position, wherever the cursor was, and leaves the cursor behind it; a SHAKE reader refuses to
go back, a BLAKE3 reader refuses what lies beyond the ceiling, both with nothing changed (44_xof_adapter.md
R245, R246). The error classes are the spec's decisions D19 and D20; the spec derives R246. -/
def Obligations.ReadAtSlice : Prop :=
  ∀ (c : BitVec 4) (pos len : BitVec 64) (s : State) (ctl : Ctl) (digest : List Byte),
    ctl.xof = true → 0 < len.toNat →
    let x := pos.toNat
    let n := len.toNat
    (∀ a m r, s.slot c = .sealed ctl digest (.b3 a m r) →
      (x + n ≤ s.params.b3Ceil → ∃ txs,
        exec (.xofReadAt c pos len) s = .next (s.answered c
          (.sealed { ctl with xpos := x + n } digest (.b3 a m r)) txs
          ((List.range n).map fun i => b3Xout r (x + i)))) ∧
      (s.params.b3Ceil < x + n →
        exec (.xofReadAt c pos len) s = .next (s.failed .unsupportedLength))) ∧
    (∀ q m h0, s.slot c = .sealed ctl digest (.b2x q m h0) → ∃ txs,
      exec (.xofReadAt c pos len) s = .next (s.answered c
        (.sealed { ctl with xpos := (x + n) % b2xPeriod q } digest (.b2x q m h0)) txs
        ((List.range n).map fun i => b2xXout q true m h0 ((x + i) % b2xPeriod q)))) ∧
    ∀ a s0 tail, s.slot c = .sealed ctl digest (.sponge a ⟨squeezeState a s0 ctl.xpos, tail⟩) →
      (x < ctl.xpos → exec (.xofReadAt c pos len) s = .next (s.failed .sequenceError)) ∧
      (ctl.xpos ≤ x → ∃ txs,
        exec (.xofReadAt c pos len) s = .next (s.answered c
          (.sealed { ctl with xpos := x + n } digest (.sponge a ⟨squeezeState a s0 (x + n), tail⟩)) txs
          ((List.range n).map fun i => spongeXout a s0 (x + i))))

/-- Consecutive reads concatenate: reading `a` and then `b` bytes answers the bytes, and leaves the slots, of
reading `a + b` (44_xof_adapter.md R243). -/
def Obligations.ReadsConcatenate : Prop :=
  ∀ (c : BitVec 4) (a b : BitVec 64) (s t u : State) (outA outB : List Byte),
    a.toNat + b.toNat < 2 ^ 64 →
    exec (.xofRead c a) s = .next t → t.rsp = s.rsp ++ responseFrame .ok outA →
    exec (.xofRead c b) t = .next u → u.rsp = t.rsp ++ responseFrame .ok outB →
    ∃ v, exec (.xofRead c (a + b)) s = .next v ∧ v.ctx = u.ctx ∧
      v.rsp = s.rsp ++ responseFrame .ok (outA ++ outB)

/-- The prefix property of BLAKE3: a longer digest of the same message and key extends a shorter one, and a
reader's stream extends both (44_xof_adapter.md R253). The spec derives it from R251 and R188. -/
def Obligations.PrefixProperty : Prop :=
  ∀ (alg : B3Alg) (c : BitVec 4) (key msg : List Byte) (a b : BitVec 64) (s : State),
    keyFits (.b3 alg) key.length = true → 0 < a.toNat → a.toNat < b.toNat →
    b.toNat ≤ s.params.b3Ceil →
    ∃ (t u v : State) (x y : List Byte),
      runAll [.new (.b3 alg) c false a key [], .absorb c msg, .finalize c] s = .next t ∧
        runAll [.new (.b3 alg) c false b key [], .absorb c msg, .finalize c] s = .next u ∧
        runAll [.new (.b3 alg) c true 0 key [], .absorb c msg, .finalize c, .xofReadAt c 0 b] s =
          .next v ∧
        t.rsp = s.rsp ++ responseFrame .ok [] ++ responseFrame .ok [] ++ responseFrame .ok x ∧
        u.rsp = s.rsp ++ responseFrame .ok [] ++ responseFrame .ok [] ++ responseFrame .ok y ∧
        v.rsp = s.rsp ++ responseFrame .ok [] ++ responseFrame .ok [] ++ responseFrame .ok [] ++
          responseFrame .ok y ∧
        x.length = a.toNat ∧ x = y.take a.toNat

/-! ### The mode flags of BLAKE3 -/

/-- The mode flag is in the flags of every chunk-block transaction, every merge and the root descriptor, and
no transaction but the output ones carries `ROOT` (42_blake3_tree.md R190, R196). -/
def Obligations.ModeFlagEverywhere : Prop :=
  ∀ (m : B3State) (data : List Byte),
    m.base ∈ modeFlags →
    (∀ t ∈ (b3Absorb m data).txs ++ (b3Root m).txs,
      t.prim = .b3 ∧ t.flags &&& m.base = m.base ∧ t.flags &&& ROOT = 0) ∧
      (b3Root m).val.rflags &&& m.base = m.base ∧ (b3Root m).val.rflags &&& ROOT = ROOT

/-- Every transaction of NEW for derive-key carries `DERIVE_KEY_CONTEXT` and no other mode flag; from a
legal state no other command ever sends that flag (45_keying_construction.md R294, 10_state.md R33). The
context string in the key payload is the spec's decision D25. -/
def Obligations.ContextFlagOnlyInNew : Prop :=
  (∀ (c : BitVec 4) (xof : Bool) (dlen : BitVec 64) (context salt : List Byte) (s t : State),
      exec (.newBlake3DeriveKey c xof dlen context salt) s = .next t →
      ∀ x ∈ t.cport.drop s.cport.length, x.prim = .b3 ∧ x.flags &&& 0x70 = 0x20) ∧
    ∀ (i : Instr) (s t : State), s.Legal → i.newAlg ≠ some (.b3 .deriveKey) → exec i s = .next t →
      ∀ x ∈ t.cport.drop s.cport.length, x.prim = .b3 → x.flags &&& 0x20 = 0

end
end

