-- ==== Sys2Proof/Laws/Bytes.lean ====
section
/-! SUPPORT. Lengths and bytes of the conversions of 00_scope.md R11. -/

namespace Sys2Proof

@[simp] theorem leBytes_length (n v : Nat) : (leBytes n v).length = n := by
  induction n generalizing v with
  | zero => rfl
  | succ n ih => simp [leBytes, ih]

@[simp] theorem beBytes_length (n v : Nat) : (beBytes n v).length = n := by simp [beBytes]

@[simp] theorem zeros_length (k : Nat) : (zeros k).length = k := by simp [zeros]

@[simp] theorem zpad_length (s : List Byte) (n : Nat) : (zpad s n).length = max s.length n := by
  simp [zpad]; omega

theorem zpad_of_length_eq {s : List Byte} {n : Nat} (h : s.length = n) : zpad s n = s := by
  simp [zpad, zeros, h]

/-- Byte `k` of `le_N(v)`. -/
theorem leBytes_getElem (n v k : Nat) (hk : k < (leBytes n v).length) :
    (leBytes n v)[k] = BitVec.ofNat 8 (v / 256 ^ k) := by
  induction n generalizing v k with
  | zero => simp [leBytes] at hk
  | succ n ih =>
    cases k with
    | zero => simp [leBytes]
    | succ k =>
      simp only [leBytes, List.getElem_cons_succ]
      rw [ih, Nat.div_div_eq_div_mul, Nat.pow_succ, Nat.mul_comm]

/-- `le_N⁻¹` undoes `le_N`, up to the width. -/
theorem leVal_leBytes (n v : Nat) : leVal (leBytes n v) = v % 256 ^ n := by
  induction n generalizing v with
  | zero => simp [leBytes, leVal, Nat.mod_one]
  | succ n ih =>
    have h : v % 256 ^ (n + 1) = v % 256 + 256 * (v / 256 % 256 ^ n) := by
      rw [Nat.pow_succ, Nat.mul_comm, Nat.mod_mul]
    simp only [leBytes, leVal, ih, h, BitVec.toNat_ofNat]

theorem leVal_lt (bs : List Byte) : leVal bs < 256 ^ bs.length := by
  induction bs with
  | nil => simp [leVal]
  | cons b bs ih =>
    have := b.isLt
    simp only [leVal, List.length_cons, Nat.pow_succ]
    omega

/-- `le_N` undoes `le_N⁻¹`. -/
theorem leBytes_leVal (bs : List Byte) : leBytes bs.length (leVal bs) = bs := by
  induction bs with
  | nil => rfl
  | cons b bs ih =>
    have hb := b.isLt
    have h1 : BitVec.ofNat 8 (b.toNat + 256 * leVal bs) = b := by
      apply BitVec.eq_of_toNat_eq
      simp only [BitVec.toNat_ofNat]
      omega
    have h2 : (b.toNat + 256 * leVal bs) / 256 = leVal bs := by omega
    simp only [List.length_cons, leBytes, leVal, h1, h2, ih]

@[simp] theorem leWords_length {w : Nat} (ws : List (BitVec w)) :
    (leWords ws).length = ws.length * (w / 8) := by
  simp [leWords, List.length_flatMap]

@[simp] theorem beWords_length {w : Nat} (ws : List (BitVec w)) :
    (beWords ws).length = ws.length * (w / 8) := by
  simp [beWords, List.length_flatMap]

@[simp] theorem lewWords_length (w n : Nat) (s : List Byte) : (lewWords w n s).length = n := by
  simp [lewWords]

end Sys2Proof

namespace Sys2Proof.Machine

theorem mdBlock_pos (a : MdAlg) : 0 < mdBlock a := by cases a <;> decide
theorem rate_pos (a : SpongeAlg) : 0 < rate a := by cases a <;> decide
theorem rate_le (a : SpongeAlg) : rate a ≤ 200 := by cases a <;> decide
theorem b2Block_pos (p : B2Prim) : 0 < b2Block p := by cases p <;> decide
theorem b2Out_pos (p : B2Prim) : 0 < b2Out p := by cases p <;> decide

/-- A pair of leaf digests is one block (43_parallel_combiner.md R223). -/
theorem b2Block_eq (p : B2Prim) : b2Block p = 2 * b2Out p := by cases p <;> rfl

@[simp] theorem b2Pblock_length (p : B2Prim) (f : B2Params) :
    (b2Pblock p f).length = max (b2Out p) (b2Out p / 2 + f.saltpers.length) := by
  cases p <;> simp [b2Pblock, b2Out] <;> omega

theorem keyBlock_cases (p : B2Prim) (key : List Byte) (h : key.length ≤ b2Out p) :
    (key = [] ∧ keyBlock p key = []) ∨ (key ≠ [] ∧ (keyBlock p key).length = b2Block p) := by
  by_cases hk : key = []
  · exact .inl ⟨hk, by simp [keyBlock, hk]⟩
  · refine .inr ⟨hk, ?_⟩
    have h0 : 0 < key.length := List.length_pos_of_ne_nil hk
    have hb := b2Block_eq p
    rw [keyBlock, if_pos h0, zpad_length]
    omega

end Sys2Proof.Machine
end

