-- ==== Sys2Proof/Laws/Port.lean ====
section
/-! SUPPORT. Traced values and the loops over blocks: what each can do, once. -/

namespace Sys2Proof.Machine

/-! ### Traced values -/

theorem traced_ext {α : Type} {x y : Traced α} (hv : x.val = y.val) (ht : x.txs = y.txs) : x = y := by
  cases x; cases y; cases hv; cases ht; rfl

@[simp] theorem pure_val {α : Type} (a : α) : (Traced.pure a).val = a := rfl
@[simp] theorem pure_txs {α : Type} (a : α) : (Traced.pure a).txs = [] := rfl
@[simp] theorem bind_val {α β : Type} (x : Traced α) (f : α → Traced β) :
    (x.bind f).val = (f x.val).val := rfl
@[simp] theorem bind_txs {α β : Type} (x : Traced α) (f : α → Traced β) :
    (x.bind f).txs = x.txs ++ (f x.val).txs := rfl
@[simp] theorem map_val {α β : Type} (f : α → β) (x : Traced α) : (x.map f).val = f x.val := rfl
@[simp] theorem map_txs {α β : Type} (f : α → β) (x : Traced α) : (x.map f).txs = x.txs := rfl

@[simp] theorem pure_bind {α β : Type} (a : α) (f : α → Traced β) : (Traced.pure a).bind f = f a :=
  traced_ext rfl (by simp)

@[simp] theorem bind_pure {α : Type} (x : Traced α) : x.bind .pure = x := traced_ext rfl (by simp)

theorem bind_assoc {α β γ : Type} (x : Traced α) (f : α → Traced β) (g : β → Traced γ) :
    (x.bind f).bind g = x.bind fun a => (f a).bind g :=
  traced_ext rfl (by simp)

theorem map_eq_bind {α β : Type} (f : α → β) (x : Traced α) : x.map f = x.bind fun a => .pure (f a) :=
  traced_ext rfl (by simp)

theorem map_bind {α β γ : Type} (f : α → β) (x : Traced α) (g : β → Traced γ) :
    (x.map f).bind g = x.bind fun a => g (f a) := rfl

theorem bind_map {α β γ : Type} (x : Traced α) (f : α → Traced β) (g : β → γ) :
    (x.bind f).map g = x.bind fun a => (f a).map g := rfl

theorem map_map {α β γ : Type} (x : Traced α) (f : α → β) (g : β → γ) :
    (x.map f).map g = x.map fun a => g (f a) := rfl

/-- Two continuations that agree on the value give the same computation. -/
theorem bind_congr_val {α β : Type} (x : Traced α) {f g : α → Traced β} (h : f x.val = g x.val) :
    x.bind f = x.bind g := traced_ext (by simp [h]) (by simp [h])

/-! ### The port's operations -/

@[simp] theorem compress_val (P : Prim) (h : HashState P) (blk : List Byte) (ctr bl : Nat)
    (f : BitVec 7) : (compress P h blk ctr bl f).val = Config.compress P h blk ctr bl f := rfl
@[simp] theorem compress_txs (P : Prim) (h : HashState P) (blk : List Byte) (ctr bl : Nat)
    (f : BitVec 7) : (compress P h blk ctr bl f).txs = [⟨P, h, blk, ctr, bl, f⟩] := rfl
@[simp] theorem compressB3_val (cv : ChainVal) (blk : List Byte) (ctr bl : Nat) (f : BitVec 7) :
    (compressB3 cv blk ctr bl f).val = Config.compressB3 cv blk ctr bl f := rfl
@[simp] theorem compressB3_txs (cv : ChainVal) (blk : List Byte) (ctr bl : Nat) (f : BitVec 7) :
    (compressB3 cv blk ctr bl f).txs = [⟨.b3, cv, blk, ctr, bl, f⟩] := rfl
@[simp] theorem compressCv_val (cv : ChainVal) (blk : List Byte) (ctr bl : Nat) (f : BitVec 7) :
    (compressCv cv blk ctr bl f).val = firstEight (Config.compressB3 cv blk ctr bl f) := rfl
@[simp] theorem compressCv_txs (cv : ChainVal) (blk : List Byte) (ctr bl : Nat) (f : BitVec 7) :
    (compressCv cv blk ctr bl f).txs = [⟨.b3, cv, blk, ctr, bl, f⟩] := rfl

/-! ### The block loop -/

variable {σ : Type} (B : Nat) (f : σ → List Byte → Traced σ)

/-- What is left after `n` rounds. -/
theorem absorbBlocks_rest (n : Nat) (h : σ) (d : List Byte) :
    (absorbBlocks B f n h d).val.2 = d.drop (n * B) := by
  induction n generalizing h d with
  | zero => simp [absorbBlocks]
  | succ n ih => simp [absorbBlocks, ih, Nat.succ_mul, Nat.add_comm]

/-- `m + n` rounds are `m` rounds and then `n`. -/
theorem absorbBlocks_add (m n : Nat) (h : σ) (d : List Byte) :
    absorbBlocks B f (m + n) h d =
      (absorbBlocks B f m h d).bind fun r => absorbBlocks B f n r.1 r.2 := by
  induction m generalizing h d with
  | zero => simp [absorbBlocks]
  | succ m ih =>
    rw [Nat.succ_add, absorbBlocks, absorbBlocks, bind_assoc]
    congr 1
    funext h'
    exact ih _ _

/-- Bytes after the blocks that are compressed stay behind. -/
theorem absorbBlocks_append (n : Nat) (h : σ) (d e : List Byte) (hn : n * B ≤ d.length) :
    absorbBlocks B f n h (d ++ e) =
      (absorbBlocks B f n h d).map fun r => (r.1, r.2 ++ e) := by
  induction n generalizing h d with
  | zero => rfl
  | succ n ih =>
    have hB : B ≤ d.length := by
      have : B ≤ (n + 1) * B := Nat.le_mul_of_pos_left B (Nat.succ_pos n)
      omega
    rw [absorbBlocks, absorbBlocks, List.take_append_of_le_length hB,
      List.drop_append_of_le_length hB, bind_map]
    congr 1
    funext h'
    apply ih
    rw [List.length_drop]
    rw [Nat.succ_mul] at hn
    omega

/-- A property that every round keeps is kept by the loop, and one that every round's transactions have,
all transactions of the loop have. -/
theorem absorbBlocks_induct {P : σ → Prop} {Q : Tx → Prop}
    (step : ∀ h blk, P h → blk.length = B → P (f h blk).val ∧ ∀ t ∈ (f h blk).txs, Q t)
    (n : Nat) (h : σ) (d : List Byte) (hP : P h) (hn : n * B ≤ d.length) :
    P (absorbBlocks B f n h d).val.1 ∧ ∀ t ∈ (absorbBlocks B f n h d).txs, Q t := by
  induction n generalizing h d with
  | zero => exact ⟨hP, by simp [absorbBlocks]⟩
  | succ n ih =>
    rw [Nat.succ_mul] at hn
    obtain ⟨h1, h2⟩ := step h (d.take B) hP (by simp; omega)
    obtain ⟨h3, h4⟩ := ih (f h (d.take B)).val (d.drop B) h1 (by simp; omega)
    refine ⟨by simpa [absorbBlocks] using h3, ?_⟩
    intro t ht
    simp only [absorbBlocks, bind_txs, List.mem_append] at ht
    rcases ht with ht | ht
    · exact h2 t ht
    · exact h4 t ht

/-- One transaction a round gives one transaction a block. -/
theorem absorbBlocks_count (one : ∀ h blk, (f h blk).txs.length = 1) (n : Nat) (h : σ)
    (d : List Byte) : (absorbBlocks B f n h d).txs.length = n := by
  induction n generalizing h d with
  | zero => rfl
  | succ n ih => simp [absorbBlocks, one, ih, Nat.add_comm]

theorem eagerBlocks_mul_le (d : List Byte) : eagerBlocks B d * B ≤ d.length := Nat.div_mul_le_self _ _

theorem lazyBlocks_mul_le (d : List Byte) : lazyBlocks B d * B ≤ d.length :=
  le_trans (Nat.div_mul_le_self _ _) (Nat.sub_le _ _)

theorem absorbEager_tail (h : σ) (d : List Byte) :
    (absorbEager B f h d).val.2.length = d.length % B := by
  rw [absorbEager, absorbBlocks_rest, List.length_drop, eagerBlocks, Nat.mul_comm, ← Nat.mod_eq_sub]

theorem absorbLazy_tail (h : σ) (d : List Byte) :
    (absorbLazy B f h d).val.2.length = d.length - lazyBlocks B d * B := by
  rw [absorbLazy, absorbBlocks_rest, List.length_drop]

variable {B} in
/-- Lazy absorption leaves at most one block, and nothing only of nothing. -/
theorem lazy_rest (hB : 0 < B) (n : Nat) :
    n - (n - 1) / B * B ≤ B ∧ (n - (n - 1) / B * B = 0 → n = 0) := by
  have h1 := Nat.mod_lt (n - 1) hB
  have h2 := Nat.div_add_mod (n - 1) B
  rw [Nat.mul_comm] at h2
  omega

variable {B} in
theorem absorbEager_append (hB : 0 < B) (h : σ) (d e : List Byte) :
    absorbEager B f h (d ++ e) =
      (absorbEager B f h d).bind fun r => absorbEager B f r.1 (r.2 ++ e) := by
  unfold absorbEager
  have hq : eagerBlocks B (d ++ e) = eagerBlocks B d
      + eagerBlocks B ((absorbBlocks B f (eagerBlocks B d) h d).val.2 ++ e) := by
    simp only [eagerBlocks, List.length_append, absorbBlocks_rest, List.length_drop]
    have h2 := Nat.div_mul_le_self d.length B
    rw [← Nat.add_mul_div_right _ _ hB |>.trans (Nat.add_comm _ _)]
    congr 1
    omega
  rw [hq, absorbBlocks_add, absorbBlocks_append _ _ _ _ _ _ (eagerBlocks_mul_le B d), map_bind]
  exact bind_congr_val _ rfl

variable {B} in
theorem absorbLazy_append (hB : 0 < B) (h : σ) (d e : List Byte) :
    absorbLazy B f h (d ++ e) =
      (absorbLazy B f h d).bind fun r => absorbLazy B f r.1 (r.2 ++ e) := by
  unfold absorbLazy
  have hq : lazyBlocks B (d ++ e) = lazyBlocks B d
      + lazyBlocks B ((absorbBlocks B f (lazyBlocks B d) h d).val.2 ++ e) := by
    simp only [lazyBlocks, List.length_append, absorbBlocks_rest, List.length_drop]
    have h2 := Nat.div_mul_le_self (d.length - 1) B
    rw [← Nat.add_mul_div_right _ _ hB |>.trans (Nat.add_comm _ _)]
    congr 1
    omega
  rw [hq, absorbBlocks_add, absorbBlocks_append _ _ _ _ _ _ (lazyBlocks_mul_le B d), map_bind]
  exact bind_congr_val _ rfl

variable {B} in
theorem absorbEager_nil {h : σ} {d : List Byte} (hd : d.length < B) :
    absorbEager B f h d = .pure (h, d) := by
  simp [absorbEager, eagerBlocks, Nat.div_eq_of_lt hd, absorbBlocks]

variable {B} in
theorem absorbLazy_nil {h : σ} {d : List Byte} (hd : d.length ≤ B) (hB : 0 < B) :
    absorbLazy B f h d = .pure (h, d) := by
  simp [absorbLazy, lazyBlocks, Nat.div_eq_of_lt (show d.length - 1 < B by omega), absorbBlocks]

/-! ### Reading a stream of blocks -/

variable (blk : Nat → Traced (List Byte))

/-- A read of `n` bytes gives `n` bytes where every block has enough bytes. -/
theorem readBlocks_length {B : Nat} (hB : 0 < B) (fuel p n : Nat) (hf : n ≤ fuel)
    (hblk : ∀ j, p / B ≤ j → min (p + n - j * B) B ≤ (blk j).val.length) :
    (readBlocks B blk fuel p n).val.length = n := by
  induction fuel generalizing p n with
  | zero => simp [readBlocks]; omega
  | succ fuel ih =>
    rw [readBlocks]
    by_cases hn : n = 0
    · simp [hn]
    · simp only [hn, if_false, bind_val, map_val, List.length_append, List.length_take,
        List.length_drop]
      have hm := Nat.mod_lt p hB
      have hd := Nat.div_add_mod p B
      rw [Nat.mul_comm] at hd
      have h0 := hblk (p / B) le_rfl
      rw [ih (p + min (B - p % B) n) (n - min (B - p % B) n) (by omega)]
      · omega
      · intro j hj
        have : p / B ≤ j := le_trans (Nat.div_le_div_right (by omega)) hj
        have := hblk j this
        omega

/-- The transactions of a read are those of blocks it touches. -/
theorem readBlocks_txs {B : Nat} {Q : Tx → Prop} (hQ : ∀ j, ∀ t ∈ (blk j).txs, Q t) (fuel p n : Nat) :
    ∀ t ∈ (readBlocks B blk fuel p n).txs, Q t := by
  induction fuel generalizing p n with
  | zero => simp [readBlocks]
  | succ fuel ih =>
    rw [readBlocks]
    by_cases hn : n = 0
    · simp [hn]
    · intro t ht
      simp only [hn, if_false, bind_txs, map_txs, List.mem_append] at ht
      rcases ht with ht | ht
      · exact hQ _ t ht
      · exact ih _ _ t ht

end Sys2Proof.Machine
end

