-- ==== Sys2Proof/Laws/Hashers.lean ====
section
/-! SUPPORT. What absorption and finalization of the classes MD and SPONGE and of BLAKE2 instances can
do: the state they leave and the transactions they issue. -/

namespace Sys2Proof.Machine

/-! ### Class MD -/

theorem mdAbsorb_tail_length (a : MdAlg) (m : MdState a) (data : List Byte) :
    (mdAbsorb a m data).val.tail.length = (m.tail.length + data.length) % mdBlock a := by
  simp [mdAbsorb, absorbEager_tail]

/-- ABSORB takes a legal `MD` state to a legal one. -/
theorem mdAbsorb_legal (a : MdAlg) (m : MdState a) (total : Nat) (data : List Byte)
    (h : m.legal total = true) : (mdAbsorb a m data).val.legal (total + data.length) = true := by
  simp only [MdState.legal, decide_eq_true_eq] at h ⊢
  rw [mdAbsorb_tail_length, h, Nat.mod_add_mod]

/-- A transaction of class `MD`. -/
theorem mdTx_legal (a : MdAlg) (h : HashState a.prim) (blk : List Byte)
    (hb : blk.length = mdBlock a) : txLegal ⟨a.prim, h, blk, 0, 0, 0⟩ = true := by
  cases a <;> simp [mdBlock, MdAlg.prim] at hb <;> simp [txLegal, MdAlg.prim, hb]

theorem mdAbsorb_txs (a : MdAlg) (m : MdState a) (data : List Byte) :
    ∀ t ∈ (mdAbsorb a m data).txs, txLegal t = true := by
  refine (absorbBlocks_induct (P := fun _ => True) (mdBlock a) _ ?_ _ _ _ trivial
    (eagerBlocks_mul_le _ _)).2
  intro h blk _ hb
  exact ⟨trivial, by simpa using mdTx_legal a h blk hb⟩

theorem mdAbsorb_append (a : MdAlg) (m : MdState a) (d e : List Byte) :
    mdAbsorb a m (d ++ e) = (mdAbsorb a m d).bind fun m' => mdAbsorb a m' e := by
  unfold mdAbsorb
  rw [← List.append_assoc, absorbEager_append _ (mdBlock_pos a), bind_map, map_bind]

theorem mdPad_length (a : MdAlg) (t : List Byte) (n : Nat) :
    (mdPad a t n).length = t.length + 1 + mdZeroFill a t + mdLengthField a := by
  have : (mdLengthBytes a n).length = mdLengthField a := by
    unfold mdLengthBytes; split <;> simp
  simp [mdPad, this]; omega

/-- The padded tail is a whole number of blocks (41_incremental_hasher.md R137). -/
theorem mdPad_length_mod (a : MdAlg) (t : List Byte) (n : Nat) :
    (mdPad a t n).length % mdBlock a = 0 := by
  rw [mdPad_length]
  have hB := mdBlock_pos a
  have hk : mdZeroFill a t = (mdBlock a - (t.length + 1 + mdLengthField a) % mdBlock a) % mdBlock a :=
    rfl
  have hm := Nat.mod_lt (t.length + 1 + mdLengthField a) hB
  have hs : t.length + 1 + mdZeroFill a t + mdLengthField a
      = (t.length + 1 + mdLengthField a) + mdZeroFill a t := by omega
  rw [hs, hk, Nat.add_mod, Nat.mod_mod]
  generalize (t.length + 1 + mdLengthField a) % mdBlock a = r at hm
  by_cases hr : r = 0
  · simp [hr]
  · rw [Nat.mod_eq_of_lt (show mdBlock a - r < mdBlock a by omega)]
    rw [show r + (mdBlock a - r) = mdBlock a by omega, Nat.mod_self]

theorem mdFinalize_txs (a : MdAlg) (m : MdState a) (total : Nat) :
    ∀ t ∈ (mdFinalize a m total).txs, txLegal t = true := by
  refine (absorbBlocks_induct (P := fun _ => True) (mdBlock a) _ ?_ _ _ _ trivial
    (Nat.div_mul_le_self _ _)).2
  intro h blk _ hb
  exact ⟨trivial, by simpa using mdTx_legal a h blk hb⟩

@[simp] theorem mdReadout_length (a : MdAlg) (h : HashState a.prim) :
    (mdReadout a h).length = a.prim.words * (a.prim.width / 8) := by
  unfold mdReadout; split <;> simp

/-- The native digest is long enough for every legal length (41_incremental_hasher.md R134). -/
theorem mdDlen_le (a : MdAlg) : mdDlen a ≤ a.prim.words * (a.prim.width / 8) := by
  cases a <;> decide

/-! ### Class SPONGE -/

theorem spongeAbsorb_tail_length (a : SpongeAlg) (m : SpongeState) (data : List Byte) :
    (spongeAbsorb a m data).val.tail.length = (m.tail.length + data.length) % rate a := by
  simp [spongeAbsorb, absorbEager_tail]

/-- ABSORB takes a legal `SPONGE` state to a legal one. -/
theorem spongeAbsorb_legal (a : SpongeAlg) (m : SpongeState) (total : Nat) (data : List Byte)
    (h : m.legal a total = true) :
    (spongeAbsorb a m data).val.legal a (total + data.length) = true := by
  simp only [SpongeState.legal, decide_eq_true_eq] at h ⊢
  rw [spongeAbsorb_tail_length, h, Nat.mod_add_mod]

/-- A transaction of class `SPONGE`. -/
theorem spongeTx_legal (a : SpongeAlg) (s : HashState .keccak) (blk : List Byte)
    (hb : blk.length = rate a) : txLegal ⟨.keccak, s, blk, 0, 0, 0⟩ = true := by
  cases a <;> simp [rate] at hb <;> simp [txLegal, rates, hb]

theorem spongeAbsorb_txs (a : SpongeAlg) (m : SpongeState) (data : List Byte) :
    ∀ t ∈ (spongeAbsorb a m data).txs, txLegal t = true := by
  refine (absorbBlocks_induct (P := fun _ => True) (rate a) _ ?_ _ _ _ trivial
    (eagerBlocks_mul_le _ _)).2
  intro h blk _ hb
  exact ⟨trivial, by simpa using spongeTx_legal a h blk hb⟩

theorem spongeAbsorb_append (a : SpongeAlg) (m : SpongeState) (d e : List Byte) :
    spongeAbsorb a m (d ++ e) = (spongeAbsorb a m d).bind fun m' => spongeAbsorb a m' e := by
  unfold spongeAbsorb
  rw [← List.append_assoc, absorbEager_append _ (rate_pos a), bind_map, map_bind]

theorem spongePad_length (a : SpongeAlg) (tail : List Byte) (h : tail.length ≤ rate a) :
    (spongePad a tail).length = rate a := by
  simp [spongePad, Nat.max_eq_right h]

theorem spongeFinalize_txs (a : SpongeAlg) (m : SpongeState) (h : m.tail.length ≤ rate a) :
    ∀ t ∈ (spongeFinalize a m).txs, txLegal t = true := by
  simpa [spongeFinalize] using spongeTx_legal a m.s _ (spongePad_length a m.tail h)

theorem spongePermute_txs (a : SpongeAlg) (s : HashState .keccak) (xpos : Nat) :
    ∀ t ∈ (spongePermute a s xpos).txs, txLegal t = true := by
  unfold spongePermute
  split
  · simpa using spongeTx_legal a s _ (by simp)
  · simp

theorem squeezeLoop_txs (a : SpongeAlg) (fuel : Nat) (s : HashState .keccak) (xpos n : Nat) :
    ∀ t ∈ (squeezeLoop a fuel s xpos n).txs, txLegal t = true := by
  induction fuel generalizing s xpos n with
  | zero => simp [squeezeLoop]
  | succ fuel ih =>
    rw [squeezeLoop]
    split
    · simp
    · intro t ht
      simp only [bind_txs, map_txs, List.mem_append] at ht
      rcases ht with ht | ht
      · exact spongePermute_txs a s xpos t ht
      · exact ih _ _ _ t ht

/-- A squeeze of `n` bytes gives `n` bytes and moves the cursor by `n`. -/
theorem squeezeLoop_out (a : SpongeAlg) (fuel : Nat) (s : HashState .keccak) (xpos n : Nat)
    (hf : n ≤ fuel) :
    (squeezeLoop a fuel s xpos n).val.out.length = n ∧
      (squeezeLoop a fuel s xpos n).val.xpos = xpos + n := by
  induction fuel generalizing s xpos n with
  | zero => simp [squeezeLoop]; omega
  | succ fuel ih =>
    rw [squeezeLoop]
    have hr := rate_pos a
    have hr' := rate_le a
    have hm := Nat.mod_lt xpos hr
    by_cases hn : n = 0
    · simp [hn]
    · obtain ⟨h1, h2⟩ := ih (spongePermute a s xpos).val (xpos + min (rate a - xpos % rate a) n)
        (n - min (rate a - xpos % rate a) n) (by omega)
      simp only [hn, if_false, bind_val, map_val, List.length_append, List.length_take,
        List.length_drop, leWords_length, h1, h2]
      have h200 : (spongePermute a s xpos).val.toList.length * (Prim.width .keccak / 8) = 200 := by
        rw [Vector.length_toList]; rfl
      omega

/-! ### BLAKE2 instances -/

@[simp] theorem b2Step_txs (p : B2Prim) (ht : HashState p.prim × Nat) (blk : List Byte) :
    (b2Step p ht blk).txs =
      [⟨p.prim, ht.1, blk, b2Counter p (ht.2 + b2Block p), 0, 0⟩] := rfl

theorem b2Step_t (p : B2Prim) (ht : HashState p.prim × Nat) (blk : List Byte) :
    (b2Step p ht blk).val.2 = ht.2 + b2Block p := rfl

theorem b2Blocks_t (p : B2Prim) (n : Nat) (ht : HashState p.prim × Nat) (d : List Byte) :
    (absorbBlocks (b2Block p) (b2Step p) n ht d).val.1.2 = ht.2 + n * b2Block p := by
  induction n generalizing ht d with
  | zero => simp [absorbBlocks]
  | succ n ih => simp only [absorbBlocks, bind_val, ih, b2Step_t]; rw [Nat.succ_mul]; omega

/-- The rounds of `b2_absorb`. -/
def b2Rounds {p : B2Prim} (m : B2Inst p) (data : List Byte) : Nat :=
  (m.tail.length + data.length - 1) / b2Block p

theorem b2Absorb_t (p : B2Prim) (m : B2Inst p) (data : List Byte) :
    (b2Absorb p m data).val.t = m.t + b2Rounds m data * b2Block p := by
  simp [b2Absorb, absorbLazy, b2Blocks_t, lazyBlocks, b2Rounds]

theorem b2Absorb_tail_length (p : B2Prim) (m : B2Inst p) (data : List Byte) :
    (b2Absorb p m data).val.tail.length
      = m.tail.length + data.length - b2Rounds m data * b2Block p := by
  simp [b2Absorb, absorbLazy_tail, lazyBlocks, b2Rounds]

@[simp] theorem b2Absorb_lastNode (p : B2Prim) (m : B2Inst p) (data : List Byte) :
    (b2Absorb p m data).val.lastNode = m.lastNode := rfl

theorem b2Rounds_mul_le {p : B2Prim} (m : B2Inst p) (data : List Byte) :
    b2Rounds m data * b2Block p ≤ m.tail.length + data.length :=
  le_trans (Nat.div_mul_le_self _ _) (Nat.sub_le _ _)

/-- An instance has received what it had received and the new bytes (10_state.md R30). -/
theorem b2Absorb_received (p : B2Prim) (m : B2Inst p) (data : List Byte) :
    (b2Absorb p m data).val.received = m.received + data.length := by
  have := b2Rounds_mul_le m data
  simp only [B2Inst.received, b2Absorb_t, b2Absorb_tail_length]
  omega

/-- `b2_absorb` takes a legal instance to a legal one. -/
theorem b2Absorb_legal (p : B2Prim) (m : B2Inst p) (data : List Byte) (h : m.legal = true) :
    (b2Absorb p m data).val.legal = true := by
  simp only [B2Inst.legal, decide_eq_true_eq] at h ⊢
  obtain ⟨h1, h2, h3⟩ := h
  obtain ⟨h4, h5⟩ := lazy_rest (b2Block_pos p) (m.tail.length + data.length)
  refine ⟨?_, ?_, ?_⟩
  · rw [b2Absorb_t, Nat.add_mul_mod_self_right, h1]
  · rw [b2Absorb_tail_length]; exact h4
  · intro ht
    have h6 := b2Absorb_tail_length p m data
    rw [ht, List.length_nil] at h6
    have h7 : m.tail.length + data.length = 0 := h5 h6.symm
    have h8 : m.tail = [] := List.length_eq_zero_iff.mp (by omega)
    rw [b2Absorb_t, h3 h8, b2Rounds, h7]
    simp

theorem b2Counter_lt (p : B2Prim) (t : Nat) : b2Counter p t < 2 ^ (2 * p.prim.width) :=
  Nat.mod_lt _ (by positivity)

/-- A transaction of a BLAKE2 instance. -/
theorem b2Tx_legal (p : B2Prim) (h : HashState p.prim) (blk : List Byte) (t : Nat) (f : BitVec 7)
    (hb : blk.length = b2Block p)
    (hf : f = 0 ∨ f = FINAL_BLOCK ∨ f = FINAL_BLOCK ||| LAST_NODE) :
    txLegal ⟨p.prim, h, blk, b2Counter p t, 0, f⟩ = true := by
  have hc := b2Counter_lt p t
  cases p <;> simp [b2Block] at hb <;>
    simp only [B2Prim.prim, Prim.width, Nat.reduceMul] at hc <;>
    rcases hf with rfl | rfl | rfl <;> simp [txLegal, B2Prim.prim, hb] <;> exact hc

theorem finalFlags_cases (b : Bool) :
    finalFlags b = 0 ∨ finalFlags b = FINAL_BLOCK ∨ finalFlags b = FINAL_BLOCK ||| LAST_NODE := by
  cases b <;> decide

theorem b2Absorb_txs (p : B2Prim) (m : B2Inst p) (data : List Byte) :
    ∀ t ∈ (b2Absorb p m data).txs, txLegal t = true := by
  refine (absorbBlocks_induct (P := fun _ => True) (b2Block p) _ ?_ _ _ _ trivial
    (lazyBlocks_mul_le _ _)).2
  intro h blk _ hb
  exact ⟨trivial, by simpa using b2Tx_legal p h.1 blk (h.2 + b2Block p) 0 hb (.inl rfl)⟩

theorem b2Absorb_append (p : B2Prim) (m : B2Inst p) (d e : List Byte) :
    b2Absorb p m (d ++ e) = (b2Absorb p m d).bind fun m' => b2Absorb p m' e := by
  unfold b2Absorb
  rw [← List.append_assoc, absorbLazy_append _ (b2Block_pos p), bind_map, map_bind]

@[simp] theorem b2Finalize_txs_eq (p : B2Prim) (m : B2Inst p) (n : Nat) :
    (b2Finalize p m n).txs =
      [⟨p.prim, m.h, zpad m.tail (b2Block p), b2Counter p (m.t + m.tail.length), 0,
        finalFlags m.lastNode⟩] := rfl

theorem b2Finalize_txs (p : B2Prim) (m : B2Inst p) (n : Nat) (h : m.tail.length ≤ b2Block p) :
    ∀ t ∈ (b2Finalize p m n).txs, txLegal t = true := by
  intro t ht
  rw [b2Finalize_txs_eq, List.mem_singleton] at ht
  subst ht
  exact b2Tx_legal p _ _ _ _ (by simp [Nat.max_eq_right h]) (finalFlags_cases _)

theorem b2State_bytes (p : B2Prim) : p.prim.words * (p.prim.width / 8) = b2Out p := by
  cases p <;> rfl

theorem b2Finalize_out_length (p : B2Prim) (m : B2Inst p) (n : Nat) (h : n ≤ b2Out p) :
    (b2Finalize p m n).val.2.length = n := by
  simp [b2Finalize, b2State_bytes, Nat.min_eq_left h]

end Sys2Proof.Machine
end

