-- ==== Sys2Proof/Laws/Combiner.lean ====
section
/-! SUPPORT. What the Parallel Tree Combiner can do. -/

namespace Sys2Proof.Machine

/-- The leaves, each legal and with `LASTNODE` for the last alone (10_state.md R38). -/
def leavesOk (p : B2Prim) (leaf : Vector (B2Inst p) p.nleaf) : Prop :=
  ∀ k : Fin p.nleaf, leaf[k].legal = true ∧ leaf[k].lastNode = decide (k.val = p.nleaf - 1)

/-- The bytes all leaves have received (10_state.md R42). -/
def leavesReceived (p : B2Prim) (leaf : Vector (B2Inst p) p.nleaf) : Nat :=
  (leaf.toList.map B2Inst.received).sum

theorem sum_map_set {α : Type} (f : α → Nat) (l : List α) (k : Nat) (x : α) (hk : k < l.length) :
    ((l.set k x).map f).sum + f l[k] = (l.map f).sum + f x := by
  induction l generalizing k with
  | nil => simp at hk
  | cons a l ih =>
    cases k with
    | zero => simp; omega
    | succ k =>
      have := ih k (by simpa using hk)
      simp only [List.set_cons_succ, List.map_cons, List.sum_cons, List.getElem_cons_succ]
      omega

theorem leavesReceived_set (p : B2Prim) (leaf : Vector (B2Inst p) p.nleaf) (k : Fin p.nleaf)
    (x : B2Inst p) :
    leavesReceived p (leaf.set k x) + leaf[k].received = leavesReceived p leaf + x.received := by
  have := sum_map_set B2Inst.received leaf.toList k x (by simp)
  simpa [leavesReceived, Vector.toList_set] using this

theorem leavesOk_set {p : B2Prim} {leaf : Vector (B2Inst p) p.nleaf} (h : leavesOk p leaf)
    (k : Fin p.nleaf) (x : B2Inst p) (hx : x.legal = true) (hl : x.lastNode = leaf[k].lastNode) :
    leavesOk p (leaf.set k x) := by
  intro j
  by_cases hj : k = j
  · subst hj
    simpa [hx, hl] using (h k).2
  · have hn : k.val ≠ j.val := fun e => hj (Fin.ext e)
    have : (leaf.set k x)[j] = leaf[j] := by
      simp [Vector.getElem_set_ne, hn]
    rw [this]
    exact h j

/-! ### ABSORB -/

/-- How many bytes a round gives to its leaf (43_parallel_combiner.md R221). -/
def b2pRoom (p : B2Prim) (total : Nat) (data : List Byte) : Nat :=
  min (b2Block p - total % b2Block p) data.length

theorem b2pRoom_pos (p : B2Prim) (total : Nat) {data : List Byte} (h : data ≠ []) :
    0 < b2pRoom p total data := by
  have := List.length_pos_of_ne_nil h
  have := Nat.mod_lt total (b2Block_pos p)
  unfold b2pRoom
  omega

theorem b2pRoom_le (p : B2Prim) (total : Nat) (data : List Byte) :
    b2pRoom p total data ≤ data.length := Nat.min_le_right _ _

/-- Leaf `k` absorbs `x`. -/
def giveTo (p : B2Prim) (k : Fin p.nleaf) (leaf : Vector (B2Inst p) p.nleaf) (x : List Byte) :
    Traced (Vector (B2Inst p) p.nleaf) := (b2Absorb p leaf[k] x).map fun l => leaf.set k l

/-- The leaves after a round. -/
def b2pGive (p : B2Prim) (total : Nat) (leaf : Vector (B2Inst p) p.nleaf) (data : List Byte) :
    Traced (Vector (B2Inst p) p.nleaf) :=
  giveTo p (leafIndex p total) leaf (data.take (b2pRoom p total data))

theorem b2pAbsorbLoop_nil (p : B2Prim) (fuel total : Nat) (leaf : Vector (B2Inst p) p.nleaf) :
    b2pAbsorbLoop p fuel total leaf [] = .pure leaf := by
  cases fuel <;> simp [b2pAbsorbLoop]

/-- One round of ABSORB. -/
theorem b2pAbsorbLoop_round (p : B2Prim) (fuel total : Nat) (leaf : Vector (B2Inst p) p.nleaf)
    {data : List Byte} (h : data ≠ []) :
    b2pAbsorbLoop p (fuel + 1) total leaf data =
      (b2pGive p total leaf data).bind fun leaf' =>
        b2pAbsorbLoop p fuel (total + b2pRoom p total data) leaf'
          (data.drop (b2pRoom p total data)) := by
  have : ¬data.length = 0 := fun e => h (List.length_eq_zero_iff.mp e)
  rw [b2pAbsorbLoop, if_neg this]
  rfl

/-- A round keeps the leaves legal and gives them the bytes it takes. -/
theorem b2pGive_spec (p : B2Prim) (total : Nat) (leaf : Vector (B2Inst p) p.nleaf)
    (data : List Byte) :
    (leavesOk p leaf → leavesOk p (b2pGive p total leaf data).val) ∧
      leavesReceived p (b2pGive p total leaf data).val =
        leavesReceived p leaf + b2pRoom p total data := by
  constructor
  · intro h
    exact leavesOk_set h _ _ (b2Absorb_legal p _ _ (h _).1) (b2Absorb_lastNode p _ _)
  · have h1 := leavesReceived_set p leaf (leafIndex p total)
      (b2Absorb p leaf[leafIndex p total] (data.take (b2pRoom p total data))).val
    rw [b2Absorb_received, List.length_take, Nat.min_eq_left (b2pRoom_le p total data)] at h1
    simp only [b2pGive, giveTo, map_val]
    omega

/-- What the loop of ABSORB leaves. -/
theorem b2pAbsorbLoop_spec (p : B2Prim) (fuel total : Nat) (leaf : Vector (B2Inst p) p.nleaf)
    (data : List Byte) (hf : data.length ≤ fuel) :
    (leavesOk p leaf → leavesOk p (b2pAbsorbLoop p fuel total leaf data).val) ∧
      leavesReceived p (b2pAbsorbLoop p fuel total leaf data).val =
        leavesReceived p leaf + data.length := by
  induction fuel generalizing total leaf data with
  | zero =>
    have : data = [] := List.length_eq_zero_iff.mp (by omega)
    subst this
    exact ⟨id, rfl⟩
  | succ fuel ih =>
    by_cases hd : data = []
    · subst hd; rw [b2pAbsorbLoop_nil]; exact ⟨id, rfl⟩
    · have hp := b2pRoom_pos p total hd
      have hr := b2pRoom_le p total data
      rw [b2pAbsorbLoop_round _ _ _ _ hd, bind_val]
      obtain ⟨h1, h2⟩ := b2pGive_spec p total leaf data
      generalize (b2pGive p total leaf data).val = leaf' at h1 h2
      obtain ⟨h3, h4⟩ := ih (total + b2pRoom p total data) leaf' (data.drop (b2pRoom p total data))
        (by rw [List.length_drop]; omega)
      refine ⟨fun h => h3 (h1 h), ?_⟩
      rw [h4, h2, List.length_drop]
      omega

theorem b2pAbsorbLoop_txs (p : B2Prim) (fuel total : Nat) (leaf : Vector (B2Inst p) p.nleaf)
    (data : List Byte) : ∀ t ∈ (b2pAbsorbLoop p fuel total leaf data).txs, txLegal t = true := by
  induction fuel generalizing total leaf data with
  | zero => simp [b2pAbsorbLoop]
  | succ fuel ih =>
    by_cases hd : data = []
    · subst hd; simp [b2pAbsorbLoop_nil]
    · rw [b2pAbsorbLoop_round _ _ _ _ hd]
      intro t ht
      rw [bind_txs, List.mem_append] at ht
      rcases ht with ht | ht
      · exact b2Absorb_txs p _ _ t ht
      · exact ih _ _ _ t ht

/-- More rounds than bytes change nothing. -/
theorem b2pAbsorbLoop_fuel (p : B2Prim) (f g total : Nat) (leaf : Vector (B2Inst p) p.nleaf)
    (data : List Byte) (hf : data.length ≤ f) (hg : data.length ≤ g) :
    b2pAbsorbLoop p f total leaf data = b2pAbsorbLoop p g total leaf data := by
  induction f generalizing g total leaf data with
  | zero =>
    have : data = [] := List.length_eq_zero_iff.mp (by omega)
    subst this
    rw [b2pAbsorbLoop_nil, b2pAbsorbLoop_nil]
  | succ f ih =>
    by_cases hd : data = []
    · subst hd; rw [b2pAbsorbLoop_nil, b2pAbsorbLoop_nil]
    · have := List.length_pos_of_ne_nil hd
      have hp := b2pRoom_pos p total hd
      cases g with
      | zero => omega
      | succ g =>
        rw [b2pAbsorbLoop_round _ _ _ _ hd, b2pAbsorbLoop_round _ _ _ _ hd]
        refine bind_congr_val _ (ih _ _ _ _ ?_ ?_) <;> (rw [List.length_drop]; omega)

/-- ABSORB on the leaves, `total` the position of the first byte. -/
def leavesAbsorb (p : B2Prim) (total : Nat) (leaf : Vector (B2Inst p) p.nleaf) (data : List Byte) :
    Traced (Vector (B2Inst p) p.nleaf) := b2pAbsorbLoop p data.length total leaf data

@[simp] theorem leavesAbsorb_nil (p : B2Prim) (total : Nat) (leaf : Vector (B2Inst p) p.nleaf) :
    leavesAbsorb p total leaf [] = .pure leaf := rfl

/-- ABSORB is one round and then ABSORB of what is left. -/
theorem leavesAbsorb_round (p : B2Prim) (total : Nat) (leaf : Vector (B2Inst p) p.nleaf)
    {data : List Byte} (hd : data ≠ []) :
    leavesAbsorb p total leaf data =
      (b2pGive p total leaf data).bind fun leaf' =>
        leavesAbsorb p (total + b2pRoom p total data) leaf' (data.drop (b2pRoom p total data)) := by
  have hl := List.length_pos_of_ne_nil hd
  have hp := b2pRoom_pos p total hd
  unfold leavesAbsorb
  obtain ⟨n, hn⟩ : ∃ n, data.length = n + 1 := ⟨data.length - 1, by omega⟩
  rw [hn, b2pAbsorbLoop_round _ _ _ _ hd]
  refine bind_congr_val _ (b2pAbsorbLoop_fuel _ _ _ _ _ _ ?_ le_rfl)
  rw [List.length_drop]
  omega

theorem giveTo_append (p : B2Prim) (k : Fin p.nleaf) (leaf : Vector (B2Inst p) p.nleaf)
    (x y : List Byte) :
    giveTo p k leaf (x ++ y) = (giveTo p k leaf x).bind fun leaf' => giveTo p k leaf' y := by
  unfold giveTo
  rw [b2Absorb_append]
  apply traced_ext
  · simp
  · simp

/-- A slice given in two parts is the slice given at once. -/
theorem b2pGive_append (p : B2Prim) (total : Nat) (leaf : Vector (B2Inst p) p.nleaf)
    (x y : List Byte) (hx : x.length < b2Block p - total % b2Block p) :
    b2pGive p total leaf (x ++ y) =
      (b2pGive p total leaf x).bind fun leaf' => b2pGive p (total + x.length) leaf' y := by
  have hB := b2Block_pos p
  have hm := Nat.mod_lt total hB
  have hdiv : (total + x.length) / b2Block p = total / b2Block p := by
    rw [Nat.div_eq_iff hB] 
    have := Nat.div_add_mod total (b2Block p)
    rw [Nat.mul_comm] at this
    omega
  have hmod : (total + x.length) % b2Block p = total % b2Block p + x.length := by
    have h1 := Nat.div_add_mod total (b2Block p)
    have h2 := Nat.div_add_mod (total + x.length) (b2Block p)
    rw [hdiv] at h2
    omega
  have hk : leafIndex p (total + x.length) = leafIndex p total := by
    simp [leafIndex, hdiv]
  have hrx : b2pRoom p total x = x.length := by simp [b2pRoom]; omega
  have hrxy : b2pRoom p total (x ++ y) = x.length + b2pRoom p (total + x.length) y := by
    simp [b2pRoom, hmod]; omega
  unfold b2pGive
  rw [hk, hrx, hrxy, List.take_length, List.take_length_add_append, giveTo_append]

/-- ABSORB of two pieces one after another is ABSORB of both (41_incremental_hasher.md R133). -/
theorem leavesAbsorb_append (p : B2Prim) (total : Nat) (leaf : Vector (B2Inst p) p.nleaf)
    (d e : List Byte) :
    leavesAbsorb p total leaf (d ++ e) =
      (leavesAbsorb p total leaf d).bind fun leaf' =>
        leavesAbsorb p (total + d.length) leaf' e := by
  induction hn : d.length using Nat.strong_induction_on generalizing total leaf d with
  | _ n ih =>
    subst hn
    by_cases hd : d = []
    · subst hd; simp
    · have hl := List.length_pos_of_ne_nil hd
      have hp := b2pRoom_pos p total hd
      have hrd := b2pRoom_le p total d
      by_cases hc : b2Block p - total % b2Block p ≤ d.length
      · have hr : b2pRoom p total (d ++ e) = b2pRoom p total d := by simp [b2pRoom]; omega
        have hg : b2pGive p total leaf (d ++ e) = b2pGive p total leaf d := by
          simp [b2pGive, hr, List.take_append_of_le_length hrd]
        rw [leavesAbsorb_round _ _ _ hd, leavesAbsorb_round _ _ _ (by simp [hd]), bind_assoc, hg, hr]
        apply bind_congr_val
        rw [List.drop_append_of_le_length hrd, ih _ (by rw [List.length_drop]; omega) _ _ _ rfl]
        apply bind_congr_val
        congr 1
        rw [List.length_drop]
        omega
      · have hr : b2pRoom p total d = d.length := by simp [b2pRoom]; omega
        by_cases he : e = []
        · subst he; simp
        · rw [leavesAbsorb_round _ _ _ hd, hr, List.drop_length,
            leavesAbsorb_round _ _ _ (data := d ++ e) (by simp [hd]),
            b2pGive_append p total leaf d e (by omega), bind_assoc, bind_assoc]
          apply bind_congr_val
          rw [leavesAbsorb_nil, pure_bind, leavesAbsorb_round _ _ _ he]
          have hmod : (total + d.length) % b2Block p = total % b2Block p + d.length := by
            rw [Nat.add_mod, Nat.mod_eq_of_lt (a := d.length) (by omega),
              Nat.mod_eq_of_lt (by omega)]
          have hx : b2pRoom p total (d ++ e) = d.length + b2pRoom p (total + d.length) e := by
            simp [b2pRoom, hmod]; omega
          apply bind_congr_val
          rw [hx, Nat.add_assoc]
          congr 1
          simp [List.drop_append]

theorem b2pAbsorb_eq (p : B2Prim) (m : B2PState p) (total : Nat) (data : List Byte) :
    b2pAbsorb p m total data =
      (leavesAbsorb p total m.leaf data).map fun leaf => { m with leaf := leaf } := rfl

/-- ABSORB takes a legal `B2P` state to a legal one. -/
theorem b2pAbsorb_legal (p : B2Prim) (m : B2PState p) (total : Nat) (data : List Byte)
    (h : m.legal total = true) :
    (b2pAbsorb p m total data).val.legal (total + data.length) = true := by
  simp only [B2PState.legal, Bool.and_eq_true, decide_eq_true_eq] at h ⊢
  obtain ⟨⟨h1, h2⟩, h3⟩ := h
  obtain ⟨h4, h5⟩ := b2pAbsorbLoop_spec p data.length total m.leaf data le_rfl
  refine ⟨⟨h4 h1, ?_⟩, h3⟩
  unfold leavesReceived at h5
  rcases h2 with h2 | h2
  · exact .inl (h5.trans (congrArg (· + data.length) h2))
  · exact .inr (by rw [← Nat.add_assoc]; exact h5.trans (congrArg (· + data.length) h2))

/-! ### FINALIZE -/

theorem feedRoot_txs (p : B2Prim) (k : Nat) (root : B2Inst p) (prev d : List Byte) :
    ∀ t ∈ (feedRoot p k root prev d).txs, txLegal t = true := by
  unfold feedRoot
  split
  · exact b2Absorb_txs p _ _
  · simp

theorem feedRoot_legal (p : B2Prim) (k : Nat) (root : B2Inst p) (prev d : List Byte)
    (h : root.legal = true) : (feedRoot p k root prev d).val.legal = true := by
  unfold feedRoot
  split
  · exact b2Absorb_legal p _ _ h
  · exact h

/-- The loop over the leaves issues legal transactions and leaves a legal root. -/
theorem b2pSealLoop_spec (p : B2Prim) (left k : Nat) (leaf : Vector (B2Inst p) p.nleaf)
    (prev : List Byte) (root : B2Inst p)
    (hl : ∀ j : Fin p.nleaf, k ≤ j.val → leaf[j].tail.length ≤ b2Block p)
    (hr : root.legal = true) :
    (b2pSealLoop p left k leaf prev root).val.root.legal = true ∧
      ∀ t ∈ (b2pSealLoop p left k leaf prev root).txs, txLegal t = true := by
  induction left generalizing k leaf prev root with
  | zero => exact ⟨hr, by simp [b2pSealLoop]⟩
  | succ left ih =>
    rw [b2pSealLoop]
    by_cases hk : k < p.nleaf
    · rw [dif_pos hk]
      have hlk := hl ⟨k, hk⟩ le_rfl
      obtain ⟨h1, h2⟩ := ih (k + 1) (leaf.set k (b2Finalize p leaf[k] (b2Out p)).val.1)
        (b2Finalize p leaf[k] (b2Out p)).val.2
        (feedRoot p k root prev (b2Finalize p leaf[k] (b2Out p)).val.2).val
        (by
          intro j hj
          have hn : k ≠ j.val := by omega
          have : (leaf.set k (b2Finalize p leaf[k] (b2Out p)).val.1)[j] = leaf[j] := by
            simp [Vector.getElem_set_ne, hn]
          rw [this]
          exact hl j (by omega))
        (feedRoot_legal p _ _ _ _ hr)
      refine ⟨h1, ?_⟩
      intro t ht
      simp only [bind_txs, List.mem_append] at ht
      rcases ht with ht | ht | ht
      · exact b2Finalize_txs p _ _ hlk t ht
      · exact feedRoot_txs p _ _ _ _ t ht
      · exact h2 t ht
    · rw [dif_neg hk]
      exact ⟨hr, by simp⟩

theorem legal_tail_le {p : B2Prim} {m : B2Inst p} (h : m.legal = true) :
    m.tail.length ≤ b2Block p := by
  simp only [B2Inst.legal, decide_eq_true_eq] at h
  exact h.2.1

theorem b2pFinalize_txs (p : B2Prim) (m : B2PState p) (total n : Nat) (h : m.legal total = true) :
    ∀ t ∈ (b2pFinalize p m n).txs, txLegal t = true := by
  simp only [B2PState.legal, Bool.and_eq_true, decide_eq_true_eq] at h
  obtain ⟨⟨h1, _⟩, h2, h3, _⟩ := h
  obtain ⟨h4, h5⟩ := b2pSealLoop_spec p p.nleaf 0 m.leaf [] m.root
    (fun j _ => legal_tail_le (h1 j).1) (by simp [B2Inst.legal, h2, h3])
  intro t ht
  simp only [b2pFinalize, bind_txs, map_txs, List.mem_append] at ht
  rcases ht with ht | ht
  · exact h5 t ht
  · exact b2Finalize_txs p _ _ (legal_tail_le h4) t ht

theorem b2pFinalize_out_length (p : B2Prim) (m : B2PState p) (n : Nat) (h : n ≤ b2Out p) :
    (b2pFinalize p m n).val.2.length = n :=
  b2Finalize_out_length p _ _ h

end Sys2Proof.Machine
end

