-- ==== Sys2Proof/Laws/Tree.lean ====
section
/-! SUPPORT. What the BLAKE3 Tree Engine can do: the state its loops leave and the transactions they
issue. -/

namespace Sys2Proof.Machine

/-! ### popcount -/

theorem popcountTo_eq (k l n : Nat) (hk : n ≤ k) (hl : n ≤ l) : popcountTo k n = popcountTo l n := by
  induction k generalizing l n with
  | zero =>
    obtain rfl : n = 0 := by omega
    clear hk hl
    induction l with
    | zero => rfl
    | succ l ih => simpa [popcountTo] using ih
  | succ k ih =>
    cases l with
    | zero =>
      obtain rfl : n = 0 := by omega
      simpa [popcountTo] using ih 0 0 (by omega) (by omega)
    | succ l =>
      simp only [popcountTo]
      rw [ih l (n / 2) (by omega) (by omega)]

theorem popcount_half (n : Nat) : popcount n = n % 2 + popcount (n / 2) := by
  cases n with
  | zero => rfl
  | succ n =>
    unfold popcount
    rw [popcountTo]
    congr 1
    exact popcountTo_eq _ _ _ (by omega) le_rfl

@[simp] theorem popcount_zero : popcount 0 = 0 := rfl

theorem popcount_two_mul (k : Nat) : popcount (2 * k) = popcount k := by
  rw [popcount_half]; simp

theorem popcount_two_mul_add_one (k : Nat) : popcount (2 * k + 1) = popcount k + 1 := by
  rw [popcount_half, show (2 * k + 1) % 2 = 1 by omega, show (2 * k + 1) / 2 = k by omega]; omega

/-! ### The stack -/

theorem mergeLoop_even (keyw : ChainVal) (base : BitVec 7) (fuel : Nat) {count : Nat}
    {right left : ChainVal} {below : List ChainVal} (h : count % 2 = 0) :
    mergeLoop keyw base (fuel + 1) count (right :: left :: below) =
      (parentCv keyw base left right).bind fun cv =>
        mergeLoop keyw base fuel (count / 2) (cv :: below) := by
  simp [mergeLoop, h]

theorem mergeLoop_odd (keyw : ChainVal) (base : BitVec 7) (fuel : Nat) {count : Nat}
    (stack : List ChainVal) (h : ¬count % 2 = 0) :
    mergeLoop keyw base fuel count stack = .pure stack := by
  cases fuel with
  | zero => rfl
  | succ fuel => rcases stack with _ | ⟨_, _ | _⟩ <;> simp [mergeLoop, h]

/-- With fewer than two entries there is nothing to merge. -/
theorem mergeLoop_short (keyw : ChainVal) (base : BitVec 7) (fuel count : Nat)
    {stack : List ChainVal} (h : stack.length < 2) :
    mergeLoop keyw base fuel count stack = .pure stack := by
  cases fuel with
  | zero => rfl
  | succ fuel =>
    rcases stack with _ | ⟨a, _ | ⟨b, l⟩⟩
    · simp [mergeLoop]
    · simp [mergeLoop]
    · simp at h

/-- Pushing chunk number `count − 1` and merging keeps one entry for each 1 bit of the count
(42_blake3_tree.md R186, 10_state.md R36). -/
theorem mergeLoop_length (keyw : ChainVal) (base : BitVec 7) (fuel count : Nat)
    (stack : List ChainVal) (hc : 0 < count) (hs : stack.length = popcount (count - 1) + 1)
    (hf : stack.length ≤ fuel) : (mergeLoop keyw base fuel count stack).val.length = popcount count := by
  induction fuel generalizing count stack with
  | zero => omega
  | succ fuel ih =>
    by_cases he : count % 2 = 0
    · obtain ⟨k, rfl⟩ : ∃ k, count = 2 * k := ⟨count / 2, by omega⟩
      have h1 : popcount (2 * k - 1) = popcount (k - 1) + 1 := by
        rw [show 2 * k - 1 = 2 * (k - 1) + 1 by omega, popcount_two_mul_add_one]
      rw [popcount_two_mul]
      match stack, hs, hf with
      | right :: left :: below, hs, hf =>
        rw [mergeLoop_even _ _ _ he, bind_val, show 2 * k / 2 = k by omega]
        simp only [List.length_cons] at hs hf
        exact ih k _ (by omega) (by simp only [List.length_cons]; omega)
          (by simp only [List.length_cons]; omega)
      | [_], hs, _ => simp only [List.length_cons, List.length_nil] at hs; omega
      | [], hs, _ => simp only [List.length_nil] at hs; omega
    · obtain ⟨k, rfl⟩ : ∃ k, count = 2 * k + 1 := ⟨count / 2, by omega⟩
      rw [mergeLoop_odd _ _ _ _ he, popcount_two_mul_add_one]
      simpa [popcount_two_mul] using hs

theorem addChunkCv_length (m : B3State) (cv : ChainVal) (hs : m.stack.length = popcount m.cidx) :
    (addChunkCv m cv (m.cidx + 1)).val.length = popcount (m.cidx + 1) := by
  refine mergeLoop_length _ _ _ _ _ (by omega) ?_ ?_ <;> simp [hs]

/-! ### Transactions -/

theorem parentBlock_length (l r : ChainVal) :
    (leWords l.toList ++ leWords r.toList).length = 64 := by
  rw [List.length_append, leWords_length, leWords_length, Vector.length_toList,
    Vector.length_toList]
  rfl

theorem b3FlagsLegal_start (base : BitVec 7) (hb : base ∈ modeFlags) (b : Nat) :
    b3FlagsLegal (base ||| startFlag b) = true ∧ (base ||| startFlag b) &&& PARENT = 0 := by
  simp only [modeFlags, List.mem_cons, List.not_mem_nil, or_false] at hb
  unfold startFlag
  split <;> rcases hb with rfl | rfl | rfl | rfl <;> decide

theorem b3FlagsLegal_end (base : BitVec 7) (hb : base ∈ modeFlags) (b : Nat) :
    b3FlagsLegal (base ||| startFlag b ||| CHUNK_END) = true ∧
      (base ||| startFlag b ||| CHUNK_END) &&& PARENT = 0 := by
  simp only [modeFlags, List.mem_cons, List.not_mem_nil, or_false] at hb
  unfold startFlag
  split <;> rcases hb with rfl | rfl | rfl | rfl <;> decide

/-- A transaction on a full chunk block. -/
theorem b3Tx_legal (cv : ChainVal) (blk : List Byte) (ctr : Nat) (f : BitVec 7)
    (hb : blk.length = 64) (hf : b3FlagsLegal f = true ∧ f &&& PARENT = 0) :
    txLegal ⟨.b3, cv, blk, ctr, 64, f⟩ = true := by
  have hd : blk.drop 64 = [] := List.drop_eq_nil_of_le (by omega)
  simp [txLegal, hb, hd, hf]

/-- A transaction on a padded last block. -/
theorem b3Tx_legal_last (cv : ChainVal) (tail : List Byte) (ctr : Nat) (f : BitVec 7)
    (hb : tail.length ≤ 64) (hf : b3FlagsLegal f = true ∧ f &&& PARENT = 0) :
    txLegal ⟨.b3, cv, zpad tail 64, ctr, tail.length, f⟩ = true := by
  have hl : (zpad tail 64).length = 64 := by simp [Nat.max_eq_right hb]
  have hz : ((zpad tail 64).drop tail.length).all (· == 0) = true := by
    simp [zpad, zeros]
  simp only [txLegal, hl, hz, hf, hb]
  simp

theorem parentCv_txs (keyw : ChainVal) (base : BitVec 7) (hb : base ∈ modeFlags) (l r : ChainVal) :
    ∀ t ∈ (parentCv keyw base l r).txs, txLegal t = true := by
  intro t ht
  simp only [parentCv, compressCv_txs, List.mem_singleton] at ht
  subst ht
  simp only [modeFlags, List.mem_cons, List.not_mem_nil, or_false] at hb
  have hl := parentBlock_length l r
  have hd : (leWords l.toList ++ leWords r.toList).drop 64 = [] :=
    List.drop_eq_nil_of_le (by omega)
  rcases hb with rfl | rfl | rfl | rfl <;> simp only [txLegal, hl, hd] <;> rfl

theorem mergeLoop_txs (keyw : ChainVal) (base : BitVec 7) (hb : base ∈ modeFlags)
    (fuel count : Nat) (stack : List ChainVal) :
    ∀ t ∈ (mergeLoop keyw base fuel count stack).txs, txLegal t = true := by
  induction fuel generalizing count stack with
  | zero => simp [mergeLoop]
  | succ fuel ih =>
    by_cases h : count % 2 = 0
    · rcases stack with _ | ⟨a, _ | ⟨b, l⟩⟩
      · simp [mergeLoop_short]
      · simp [mergeLoop_short]
      · intro t ht
        rw [mergeLoop_even _ _ _ h, bind_txs, List.mem_append] at ht
        rcases ht with ht | ht
        · exact parentCv_txs _ _ hb _ _ t ht
        · exact ih _ _ t ht
    · simp [mergeLoop_odd _ _ _ _ h]

/-! ### ABSORB -/

/-- The bytes a `B3` engine has received (10_state.md R42). -/
def b3Received (m : B3State) : Nat := 1024 * m.cidx + 64 * m.blocks + m.tail.length

/-- The invariant of the loops of ABSORB (10_state.md R34, R36). -/
structure B3Inv (m : B3State) : Prop where
  blocks : m.blocks ≤ 15
  tail : m.tail.length ≤ 64
  cv : m.blocks = 0 → m.cv = m.keyw
  stack : m.stack.length = popcount m.cidx

/-- Compressing the held block keeps the invariant, the bytes received, the key and the mode. -/
theorem b3Flush_spec (m : B3State) (h : B3Inv m) (ht : m.tail.length = 64) :
    B3Inv (b3Flush m).val ∧ (b3Flush m).val.tail = [] ∧ b3Received (b3Flush m).val = b3Received m ∧
      (b3Flush m).val.keyw = m.keyw ∧ (b3Flush m).val.base = m.base := by
  unfold b3Flush
  by_cases hb : m.blocks = 15
  · rw [if_pos hb]
    refine ⟨⟨by simp, by simp, by simp, ?_⟩, rfl, ?_, rfl, rfl⟩
    · exact addChunkCv_length m _ h.stack
    · simp [b3Received, hb, ht]; omega
  · have := h.blocks
    rw [if_neg hb]
    refine ⟨⟨by simp; omega, by simp, by simp, h.stack⟩, rfl, ?_, rfl, rfl⟩
    simp [b3Received, ht]; omega

theorem b3Flush_txs (m : B3State) (hb : m.base ∈ modeFlags) (ht : m.tail.length = 64) :
    ∀ t ∈ (b3Flush m).txs, txLegal t = true := by
  unfold b3Flush
  split
  · intro t h
    simp only [bind_txs, map_txs, compressCv_txs, List.mem_append, List.mem_singleton] at h
    rcases h with rfl | h
    · exact b3Tx_legal _ _ _ _ ht (b3FlagsLegal_end _ hb _)
    · exact mergeLoop_txs _ _ hb _ _ _ t h
  · intro t h
    simp only [map_txs, compressCv_txs, List.mem_singleton] at h
    subst h
    exact b3Tx_legal _ _ _ _ ht (b3FlagsLegal_start _ hb _)

/-- Room is made for a byte. -/
theorem b3MakeRoom_spec (m : B3State) (h : B3Inv m) :
    B3Inv (b3MakeRoom m).val ∧ (b3MakeRoom m).val.tail.length < 64 ∧
      b3Received (b3MakeRoom m).val = b3Received m ∧ (b3MakeRoom m).val.keyw = m.keyw ∧
      (b3MakeRoom m).val.base = m.base := by
  unfold b3MakeRoom
  by_cases ht : m.tail.length = 64
  · obtain ⟨h1, h2, h3, h4, h5⟩ := b3Flush_spec m h ht
    rw [if_pos ht]
    exact ⟨h1, by rw [h2]; simp, h3, h4, h5⟩
  · rw [if_neg ht]
    exact ⟨h, lt_of_le_of_ne h.tail ht, rfl, rfl, rfl⟩

theorem b3MakeRoom_txs (m : B3State) (hb : m.base ∈ modeFlags) :
    ∀ t ∈ (b3MakeRoom m).txs, txLegal t = true := by
  unfold b3MakeRoom
  split
  · exact b3Flush_txs m hb ‹_›
  · simp

/-- How many bytes a round takes. -/
def b3Room (m : B3State) (data : List Byte) : Nat := min (64 - m.tail.length) data.length

/-- The bytes a round takes go behind the tail. -/
def b3Take (m : B3State) (data : List Byte) : B3State :=
  { m with tail := m.tail ++ data.take (b3Room m data) }

@[simp] theorem b3Take_tail (m : B3State) (data : List Byte) :
    (b3Take m data).tail = m.tail ++ data.take (b3Room m data) := rfl
@[simp] theorem b3Take_keyw (m : B3State) (data : List Byte) : (b3Take m data).keyw = m.keyw := rfl
@[simp] theorem b3Take_base (m : B3State) (data : List Byte) : (b3Take m data).base = m.base := rfl
@[simp] theorem b3Take_cidx (m : B3State) (data : List Byte) : (b3Take m data).cidx = m.cidx := rfl
@[simp] theorem b3Take_blocks (m : B3State) (data : List Byte) :
    (b3Take m data).blocks = m.blocks := rfl
@[simp] theorem b3Take_cv (m : B3State) (data : List Byte) : (b3Take m data).cv = m.cv := rfl
@[simp] theorem b3Take_stack (m : B3State) (data : List Byte) : (b3Take m data).stack = m.stack := rfl

theorem b3AbsorbLoop_nil (fuel : Nat) (m : B3State) : b3AbsorbLoop fuel m [] = .pure m := by
  cases fuel <;> simp [b3AbsorbLoop]

/-- One round of ABSORB. -/
theorem b3AbsorbLoop_round (fuel : Nat) (m : B3State) {data : List Byte} (h : data ≠ []) :
    b3AbsorbLoop (fuel + 1) m data =
      (b3MakeRoom m).bind fun m' =>
        b3AbsorbLoop fuel (b3Take m' data) (data.drop (b3Room m' data)) := by
  have : ¬data.length = 0 := fun e => h (List.length_eq_zero_iff.mp e)
  rw [b3AbsorbLoop, if_neg this]
  rfl

theorem b3Take_inv {m : B3State} (h : B3Inv m) (data : List Byte) : B3Inv (b3Take m data) := by
  refine ⟨h.blocks, ?_, h.cv, h.stack⟩
  have := h.tail
  simp [b3Room]
  omega

theorem b3Room_pos {m : B3State} {data : List Byte} (hm : m.tail.length < 64) (hd : data ≠ []) :
    0 < b3Room m data := by
  have := List.length_pos_of_ne_nil hd
  unfold b3Room
  omega

/-- What the loop of ABSORB leaves. -/
theorem b3AbsorbLoop_spec (fuel : Nat) (m : B3State) (data : List Byte) (h : B3Inv m)
    (hf : data.length ≤ fuel) :
    B3Inv (b3AbsorbLoop fuel m data).val ∧
      b3Received (b3AbsorbLoop fuel m data).val = b3Received m + data.length ∧
      (b3AbsorbLoop fuel m data).val.keyw = m.keyw ∧ (b3AbsorbLoop fuel m data).val.base = m.base ∧
      (data ≠ [] → (b3AbsorbLoop fuel m data).val.tail ≠ []) := by
  induction fuel generalizing m data with
  | zero =>
    have : data = [] := List.length_eq_zero_iff.mp (by omega)
    subst this
    exact ⟨h, rfl, rfl, rfl, by simp⟩
  | succ fuel ih =>
    by_cases hd : data = []
    · subst hd
      rw [b3AbsorbLoop_nil]
      exact ⟨h, rfl, rfl, rfl, by simp⟩
    · obtain ⟨h1, h2, h3, h4, h5⟩ := b3MakeRoom_spec m h
      rw [b3AbsorbLoop_round _ _ hd, bind_val]
      generalize (b3MakeRoom m).val = m' at h1 h2 h3 h4 h5
      have hp := b3Room_pos h2 hd
      obtain ⟨k1, k2, k3, k4, k5⟩ := ih (b3Take m' data) (data.drop (b3Room m' data))
        (b3Take_inv h1 data) (by rw [List.length_drop]; omega)
      refine ⟨k1, ?_, k3.trans h4, k4.trans h5, fun _ => ?_⟩
      · rw [k2, ← h3]
        have : b3Room m' data ≤ data.length := Nat.min_le_right _ _
        simp [b3Received]
        omega
      · by_cases he : data.drop (b3Room m' data) = []
        · rw [he, b3AbsorbLoop_nil]
          have : (data.take (b3Room m' data)).length ≠ 0 := by
            have := List.length_pos_of_ne_nil hd
            rw [List.length_take]
            omega
          intro e
          simp only [pure_val, b3Take_tail, List.append_eq_nil_iff] at e
          exact this (by rw [e.2]; rfl)
        · exact k5 he

theorem b3AbsorbLoop_txs (fuel : Nat) (m : B3State) (data : List Byte) (h : B3Inv m)
    (hf : data.length ≤ fuel) (hb : m.base ∈ modeFlags) :
    ∀ t ∈ (b3AbsorbLoop fuel m data).txs, txLegal t = true := by
  induction fuel generalizing m data with
  | zero => simp [b3AbsorbLoop]
  | succ fuel ih =>
    by_cases hd : data = []
    · subst hd; simp [b3AbsorbLoop_nil]
    · obtain ⟨h1, h2, h3, h4, h5⟩ := b3MakeRoom_spec m h
      have hp := b3Room_pos h2 hd
      rw [b3AbsorbLoop_round _ _ hd]
      intro t ht
      rw [bind_txs, List.mem_append] at ht
      rcases ht with ht | ht
      · exact b3MakeRoom_txs m hb t ht
      · exact ih _ _ (b3Take_inv h1 data) (by rw [List.length_drop]; omega)
          (by simpa [h5] using hb) t ht

/-- More rounds than bytes change nothing. -/
theorem b3AbsorbLoop_fuel (f g : Nat) (m : B3State) (data : List Byte) (h : B3Inv m)
    (hf : data.length ≤ f) (hg : data.length ≤ g) :
    b3AbsorbLoop f m data = b3AbsorbLoop g m data := by
  induction f generalizing g m data with
  | zero =>
    have : data = [] := List.length_eq_zero_iff.mp (by omega)
    subst this
    rw [b3AbsorbLoop_nil, b3AbsorbLoop_nil]
  | succ f ih =>
    by_cases hd : data = []
    · subst hd; rw [b3AbsorbLoop_nil, b3AbsorbLoop_nil]
    · have := List.length_pos_of_ne_nil hd
      cases g with
      | zero => omega
      | succ g =>
        obtain ⟨h1, h2, _⟩ := b3MakeRoom_spec m h
        have hp := b3Room_pos h2 hd
        rw [b3AbsorbLoop_round _ _ hd, b3AbsorbLoop_round _ _ hd]
        refine bind_congr_val _ (ih _ _ _ (b3Take_inv h1 data) ?_ ?_) <;>
          (rw [List.length_drop]; omega)

/-! ### ABSORB as a whole -/

@[simp] theorem b3Absorb_nil (m : B3State) : b3Absorb m [] = .pure m := rfl

/-- ABSORB is one round and then ABSORB of what is left. -/
theorem b3Absorb_round (m : B3State) {data : List Byte} (h : B3Inv m) (hd : data ≠ []) :
    b3Absorb m data =
      (b3MakeRoom m).bind fun m' => b3Absorb (b3Take m' data) (data.drop (b3Room m' data)) := by
  obtain ⟨h1, h2, _⟩ := b3MakeRoom_spec m h
  have hp := b3Room_pos h2 hd
  have hl := List.length_pos_of_ne_nil hd
  unfold b3Absorb
  obtain ⟨n, hn⟩ : ∃ n, data.length = n + 1 := ⟨data.length - 1, by omega⟩
  rw [hn, b3AbsorbLoop_round _ _ hd]
  refine bind_congr_val _ (b3AbsorbLoop_fuel _ _ _ _ (b3Take_inv h1 data) ?_ le_rfl)
  rw [List.length_drop]
  omega

/-- What ABSORB leaves (10_state.md R42). -/
theorem b3Absorb_spec (m : B3State) (data : List Byte) (h : B3Inv m) :
    B3Inv (b3Absorb m data).val ∧ b3Received (b3Absorb m data).val = b3Received m + data.length ∧
      (b3Absorb m data).val.keyw = m.keyw ∧ (b3Absorb m data).val.base = m.base ∧
      (data ≠ [] → (b3Absorb m data).val.tail ≠ []) :=
  b3AbsorbLoop_spec _ m data h le_rfl

theorem b3Absorb_txs (m : B3State) (data : List Byte) (h : B3Inv m) (hb : m.base ∈ modeFlags) :
    ∀ t ∈ (b3Absorb m data).txs, txLegal t = true :=
  b3AbsorbLoop_txs _ m data h le_rfl hb

/-- ABSORB of two pieces one after another is ABSORB of both (42_blake3_tree.md R195). -/
theorem b3Absorb_append (m : B3State) (d e : List Byte) (h : B3Inv m) :
    b3Absorb m (d ++ e) = (b3Absorb m d).bind fun m' => b3Absorb m' e := by
  induction hn : d.length using Nat.strong_induction_on generalizing m d with
  | _ n ih =>
    subst hn
    by_cases hd : d = []
    · subst hd; rfl
    · obtain ⟨h1, h2, _⟩ := b3MakeRoom_spec m h
      have hl := List.length_pos_of_ne_nil hd
      rw [b3Absorb_round m h hd, b3Absorb_round m h (by simp [hd]), bind_assoc]
      apply bind_congr_val
      generalize (b3MakeRoom m).val = m' at h1 h2
      have hp := b3Room_pos h2 hd
      by_cases hc : 64 - m'.tail.length ≤ d.length
      · have hr : b3Room m' (d ++ e) = b3Room m' d := by simp [b3Room]; omega
        have hrd : b3Room m' d ≤ d.length := Nat.min_le_right _ _
        have ht : b3Take m' (d ++ e) = b3Take m' d := by
          simp [b3Take, hr, List.take_append_of_le_length hrd]
        rw [hr, ht, List.drop_append_of_le_length hrd]
        exact ih _ (by rw [List.length_drop]; omega) _ _ (b3Take_inv h1 d) rfl
      · have hr : b3Room m' d = d.length := by simp [b3Room]; omega
        rw [hr, List.drop_length, b3Absorb_nil, pure_bind]
        by_cases he : e = []
        · subst he; simp [hr]
        · have hroom : b3MakeRoom (b3Take m' d) = .pure (b3Take m' d) := by
            unfold b3MakeRoom
            rw [if_neg]
            simp [hr]; omega
          have hx : b3Room m' (d ++ e) = d.length + b3Room (b3Take m' d) e := by
            simp [b3Room]; omega
          rw [b3Absorb_round (b3Take m' d) (b3Take_inv h1 d) he, hroom, pure_bind, hx]
          have ht : b3Take m' (d ++ e) = b3Take (b3Take m' d) e := by
            simp only [b3Take, hx, hr, List.take_length, List.take_append, List.append_assoc]
            simp
          rw [ht]
          congr 1
          simp [List.drop_append]

/-! ### FINALIZE -/

theorem finalMerges_txs (keyw : ChainVal) (base : BitVec 7) (hb : base ∈ modeFlags)
    (left : ChainVal) (older : List ChainVal) (cv : ChainVal) :
    ∀ t ∈ (finalMerges keyw base left older cv).txs, txLegal t = true := by
  induction older generalizing left cv with
  | nil => simp [finalMerges]
  | cons o rest ih =>
    intro t ht
    simp only [finalMerges, bind_txs, List.mem_append] at ht
    rcases ht with ht | ht
    · exact parentCv_txs _ _ hb _ _ t ht
    · exact ih _ _ t ht

theorem finalMerges_root (keyw : ChainVal) (base : BitVec 7) (left : ChainVal)
    (older : List ChainVal) (cv : ChainVal) :
    ∃ l r, (finalMerges keyw base left older cv).val = parentRoot keyw base l r := by
  induction older generalizing left cv with
  | nil => exact ⟨_, _, rfl⟩
  | cons o rest ih => exact ih _ _

theorem parentRoot_legal (keyw : ChainVal) (base : BitVec 7) (l r : ChainVal) :
    (parentRoot keyw base l r).legal base = true := by
  have hl := parentBlock_length l r
  have hd : (leWords l.toList ++ leWords r.toList).drop 64 = [] :=
    List.drop_eq_nil_of_le (by omega)
  simp [parentRoot, RootD.legal, parentFlags, hd, -List.length_append, hl]

/-- The root descriptor of a legal engine is legal. -/
theorem b3Root_legal (m : B3State) (ht : m.tail.length ≤ 64) : (b3Root m).val.legal m.base = true := by
  unfold b3Root
  cases hs : m.stack with
  | nil =>
    have hl : (zpad m.tail 64).length = 64 := by simp [Nat.max_eq_right ht]
    have hz : ((zpad m.tail 64).drop m.tail.length).all (· == 0) = true := by simp [zpad, zeros]
    have hflags : endChunkFlags m ||| ROOT = m.base ||| CHUNK_START ||| CHUNK_END ||| ROOT ∨
        endChunkFlags m ||| ROOT = m.base ||| CHUNK_END ||| ROOT := by
      unfold endChunkFlags startFlag
      split <;> simp
    simp only [pure_val, RootD.legal, hl, hz, ht]
    rcases hflags with h | h <;> simp [h]
  | cons left older =>
    simp only [bind_val]
    obtain ⟨l, r, h⟩ := finalMerges_root m.keyw m.base left older
      (compressCv m.cv (zpad m.tail 64) m.cidx m.tail.length (endChunkFlags m)).val
    rw [h]
    exact parentRoot_legal _ _ _ _

theorem b3Root_txs (m : B3State) (hb : m.base ∈ modeFlags) (ht : m.tail.length ≤ 64) :
    ∀ t ∈ (b3Root m).txs, txLegal t = true := by
  unfold b3Root
  cases hs : m.stack with
  | nil => simp
  | cons left older =>
    intro t h
    simp only [bind_txs, compressCv_txs, List.mem_append, List.mem_singleton] at h
    rcases h with rfl | h
    · exact b3Tx_legal_last _ _ _ _ ht (b3FlagsLegal_end _ hb _)
    · exact finalMerges_txs _ _ hb _ _ _ t h

/-! ### Output blocks -/

@[simp] theorem b3Out_length (r : RootD) (j : Nat) : (b3Out r j).val.length = 64 := by
  rw [b3Out, map_val, leWords_length, Vector.length_toList]
  rfl

@[simp] theorem b3Out_txs_eq (r : RootD) (j : Nat) :
    (b3Out r j).txs = [⟨.b3, r.rcv, r.rblock, j, r.rblen, r.rflags⟩] := rfl

theorem b3Out_txs (r : RootD) (base : BitVec 7) (hb : base ∈ modeFlags) (hr : r.legal base = true)
    (j : Nat) : ∀ t ∈ (b3Out r j).txs, txLegal t = true := by
  intro t ht
  rw [b3Out_txs_eq, List.mem_singleton] at ht
  subst ht
  simp only [RootD.legal, Bool.and_eq_true, Bool.or_eq_true, decide_eq_true_eq, beq_iff_eq] at hr
  obtain ⟨⟨⟨h1, h2⟩, h3⟩, h4⟩ := hr
  have hk : b3FlagsLegal r.rflags = true ∧
      (r.rflags &&& PARENT = 0 ∨ (r.rblen = 64 ∧ r.rflags &&& ROOT = ROOT)) := by
    simp only [modeFlags, List.mem_cons, List.not_mem_nil, or_false] at hb
    rcases h4 with (h4 | h4) | ⟨h4, h5⟩ <;> rw [h4] <;> rcases hb with rfl | rfl | rfl | rfl <;>
      first
      | exact ⟨by decide, .inl (by decide)⟩
      | exact ⟨by decide, .inr ⟨h5, by decide⟩⟩
  simp only [txLegal, h1, h3, hk.1, h2]
  rcases hk.2 with h | ⟨h, h'⟩ <;> simp [*]

theorem b3Read_length (r : RootD) (p n : Nat) : (b3Read r p n).val.length = n :=
  readBlocks_length _ (by decide) n p n le_rfl (by intro j _; simp)

theorem b3Read_txs (r : RootD) (base : BitVec 7) (hb : base ∈ modeFlags) (hr : r.legal base = true)
    (p n : Nat) : ∀ t ∈ (b3Read r p n).txs, txLegal t = true :=
  readBlocks_txs _ (b3Out_txs r base hb hr) _ _ _

end Sys2Proof.Machine
end

