-- ==== Sys2Proof/Laws/Xof.lean ====
section
/-! SUPPORT. What the XOF Adapter can do: lengths of what it reads and the transactions it issues. -/

namespace Sys2Proof.Machine

/-! ### BLAKE2X -/

theorem b2xBlock_length (p : B2Prim) (xof : Bool) (m : B2XState p) (h0 : List Byte) (b : Nat) :
    (b2xBlock p xof m h0 b).val.length = b2xBlockSize p xof m.xlen b := by
  have : b2xBlockSize p xof m.xlen b ≤ b2Out p := by unfold b2xBlockSize; split <;> omega
  simp [b2xBlock, b2State_bytes, this]

@[simp] theorem b2xBlock_txs_eq (p : B2Prim) (xof : Bool) (m : B2XState p) (h0 : List Byte)
    (b : Nat) :
    (b2xBlock p xof m h0 b).txs =
      [⟨p.prim, b2Init p (b2xParams p xof m.xlen m.saltp b), zpad h0 (b2Block p), b2Out p, 0,
        FINAL_BLOCK⟩] := rfl

theorem b2xBlock_txs (p : B2Prim) (xof : Bool) (m : B2XState p) (h0 : List Byte) (b : Nat)
    (h : h0.length = b2Out p) : ∀ t ∈ (b2xBlock p xof m h0 b).txs, txLegal t = true := by
  intro t ht
  rw [b2xBlock_txs_eq, List.mem_singleton] at ht
  subst ht
  have hc : b2Out p = b2Counter p (b2Out p) := by cases p <;> rfl
  have hl : (zpad h0 (b2Block p)).length = b2Block p := by
    have := b2Block_eq p
    rw [zpad_length]
    omega
  have := b2Tx_legal p (b2Init p (b2xParams p xof m.xlen m.saltp b)) _ (b2Out p) FINAL_BLOCK hl
    (.inr (.inl rfl))
  rwa [← hc] at this

theorem b2xRead_txs (p : B2Prim) (xof : Bool) (m : B2XState p) (h0 : List Byte) (pos n : Nat)
    (h : h0.length = b2Out p) : ∀ t ∈ (b2xRead p xof m h0 pos n).txs, txLegal t = true :=
  readBlocks_txs _ (fun j => b2xBlock_txs p xof m h0 (j % 2 ^ 32) h) _ _ _

/-- A reader's read gives what was asked for. -/
theorem b2xRead_length_reader (p : B2Prim) (m : B2XState p) (h0 : List Byte) (pos n : Nat) :
    (b2xRead p true m h0 pos n).val.length = n :=
  readBlocks_length _ (b2Out_pos p) n pos n le_rfl
    (by intro j _; rw [b2xBlock_length]; simp [b2xBlockSize])

theorem xlenSent_le (p : B2Prim) : xlenSent p ≤ 2 ^ 32 := by cases p <;> decide

/-- The digest of a fixed-length request has the length requested (44_xof_adapter.md R259). -/
theorem b2xRead_length_fixed (p : B2Prim) (m : B2XState p) (h0 : List Byte)
    (h : m.xlen < xlenSent p) : (b2xRead p false m h0 0 m.xlen).val.length = m.xlen := by
  refine readBlocks_length _ (b2Out_pos p) m.xlen 0 m.xlen le_rfl ?_
  intro j _
  have hs := xlenSent_le p
  have ho := b2Out_pos p
  rw [b2xBlock_length]
  by_cases hj : j < 2 ^ 32
  · rw [Nat.mod_eq_of_lt hj]
    simp [b2xBlockSize, Nat.mul_comm]
  · have : m.xlen ≤ j * b2Out p := by
      calc m.xlen ≤ 2 ^ 32 := by omega
        _ ≤ j := by omega
        _ ≤ j * b2Out p := Nat.le_mul_of_pos_right _ ho
    omega

theorem b2xPeriod_pos (p : B2Prim) : 0 < b2xPeriod p := by cases p <;> decide

/-- `PERIOD` is the blocks a 32-bit index counts (44_xof_adapter.md R255). -/
theorem b2xPeriod_eq (p : B2Prim) : b2xPeriod p = 2 ^ 32 * b2Out p := by cases p <;> rfl

/-! ### SHAKE -/

theorem spongeSqueeze_txs (a : SpongeAlg) (s : HashState .keccak) (xpos n : Nat) :
    ∀ t ∈ (spongeSqueeze a s xpos n).txs, txLegal t = true := squeezeLoop_txs a n s xpos n

theorem spongeSqueeze_out (a : SpongeAlg) (s : HashState .keccak) (xpos n : Nat) :
    (spongeSqueeze a s xpos n).val.out.length = n ∧
      (spongeSqueeze a s xpos n).val.xpos = xpos + n := squeezeLoop_out a n s xpos n le_rfl

/-! ### The reader operations by class -/

/-- What XOF_READ can do (44_xof_adapter.md R243). -/
theorem readSealed_cases (ceil : Nat) (ctl : Ctl) (z : Sealed) (len : Nat) (r : Traced Reading)
    (h : readSealed ceil ctl z len = .ok r) :
    (∃ a m, z = .sponge a m ∧
        r = (spongeSqueeze a m.s ctl.xpos len).map fun q =>
          ⟨q.out, { ctl with xpos := q.xpos }, .sponge a { m with s := q.s }⟩) ∨
      (∃ a m d, z = .b3 a m d ∧ ctl.xpos + len ≤ ceil ∧
        r = (b3Read d ctl.xpos len).map fun out =>
          ⟨out, { ctl with xpos := ctl.xpos + len }, .b3 a m d⟩) ∨
      ∃ p m h0, z = .b2x p m h0 ∧
        r = (b2xRead p ctl.xof m h0 ctl.xpos len).map fun out =>
          ⟨out, { ctl with xpos := (ctl.xpos + len) % b2xPeriod p }, .b2x p m h0⟩ := by
  cases z with
  | sponge a m => exact .inl ⟨a, m, rfl, by simpa [readSealed] using h.symm⟩
  | b3 a m d =>
    simp only [readSealed] at h
    split at h
    · simp at h
    · exact .inr (.inl ⟨a, m, d, rfl, by omega, by simpa using h.symm⟩)
  | b2x p m h0 => exact .inr (.inr ⟨p, m, h0, rfl, by simpa [readSealed] using h.symm⟩)
  | md a m => simp [readSealed] at h
  | b2 p m => simp [readSealed] at h
  | b2p p m => simp [readSealed] at h

/-- What XOF_SEEK can do (44_xof_adapter.md R244). -/
theorem seekSealed_cases (ceil : Nat) (ctl : Ctl) (z : Sealed) (pos : Nat) (r : Traced Reading)
    (h : seekSealed ceil ctl z pos = .ok r) :
    (∃ a m, z = .sponge a m ∧ ctl.xpos ≤ pos ∧
        r = (spongeSqueeze a m.s ctl.xpos (pos - ctl.xpos)).map fun q =>
          ⟨[], { ctl with xpos := q.xpos }, .sponge a { m with s := q.s }⟩) ∨
      (∃ a m d, z = .b3 a m d ∧ pos ≤ ceil ∧
        r = .pure ⟨[], { ctl with xpos := pos }, .b3 a m d⟩) ∨
      ∃ p m h0, z = .b2x p m h0 ∧
        r = .pure ⟨[], { ctl with xpos := pos % b2xPeriod p }, .b2x p m h0⟩ := by
  cases z with
  | sponge a m =>
    simp only [seekSealed] at h
    split at h
    · simp at h
    · exact .inl ⟨a, m, rfl, by omega, by simpa using h.symm⟩
  | b3 a m d =>
    simp only [seekSealed] at h
    split at h
    · simp at h
    · exact .inr (.inl ⟨a, m, d, rfl, by omega, by simpa using h.symm⟩)
  | b2x p m h0 => exact .inr (.inr ⟨p, m, h0, rfl, by simpa [seekSealed] using h.symm⟩)
  | md a m => simp [seekSealed] at h
  | b2 p m => simp [seekSealed] at h
  | b2p p m => simp [seekSealed] at h

/-- What a reader command can do on a slot (44_xof_adapter.md R242). -/
theorem readerCmd_cases (f : Ctl → List Byte → Sealed → Except Status Result) (slot : Slot) :
    readerCmd f slot = .error .sequenceError ∨
      ∃ ctl digest z, slot = .sealed ctl digest z ∧ ctl.xof = true ∧
        readerCmd f slot = f ctl digest z := by
  cases slot with
  | free => exact .inl rfl
  | absorbing ctl h => exact .inl rfl
  | sealed ctl digest z =>
    cases hx : ctl.xof with
    | false => exact .inl (by simp [readerCmd, hx])
    | true => exact .inr ⟨ctl, digest, z, rfl, hx, by simp [readerCmd, hx]⟩

/-- A reader command that succeeds ran on a sealed slot with `XOF = 1` (44_xof_adapter.md R242). -/
theorem readerCmd_ok {f : Ctl → List Byte → Sealed → Except Status Result} {slot : Slot} {r : Result}
    (h : readerCmd f slot = .ok r) :
    ∃ ctl digest z, slot = .sealed ctl digest z ∧ ctl.xof = true ∧ f ctl digest z = .ok r := by
  rcases readerCmd_cases f slot with hc | ⟨ctl, digest, z, hs, hx, hc⟩
  · rw [hc] at h; cases h
  · exact ⟨ctl, digest, z, hs, hx, hc.symm.trans h⟩

/-- What a successful XOF_READ is (44_xof_adapter.md R243). -/
theorem xofRead_ok {ceil len : Nat} {slot : Slot} {r : Result} (h : xofReadCmd ceil len slot = .ok r) :
    ∃ ctl digest z, slot = .sealed ctl digest z ∧ ctl.xof = true ∧
      ((len = 0 ∧ r = emptyReading ctl digest z) ∨
        (len ≠ 0 ∧ ∃ q, readSealed ceil ctl z len = .ok q ∧ r = readingResult digest q)) := by
  obtain ⟨ctl, digest, z, hs, hx, hf⟩ := readerCmd_ok h
  refine ⟨ctl, digest, z, hs, hx, ?_⟩
  by_cases hl : len = 0
  · rw [if_pos hl] at hf
    exact .inl ⟨hl, (Except.ok.inj hf).symm⟩
  · rw [if_neg hl] at hf
    cases hq : readSealed ceil ctl z len with
    | error e => simp [hq] at hf
    | ok q =>
      simp only [hq] at hf
      exact .inr ⟨hl, q, rfl, (Except.ok.inj hf).symm⟩

/-- What a successful XOF_SEEK is (44_xof_adapter.md R244). -/
theorem xofSeek_ok {ceil pos : Nat} {slot : Slot} {r : Result} (h : xofSeekCmd ceil pos slot = .ok r) :
    ∃ ctl digest z, slot = .sealed ctl digest z ∧ ctl.xof = true ∧
      ∃ q, seekSealed ceil ctl z pos = .ok q ∧ r = readingResult digest q := by
  obtain ⟨ctl, digest, z, hs, hx, hf⟩ := readerCmd_ok h
  refine ⟨ctl, digest, z, hs, hx, ?_⟩
  cases hq : seekSealed ceil ctl z pos with
  | error e => simp [hq] at hf
  | ok q =>
    simp only [hq] at hf
    exact ⟨q, rfl, (Except.ok.inj hf).symm⟩

/-- What a successful XOF_READ_AT is: nothing for `LEN = 0`, else a seek and then a read
(44_xof_adapter.md R245). -/
theorem xofReadAt_ok {ceil pos len : Nat} {slot : Slot} {r : Result}
    (h : xofReadAtCmd ceil pos len slot = .ok r) :
    ∃ ctl digest z, slot = .sealed ctl digest z ∧ ctl.xof = true ∧
      ((len = 0 ∧ r = emptyReading ctl digest z) ∨
        (len ≠ 0 ∧ readAtCheck ceil ctl z pos len = .ok () ∧ ∃ k q, seekSealed ceil ctl z pos = .ok k ∧
          readSealed ceil k.val.ctl k.val.z len = .ok q ∧
          r = readingResult digest ⟨q.val, k.txs ++ q.txs⟩)) := by
  obtain ⟨ctl, digest, z, hs, hx, hf⟩ := readerCmd_ok h
  refine ⟨ctl, digest, z, hs, hx, ?_⟩
  by_cases hl : len = 0
  · rw [if_pos hl] at hf
    exact .inl ⟨hl, (Except.ok.inj hf).symm⟩
  · rw [if_neg hl] at hf
    cases hc : readAtCheck ceil ctl z pos len with
    | error e => simp [hc] at hf
    | ok u =>
      cases hk : seekSealed ceil ctl z pos with
      | error e => simp [hc, hk] at hf
      | ok k =>
        cases hq : readSealed ceil k.val.ctl k.val.z len with
        | error e => simp [hc, hk, hq] at hf
        | ok q =>
          simp only [hc, hk, hq] at hf
          exact .inr ⟨hl, rfl, k, q, rfl, hq, (Except.ok.inj hf).symm⟩

end Sys2Proof.Machine
end

