-- ==== Sys2Proof/Laws/Classes.lean ====
section
/-! SUPPORT. What ABSORB, FINALIZE and NEW do for each class: legal states go to legal states and every
transaction is legal. -/

namespace Sys2Proof.Machine

theorem baseLegal_mode {a : B3Alg} {base : BitVec 7} (h : baseLegal a base = true) :
    base ∈ modeFlags := by
  cases a <;> simp [baseLegal] at h <;> simp [modeFlags]
  · rcases h with h | h <;> simp [h]
  · simp [h]

theorem b3Legal_iff (m : B3State) (a : B3Alg) (total : Nat) :
    m.legal a total = true ↔
      B3Inv m ∧ b3Received m = total ∧ (m.tail = [] → total = 0) ∧ baseLegal a m.base = true := by
  simp only [B3State.legal, Bool.and_eq_true, decide_eq_true_eq, b3Received]
  constructor
  · rintro ⟨⟨⟨⟨⟨h1, h2, h3⟩, h4⟩, h5⟩, h6⟩, h7⟩
    exact ⟨⟨h2, h3, h5, h6⟩, h1.symm, h4, h7⟩
  · rintro ⟨⟨h2, h3, h5, h6⟩, h1, h4, h7⟩
    exact ⟨⟨⟨⟨⟨h1.symm, h2, h3⟩, h4⟩, h5⟩, h6⟩, h7⟩

theorem b3Absorb_legal (m : B3State) (a : B3Alg) (total : Nat) (data : List Byte)
    (h : m.legal a total = true) :
    (b3Absorb m data).val.legal a (total + data.length) = true := by
  rw [b3Legal_iff] at h ⊢
  obtain ⟨h1, h2, h3, h4⟩ := h
  obtain ⟨k1, k2, _, k4, k5⟩ := b3Absorb_spec m data h1
  refine ⟨k1, by rw [k2, h2], ?_, by rw [k4]; exact h4⟩
  intro ht
  by_cases hd : data = []
  · subst hd
    simp only [b3Absorb_nil, pure_val] at ht
    simp [h3 ht]
  · exact absurd ht (k5 hd)

theorem b2LegalSeq_iff {p : B2Prim} (m : B2Inst p) (total : Nat) :
    m.legalSeq total = true ↔
      m.legal = true ∧ (m.received = total ∨ m.received = b2Block p + total) ∧
        m.lastNode = false := by
  simp [B2Inst.legalSeq, Bool.and_eq_true, and_assoc]

theorem b2Absorb_legalSeq (p : B2Prim) (m : B2Inst p) (total : Nat) (data : List Byte)
    (h : m.legalSeq total = true) : (b2Absorb p m data).val.legalSeq (total + data.length) = true := by
  rw [b2LegalSeq_iff] at h ⊢
  obtain ⟨h1, h2, h3⟩ := h
  refine ⟨b2Absorb_legal p m data h1, ?_, h3⟩
  rw [b2Absorb_received]
  omega

/-! ### ABSORB -/

/-- ABSORB keeps the algorithm (10_state.md R43). -/
@[simp] theorem absorbClass_alg (total : Nat) (h : Hasher) (data : List Byte) :
    (absorbClass total h data).val.alg = h.alg := by
  cases h <;> rfl

/-- ABSORB takes a legal class state to a legal one (10_state.md R28 to R42). -/
theorem absorbClass_legal (ctl : Ctl) (h : Hasher) (data : List Byte) (hl : h.legal ctl = true) :
    (absorbClass ctl.total h data).val.legal { ctl with total := ctl.total + data.length } = true := by
  cases h with
  | md a m => exact mdAbsorb_legal a m _ data hl
  | sponge a m => exact spongeAbsorb_legal a m _ data hl
  | b2 p m => exact b2Absorb_legalSeq p m _ data hl
  | b2p p m => exact b2pAbsorb_legal p m _ data hl
  | b2x p m =>
    simp only [Hasher.legal, Bool.and_eq_true] at hl
    simp only [absorbClass, map_val, Hasher.legal, Bool.and_eq_true]
    exact ⟨b2Absorb_legalSeq p m.inst _ data hl.1, hl.2⟩
  | b3 a m => exact b3Absorb_legal m a _ data hl

theorem absorbClass_txs (ctl : Ctl) (h : Hasher) (data : List Byte) (hl : h.legal ctl = true) :
    ∀ t ∈ (absorbClass ctl.total h data).txs, txLegal t = true := by
  cases h with
  | md a m => exact mdAbsorb_txs a m data
  | sponge a m => exact spongeAbsorb_txs a m data
  | b2 p m => exact b2Absorb_txs p m data
  | b2p p m => exact b2pAbsorbLoop_txs p _ _ _ _
  | b2x p m => exact b2Absorb_txs p m.inst data
  | b3 a m =>
    simp only [Hasher.legal] at hl
    rw [b3Legal_iff] at hl
    exact b3Absorb_txs m data hl.1 (baseLegal_mode hl.2.2.2)

/-! ### FINALIZE -/

/-- FINALIZE keeps the algorithm (10_state.md R43). -/
@[simp] theorem sealClass_alg (ctl : Ctl) (h : Hasher) : (sealClass ctl h).val.z.alg = h.alg := by
  cases h with
  | sponge a m => simp only [sealClass, sealSponge, bind_val]; split <;> rfl
  | _ => rfl

/-- The digest of a fixed-length request has `DLEN` bytes (10_state.md R24). -/
theorem sealClass_digest_length {ceil : Nat} (ctl : Ctl) (h : Hasher)
    (hc : ctl.legal ceil h.alg = true)
    (hl : h.legal ctl = true) (hx : ctl.xof = false) :
    (sealClass ctl h).val.digest.length = ctl.dlen := by
  simp only [Ctl.legal, hx, Bool.false_eq_true, if_false, Bool.and_eq_true, decide_eq_true_eq] at hc
  obtain ⟨⟨hd0, hd1⟩, hd2⟩ := hc
  cases h with
  | md a m =>
    simp only [Hasher.alg, dlenValid, decide_eq_true_eq] at hd1
    have h1 : ctl.dlen = mdDlen a := by omega
    have h2 := mdDlen_le a
    simp only [sealClass, map_val, List.length_take, mdReadout_length]
    omega
  | sponge a m =>
    simp only [sealClass, sealSponge, bind_val, hx]
    exact (spongeSqueeze_out a _ 0 ctl.dlen).1
  | b2 p m =>
    simp only [Hasher.alg, dlenValid, decide_eq_true_eq] at hd1
    exact b2Finalize_out_length p m _ hd1
  | b2p p m =>
    simp only [Hasher.alg, dlenValid, decide_eq_true_eq] at hd1
    exact b2pFinalize_out_length p m _ hd1
  | b2x p m =>
    simp only [Hasher.legal, B2XState.legalParams, hx, Bool.and_eq_true, decide_eq_true_eq] at hl
    simp only [Hasher.alg, dlenUnsupported, Bool.not_eq_true', decide_eq_false_iff_not] at hd2
    have h1 : m.xlen = ctl.dlen := hl.2.1
    simp only [sealClass, sealB2x, bind_val, digestUnless, hx, Bool.false_eq_true, if_false, map_val]
    have h2 := b2xRead_length_fixed p { m with inst := (b2Finalize p m.inst (b2Out p)).val.1 }
      (b2Finalize p m.inst (b2Out p)).val.2 (by show m.xlen < xlenSent p; omega)
    rw [← h1]
    exact h2
  | b3 a m =>
    simp only [sealClass, sealB3, bind_val, digestUnless, hx, Bool.false_eq_true, if_false, map_val]
    exact b3Read_length _ _ _

/-- FINALIZE of a legal class state leaves a legal sealed one (10_state.md R32, R37). -/
theorem sealClass_legal (ceil : Nat) (ctl : Ctl) (h : Hasher) (hl : h.legal ctl = true) :
    (sealClass ctl h).val.z.legal ceil { ctl with xpos := 0 } = true := by
  cases h with
  | md a m => rfl
  | sponge a m => simp only [sealClass, sealSponge, bind_val]; split <;> rfl
  | b2 p m => rfl
  | b2p p m => rfl
  | b2x p m =>
    simp only [Hasher.legal, Bool.and_eq_true] at hl
    simp only [sealClass, sealB2x, bind_val, map_val, Sealed.legal, Bool.and_eq_true,
      decide_eq_true_eq]
    exact ⟨⟨hl.2, b2Finalize_out_length p m.inst _ le_rfl⟩, b2xPeriod_pos p⟩
  | b3 a m =>
    simp only [Hasher.legal] at hl
    rw [b3Legal_iff] at hl
    simp only [sealClass, sealB3, bind_val, map_val, Sealed.legal, Bool.and_eq_true,
      decide_eq_true_eq]
    exact ⟨⟨⟨hl.2.2.2, b3Root_legal m hl.1.tail⟩, rfl⟩, Nat.zero_le _⟩

theorem sealClass_txs (ctl : Ctl) (h : Hasher) (hl : h.legal ctl = true) :
    ∀ t ∈ (sealClass ctl h).txs, txLegal t = true := by
  intro t ht
  cases h with
  | md a m => exact mdFinalize_txs a m _ t ht
  | sponge a m =>
    have hm : m.tail.length ≤ rate a := by
      simp only [Hasher.legal, SpongeState.legal, decide_eq_true_eq] at hl
      rw [hl]
      exact le_of_lt (Nat.mod_lt _ (rate_pos a))
    simp only [sealClass, sealSponge, bind_txs, List.mem_append] at ht
    rcases ht with ht | ht
    · exact spongeFinalize_txs a m hm t ht
    · split at ht
      · simp at ht
      · exact spongeSqueeze_txs a _ _ _ t ht
  | b2 p m =>
    simp only [Hasher.legal] at hl
    rw [b2LegalSeq_iff] at hl
    exact b2Finalize_txs p m ctl.dlen (legal_tail_le hl.1) t ht
  | b2p p m => exact b2pFinalize_txs p m _ _ hl t ht
  | b2x p m =>
    simp only [Hasher.legal, Bool.and_eq_true] at hl
    rw [b2LegalSeq_iff] at hl
    simp only [sealClass, sealB2x, bind_txs, map_txs, List.mem_append] at ht
    rcases ht with ht | ht
    · exact b2Finalize_txs p m.inst _ (legal_tail_le hl.1.1) t ht
    · unfold digestUnless at ht
      split at ht
      · simp at ht
      · exact b2xRead_txs p _ _ _ _ _ (b2Finalize_out_length p m.inst _ le_rfl) t ht
  | b3 a m =>
    simp only [Hasher.legal] at hl
    rw [b3Legal_iff] at hl
    have hb := baseLegal_mode hl.2.2.2
    simp only [sealClass, sealB3, bind_txs, map_txs, List.mem_append] at ht
    rcases ht with ht | ht
    · exact b3Root_txs m hb hl.1.tail t ht
    · unfold digestUnless at ht
      split at ht
      · simp at ht
      · exact b3Read_txs _ _ hb (b3Root_legal m hl.1.tail) _ _ t ht

/-! ### NEW -/

theorem newCheck_ok {ceil : Nat} {a : Alg} {xof : Bool} {dlen klen slen : Nat}
    (h : newCheck ceil a xof dlen klen slen = .ok ()) :
    lengthRequestValid a xof dlen = true ∧ keyFits a klen = true ∧ slen ≤ saltMax a ∧
      (xof = false → dlenUnsupported ceil a dlen = false) := by
  unfold newCheck at h
  split at h
  · simp at h
  · rename_i h1
    split at h
    · simp at h
    · rename_i h2
      simp only [Bool.not_eq_false, Bool.and_eq_true, decide_eq_true_eq] at h1
      refine ⟨h1.1.1, h1.1.2, h1.2, fun hx => ?_⟩
      simpa [hx] using h2

theorem b3Fresh_inv (keyw : ChainVal) (base : BitVec 7) : B3Inv (b3Fresh keyw base) :=
  ⟨by simp [b3Fresh], by simp [b3Fresh], fun _ => rfl, rfl⟩

/-- The instance of a fresh sequential hasher is legal (45_keying_construction.md R289). -/
theorem b2Fresh_legal (p : B2Prim) (f : B2Params) (key : List Byte) (last : Bool)
    (hk : key.length ≤ b2Out p) :
    (b2Fresh p f (keyBlock p key) last).legal = true ∧
      ((b2Fresh p f (keyBlock p key) last).received = 0 ∧ key = [] ∨
        (b2Fresh p f (keyBlock p key) last).received = b2Block p ∧ key ≠ []) := by
  rcases keyBlock_cases p key hk with ⟨h, hb⟩ | ⟨h, hb⟩
  · exact ⟨by simp [b2Fresh, B2Inst.legal, hb], .inl ⟨by simp [b2Fresh, B2Inst.received, hb], h⟩⟩
  · exact ⟨by simp [b2Fresh, B2Inst.legal, hb], .inr ⟨by simp [b2Fresh, B2Inst.received, hb], h⟩⟩

theorem ctlLegal_fixed {ceil : Nat} {ctl : Ctl} (a : Alg) (hx : ctl.xof = false) :
    ctl.legal ceil a = true ↔
      0 < ctl.dlen ∧ dlenValid a ctl.dlen = true ∧ dlenUnsupported (max ceil 32) a ctl.dlen = false := by
  simp [Ctl.legal, hx, and_assoc]

/-- The class state NEW builds is legal (45_keying_construction.md R286 to R296). -/
theorem create_legal (ceil : Nat) (a : Alg) (xof : Bool) (dlen : Nat) (key salt : List Byte)
    (h : newCheck ceil a xof dlen key.length salt.length = .ok ()) :
    (create a xof dlen key salt).val.h.alg = a ∧
      (create a xof dlen key salt).val.ctl.legal ceil a = true ∧
      (create a xof dlen key salt).val.ctl.xpos = 0 ∧
      (create a xof dlen key salt).val.h.legal (create a xof dlen key salt).val.ctl = true := by
  obtain ⟨h1, h2, h3, h4⟩ := newCheck_ok h
  unfold lengthRequestValid at h1
  cases a with
  | md a =>
    refine ⟨rfl, ?_, rfl, ?_⟩
    · cases xof
      · have hd : dlenOr (mdDlen a) dlen = mdDlen a := by
          simp only [Bool.false_eq_true, if_false, dlenValid, decide_eq_true_eq] at h1
          unfold dlenOr
          split <;> omega
        refine (ctlLegal_fixed _ rfl).2 ?_
        simp only [create, pure_val, createMd, newCtl, hd]
        exact ⟨by cases a <;> decide, by simp [dlenValid], rfl⟩
      · simp [hasXof] at h1
    · simp [create, createMd, newCtl, Hasher.legal, MdState.legal]
  | sponge a =>
    refine ⟨rfl, ?_, rfl, ?_⟩
    · cases xof
      · refine (ctlLegal_fixed _ rfl).2 ?_
        simp only [create, pure_val, createSponge, newCtl, dlenOr]
        simp only [Bool.false_eq_true, if_false] at h1
        by_cases h0 : dlen = 0
        · rw [if_pos h0]
          exact ⟨by cases a <;> decide, by simp [dlenValid], rfl⟩
        · rw [if_neg h0]
          exact ⟨by omega, h1, rfl⟩
      · simp only [if_true, Bool.and_eq_true] at h1
        simpa [create, createSponge, newCtl, Ctl.legal] using h1.1
    · simp [create, createSponge, newCtl, Hasher.legal, SpongeState.legal]
  | b2 p =>
    have hk : key.length ≤ b2Out p := by simpa [keyFits, keyMax] using h2
    refine ⟨rfl, ?_, rfl, ?_⟩
    · cases xof
      · refine (ctlLegal_fixed _ rfl).2 ?_
        simp only [create, pure_val, createB2, newCtl, dlenOr]
        simp only [Bool.false_eq_true, if_false] at h1
        by_cases h0 : dlen = 0
        · rw [if_pos h0]
          exact ⟨b2Out_pos p, by simp [dlenValid], rfl⟩
        · rw [if_neg h0]
          exact ⟨by omega, h1, rfl⟩
      · simp [hasXof] at h1
    · obtain ⟨k1, k2⟩ := b2Fresh_legal p
        (seqParams (dlenOr (b2Out p) dlen) key.length 0 (saltPers p salt)) key false hk
      simp only [create, pure_val, createB2, Hasher.legal, newCtl]
      rw [b2LegalSeq_iff]
      exact ⟨k1, by omega, rfl⟩
  | b2p p =>
    have hk : key.length ≤ b2Out p := by simpa [keyFits, keyMax] using h2
    refine ⟨rfl, ?_, rfl, ?_⟩
    · cases xof
      · refine (ctlLegal_fixed _ rfl).2 ?_
        simp only [create, pure_val, createB2p, newCtl, dlenOr]
        simp only [Bool.false_eq_true, if_false] at h1
        by_cases h0 : dlen = 0
        · rw [if_pos h0]
          exact ⟨b2Out_pos p, by simp [dlenValid], rfl⟩
        · rw [if_neg h0]
          exact ⟨by omega, h1, rfl⟩
      · simp [hasXof] at h1
    · have hleaf : ∀ k, (freshLeaf p (dlenOr (b2Out p) dlen) key salt k).legal = true ∧
          ((freshLeaf p (dlenOr (b2Out p) dlen) key salt k).received = 0 ∧ key = [] ∨
            (freshLeaf p (dlenOr (b2Out p) dlen) key salt k).received = b2Block p ∧ key ≠ []) :=
        fun k => b2Fresh_legal p _ key _ hk
      simp only [create, pure_val, createB2p, Hasher.legal, newCtl, B2PState.legal,
        Bool.and_eq_true, decide_eq_true_eq]
      refine ⟨⟨?_, ?_⟩, rfl, rfl, rfl⟩
      · intro k
        have : (⟨⟨(List.range p.nleaf).map (freshLeaf p (dlenOr (b2Out p) dlen) key salt)⟩, by simp⟩ :
            Vector (B2Inst p) p.nleaf)[k] = freshLeaf p (dlenOr (b2Out p) dlen) key salt k.val := by
          simp
        rw [this]
        exact ⟨(hleaf _).1, rfl⟩
      · have hsum : ∀ (n v : Nat), (∀ k, (freshLeaf p (dlenOr (b2Out p) dlen) key salt k).received = v) →
            (((List.range n).map (freshLeaf p (dlenOr (b2Out p) dlen) key salt)).map
              B2Inst.received).sum = n * v := by
          intro n v hv
          have : (((List.range n).map (freshLeaf p (dlenOr (b2Out p) dlen) key salt)).map
              B2Inst.received) = List.replicate n v := by
            apply List.ext_getElem <;> simp [hv]
          rw [this, List.sum_replicate, smul_eq_mul]
        refine decide_eq_true ?_
        by_cases hkey : key = []
        · left
          refine (hsum p.nleaf 0 fun k => ?_).trans (Nat.mul_zero _)
          rcases (hleaf k).2 with h | h
          · exact h.1
          · exact absurd hkey h.2
        · right
          refine (hsum p.nleaf (b2Block p) fun k => ?_).trans (Nat.add_zero _).symm
          rcases (hleaf k).2 with h | h
          · exact absurd h.2 hkey
          · exact h.1
  | b2x p =>
    have hk : key.length ≤ b2Out p := by simpa [keyFits, keyMax] using h2
    refine ⟨rfl, ?_, rfl, ?_⟩
    · cases xof
      · refine (ctlLegal_fixed _ rfl).2 ?_
        simp only [create, pure_val, createB2x, newCtl]
        simp only [Bool.false_eq_true, if_false] at h1
        refine ⟨?_, h1, h4 rfl⟩
        simp only [dlenValid, decide_eq_true_eq] at h1
        omega
      · rfl
    · obtain ⟨k1, k2⟩ := b2Fresh_legal p
        (seqParams (b2Out p) key.length (newXlen p xof dlen) (saltPers p salt)) key false hk
      have hsp : (saltPers p salt).length = b2Out p / 2 := by
        simp only [saltMax] at h3
        simp [saltPers, h3]
      simp only [create, pure_val, createB2x, Hasher.legal, newCtl, Bool.and_eq_true]
      rw [b2LegalSeq_iff]
      exact ⟨⟨k1, by omega, rfl⟩, by simp [B2XState.legalParams, newXlen, hsp]⟩
  | b3 a =>
    have hctl : (b3Ctl xof dlen).legal ceil (.b3 a) = true := by
      cases xof
      · refine (ctlLegal_fixed _ rfl).2 ?_
        simp only [b3Ctl, newCtl, dlenOr]
        by_cases h0 : dlen = 0
        · rw [if_pos h0]
          exact ⟨by decide, rfl, by simp [dlenUnsupported]⟩
        · rw [if_neg h0]
          have h5 := h4 rfl
          simp only [dlenUnsupported, decide_eq_false_iff_not, Nat.not_lt] at h5 ⊢
          exact ⟨by omega, rfl, by omega⟩
      · rfl
    cases a with
    | blake3 =>
      refine ⟨rfl, hctl, rfl, ?_⟩
      simp only [create, pure_val, createBlake3, Hasher.legal]
      rw [b3Legal_iff]
      split
      · exact ⟨b3Fresh_inv _ _, rfl, fun _ => rfl, rfl⟩
      · exact ⟨b3Fresh_inv _ _, rfl, fun _ => rfl, rfl⟩
    | deriveKey =>
      refine ⟨rfl, hctl, rfl, ?_⟩
      simp only [create, createDeriveKey, map_val, Hasher.legal]
      rw [b3Legal_iff]
      exact ⟨b3Fresh_inv _ _, rfl, fun _ => rfl, rfl⟩

/-- Stage 1 of derive-key issues legal transactions (45_keying_construction.md R294). -/
theorem deriveStage1_txs (context : List Byte) :
    ∀ t ∈ (deriveStage1 context).txs, txLegal t = true := by
  have hb : DERIVE_KEY_CONTEXT ∈ modeFlags := by decide
  obtain ⟨k1, _, _, k4, _⟩ :=
    b3Absorb_spec (b3Fresh Config.ivB3 DERIVE_KEY_CONTEXT) context (b3Fresh_inv _ _)
  have k5 : (b3Absorb (b3Fresh Config.ivB3 DERIVE_KEY_CONTEXT) context).val.base
      = DERIVE_KEY_CONTEXT := k4
  intro t ht
  simp only [deriveStage1, bind_txs, map_txs, List.mem_append] at ht
  rcases ht with ht | ht | ht
  · exact b3Absorb_txs _ _ (b3Fresh_inv _ _) hb t ht
  · exact b3Root_txs _ (by rw [k5]; exact hb) k1.tail t ht
  · exact b3Out_txs _ _ (by rw [k5]; exact hb) (b3Root_legal _ k1.tail) 0 t ht

theorem create_txs (a : Alg) (xof : Bool) (dlen : Nat) (key salt : List Byte) :
    ∀ t ∈ (create a xof dlen key salt).txs, txLegal t = true := by
  cases a with
  | b3 a =>
    cases a with
    | blake3 => simp [create]
    | deriveKey => exact deriveStage1_txs key
  | _ => simp [create]

/-! ### The reader operations -/

theorem slotLegal_sealed (ceil : Nat) (ctl : Ctl) (digest : List Byte) (z : Sealed) :
    (Slot.sealed ctl digest z).legal ceil = true ↔
      ctl.legal ceil z.alg = true ∧ z.legal ceil ctl = true ∧
        (ctl.xof = true ∨ (digest.length = ctl.dlen ∧ ctl.xpos = 0)) := by
  simp [Slot.legal, and_assoc]

theorem sealedLegal_b3 (ceil : Nat) (ctl : Ctl) (a : B3Alg) (m : B3State) (d : RootD) :
    (Sealed.b3 a m d).legal ceil ctl = true ↔
      baseLegal a m.base = true ∧ d.legal m.base = true ∧ m.stack = [] ∧
        ctl.xpos ≤ ceil := by
  simp [Sealed.legal, and_assoc]

theorem sealedLegal_b2x (ceil : Nat) (ctl : Ctl) (p : B2Prim) (m : B2XState p) (h0 : List Byte) :
    (Sealed.b2x p m h0).legal ceil ctl = true ↔
      m.legalParams ctl = true ∧ h0.length = b2Out p ∧ ctl.xpos < b2xPeriod p := by
  simp [Sealed.legal, and_assoc]

/-- What a reader operation keeps: the algorithm, every control field but the cursor, legality. -/
structure ReadKeeps (ceil : Nat) (ctl : Ctl) (z : Sealed) (r : Traced Reading) : Prop where
  alg : r.val.z.alg = z.alg
  others : r.val.ctl = { ctl with xpos := r.val.ctl.xpos }
  legal : z.legal ceil ctl = true → r.val.z.legal ceil r.val.ctl = true
  txs : z.legal ceil ctl = true → ∀ t ∈ r.txs, txLegal t = true

theorem readSealed_keeps {ceil : Nat} {ctl : Ctl} {z : Sealed} {len : Nat} {r : Traced Reading}
    (h : readSealed ceil ctl z len = .ok r) : ReadKeeps ceil ctl z r := by
  rcases readSealed_cases ceil ctl z len r h with ⟨a, m, rfl, rfl⟩ | ⟨a, m, d, rfl, hc, rfl⟩ |
    ⟨p, m, h0, rfl, rfl⟩
  · exact ⟨rfl, rfl, fun _ => rfl, fun _ => by simpa using spongeSqueeze_txs a _ _ _⟩
  · refine ⟨rfl, rfl, fun hz => ?_, fun hz => ?_⟩ <;> rw [sealedLegal_b3] at hz
    · exact (sealedLegal_b3 _ _ _ _ _).2 ⟨hz.1, hz.2.1, hz.2.2.1, hc⟩
    · simpa using b3Read_txs d m.base (baseLegal_mode hz.1) hz.2.1 _ _
  · refine ⟨rfl, rfl, fun hz => ?_, fun hz => ?_⟩ <;> rw [sealedLegal_b2x] at hz
    · exact (sealedLegal_b2x _ _ _ _ _).2 ⟨hz.1, hz.2.1, Nat.mod_lt _ (b2xPeriod_pos p)⟩
    · simpa using b2xRead_txs p _ m h0 _ _ hz.2.1

theorem seekSealed_keeps {ceil : Nat} {ctl : Ctl} {z : Sealed} {pos : Nat} {r : Traced Reading}
    (h : seekSealed ceil ctl z pos = .ok r) : ReadKeeps ceil ctl z r := by
  rcases seekSealed_cases ceil ctl z pos r h with ⟨a, m, rfl, _, rfl⟩ | ⟨a, m, d, rfl, hc, rfl⟩ |
    ⟨p, m, h0, rfl, rfl⟩
  · exact ⟨rfl, rfl, fun _ => rfl, fun _ => by simpa using spongeSqueeze_txs a _ _ _⟩
  · refine ⟨rfl, rfl, fun hz => ?_, fun _ => by simp⟩
    rw [sealedLegal_b3] at hz
    exact (sealedLegal_b3 _ _ _ _ _).2 ⟨hz.1, hz.2.1, hz.2.2.1, hc⟩
  · refine ⟨rfl, rfl, fun hz => ?_, fun _ => by simp⟩
    rw [sealedLegal_b2x] at hz
    exact (sealedLegal_b2x _ _ _ _ _).2 ⟨hz.1, hz.2.1, Nat.mod_lt _ (b2xPeriod_pos p)⟩

/-- The slot after a reader operation is legal. -/
theorem readingResult_legal {ceil : Nat} {ctl : Ctl} {digest : List Byte} {z : Sealed}
    {r : Traced Reading} (hs : (Slot.sealed ctl digest z).legal ceil = true) (hx : ctl.xof = true)
    (h : ReadKeeps ceil ctl z r) : (readingResult digest r).slot.legal ceil = true := by
  rw [slotLegal_sealed] at hs
  refine (slotLegal_sealed _ _ _ _).2 ⟨?_, h.legal hs.2.1, ?_⟩
  · rw [h.alg, h.others]; exact hs.1
  · rw [h.others]; exact .inl hx

end Sys2Proof.Machine
end

