-- ==== Sys2Proof/Laws/Decode.lean ====
section
/-! SUPPORT. The fields of a header word, the operands of a frame, and what the decoder does with a
header and the bytes after it. -/

namespace Sys2Proof

/-! ### Header fields (30_encoding.md R91) -/

section
variable (opc c : BitVec 4) (alg : BitVec 8) (x : Bool)

@[simp] theorem hdrOpc_hdrWord : hdrOpc (hdrWord opc c alg x) = opc := by
  ext i hi
  simp only [hdrOpc, hdrWord, BitVec.getElem_extractLsb', BitVec.getLsbD_append]
  have : i < 4 := hi
  interval_cases i <;> simp [BitVec.getLsbD_eq_getElem]

@[simp] theorem hdrCtx_hdrWord : hdrCtx (hdrWord opc c alg x) = c := by
  ext i hi
  simp only [hdrCtx, hdrWord, BitVec.getElem_extractLsb', BitVec.getLsbD_append]
  have : i < 4 := hi
  interval_cases i <;> simp [BitVec.getLsbD_eq_getElem]

@[simp] theorem hdrAlg_hdrWord : hdrAlg (hdrWord opc c alg x) = alg := by
  ext i hi
  simp only [hdrAlg, hdrWord, BitVec.getElem_extractLsb', BitVec.getLsbD_append]
  have : i < 8 := hi
  interval_cases i <;> simp [BitVec.getLsbD_eq_getElem]

@[simp] theorem hdrReservedHigh_hdrWord : hdrReservedHigh (hdrWord opc c alg x) = 0 := by
  ext i hi
  simp only [hdrReservedHigh, hdrWord, BitVec.getElem_extractLsb', BitVec.getLsbD_append]
  have : i < 7 := hi
  interval_cases i <;> simp

@[simp] theorem hdrReservedLow_hdrWord : hdrReservedLow (hdrWord opc c alg x) = 0 := by
  ext i hi
  simp only [hdrReservedLow, hdrWord, BitVec.getElem_extractLsb', BitVec.getLsbD_append]
  have : i < 8 := hi
  interval_cases i <;> simp

@[simp] theorem hdrXof_hdrWord : hdrXof (hdrWord opc c alg x) = x := by
  have h : (hdrWord opc c alg x).extractLsb' 8 1 = if x then 1 else 0 := by
    ext i hi
    simp only [hdrWord, BitVec.getElem_extractLsb', BitVec.getLsbD_append]
    have : i < 1 := hi
    interval_cases i
    cases x <;> simp
  simp only [hdrXof, h]
  cases x <;> decide

end

/-- A header word with its reserved bits 0 is the word of its four fields. -/
theorem hdrWord_fields (w : BitVec 32) (hh : hdrReservedHigh w = 0) (hl : hdrReservedLow w = 0) :
    hdrWord (hdrOpc w) (hdrCtx w) (hdrAlg w) (hdrXof w) = w := by
  have h1 : ∀ i, i < 7 → w.getLsbD (9 + i) = false := by
    intro i hi
    have := congrArg (fun v : BitVec 7 => v.getLsbD i) hh
    simpa [hdrReservedHigh, hi] using this
  have h2 : ∀ i, i < 8 → w.getLsbD i = false := by
    intro i hi
    have := congrArg (fun v : BitVec 8 => v.getLsbD i) hl
    simpa [hdrReservedLow, hi] using this
  have hx : (if hdrXof w then 1 else 0 : BitVec 1) = w.extractLsb' 8 1 := by
    unfold hdrXof
    by_cases h : w.extractLsb' 8 1 = 1
    · rw [h]; rfl
    · have : w.extractLsb' 8 1 = 0 := by
        rcases BitVec.eq_zero_or_eq_one (w.extractLsb' 8 1) with h' | h'
        · exact h'
        · exact absurd h' h
      rw [this]; rfl
  unfold hdrWord
  rw [hx]
  ext i hi
  have hi' : i < 32 := hi
  simp only [hdrOpc, hdrCtx, hdrAlg, ← BitVec.getLsbD_eq_getElem, BitVec.getLsbD_append]
  have a := h1 0 (by decide); have b := h1 1 (by decide); have c := h1 2 (by decide)
  have d := h1 3 (by decide); have e := h1 4 (by decide); have f := h1 5 (by decide)
  have g := h1 6 (by decide)
  have h := h2 0 (by decide); have j := h2 1 (by decide); have k := h2 2 (by decide)
  have l := h2 3 (by decide); have m := h2 4 (by decide); have n := h2 5 (by decide)
  have o := h2 6 (by decide); have p := h2 7 (by decide)
  interval_cases i <;> simp_all

/-! ### Operands (30_encoding.md R98) -/

theorem operand_zero (v : Nat) (bs : List Byte) :
    operand (leBytes 8 v ++ bs) 0 = v % 2 ^ 64 := by
  simp [operand, leVal_leBytes]

theorem operand_succ (v : Nat) (bs : List Byte) (k : Nat) :
    operand (leBytes 8 v ++ bs) (k + 1) = operand bs k := by
  have : (leBytes 8 v ++ bs).drop (8 * (k + 1)) = bs.drop (8 * k) := by
    rw [show 8 * (k + 1) = (leBytes 8 v).length + 8 * k by simp; omega, List.drop_append]
    simp
  simp [operand, this]

theorem operand_lt (bs : List Byte) (k : Nat) : operand bs k < 2 ^ 64 := by
  have h := leVal_lt ((bs.drop (8 * k)).take 8)
  have h2 : ((bs.drop (8 * k)).take 8).length ≤ 8 := by simp
  calc operand bs k < 256 ^ ((bs.drop (8 * k)).take 8).length := h
    _ ≤ 256 ^ 8 := Nat.pow_le_pow_right (by decide) h2
    _ = 2 ^ 64 := by norm_num

/-- The bytes of operand `k` are those of its value. -/
theorem leBytes_operand (bs : List Byte) (k : Nat) (h : 8 * k + 8 ≤ bs.length) :
    leBytes 8 (operand bs k) = (bs.drop (8 * k)).take 8 := by
  have hl : ((bs.drop (8 * k)).take 8).length = 8 := by simp; omega
  have := leBytes_leVal ((bs.drop (8 * k)).take 8)
  rwa [hl] at this

/-! ### Algorithm numbers (30_encoding.md R97) -/

@[simp] theorem ofNumber_number (a : Alg) : Alg.ofNumber a.number = some a := by
  cases a with
  | md a => cases a <;> decide
  | sponge a => cases a <;> decide
  | b2 p => cases p <;> decide
  | b2p p => cases p <;> decide
  | b2x p => cases p <;> decide
  | b3 a => cases a <;> decide

theorem number_ofNumber {n : BitVec 8} {a : Alg} (h : Alg.ofNumber n = some a) : a.number = n := by
  have := List.find?_some h
  simpa using this

/-! ### The decoder on a header and the bytes after it (30_encoding.md R102) -/

theorem headerVal (w : BitVec 32) : BitVec.ofNat 32 (leVal (leBytes 4 w.toNat)) = w := by
  rw [leVal_leBytes]
  apply BitVec.eq_of_toNat_eq
  have h := w.isLt
  simp only [BitVec.toNat_ofNat]
  omega

/-- What follows the header of a frame: the outcome, by the lengths the operands announce. -/
theorem decodeFrame_header (nctx : Nat) (w : BitVec 32) (body : List Byte) :
    decodeFrame nctx (leBytes 4 w.toNat ++ body) =
      if body.length < 8 * operandCount (hdrOpc w) then .incomplete
      else if body.length < 8 * operandCount (hdrOpc w) + payloadLength (hdrOpc w) body then
        .incomplete
      else
        match headerIllegal nctx w with
        | some why =>
          .illegal why (body.drop (8 * operandCount (hdrOpc w) + payloadLength (hdrOpc w) body))
        | none =>
          match buildInstr w body
            ((body.drop (8 * operandCount (hdrOpc w))).take (payloadLength (hdrOpc w) body)) with
          | some i =>
            .command i (body.drop (8 * operandCount (hdrOpc w) + payloadLength (hdrOpc w) body))
          | none => .illegal .reservedOpcode
              (body.drop (8 * operandCount (hdrOpc w) + payloadLength (hdrOpc w) body)) := by
  have h4 : ¬(leBytes 4 w.toNat ++ body).length < 4 := by simp
  have ht : (leBytes 4 w.toNat ++ body).take 4 = leBytes 4 w.toNat := by
    rw [List.take_append_of_le_length (by simp)]
    simp [List.take_of_length_le]
  have hd : (leBytes 4 w.toNat ++ body).drop 4 = body := by
    rw [List.drop_append]
    simp
  unfold decodeFrame
  rw [if_neg h4]
  simp only [ht, hd, headerVal]
  split
  · rfl
  · have : ((body.drop (8 * operandCount (hdrOpc w))).length < payloadLength (hdrOpc w) body) =
        (body.length < 8 * operandCount (hdrOpc w) + payloadLength (hdrOpc w) body) := by
      rw [List.length_drop]
      apply propext
      omega
    simp only [this, List.drop_drop] <;> split <;> first
      | rfl
      | cases headerIllegal nctx w <;> rfl

/-- The header of a byte sequence of at least 4 bytes. -/
theorem header_split (bs : List Byte) (h : 4 ≤ bs.length) :
    ∃ w : BitVec 32, ∃ body, bs = leBytes 4 w.toNat ++ body := by
  refine ⟨BitVec.ofNat 32 (leVal (bs.take 4)), bs.drop 4, ?_⟩
  have hl : (bs.take 4).length = 4 := by simp [h]
  have hv := leVal_lt (bs.take 4)
  rw [hl] at hv
  have : leBytes 4 (BitVec.ofNat 32 (leVal (bs.take 4))).toNat = bs.take 4 := by
    rw [BitVec.toNat_ofNat, Nat.mod_eq_of_lt (by simpa using hv)]
    have := leBytes_leVal (bs.take 4)
    rwa [hl] at this
  rw [this, List.take_append_drop]

theorem decodeFrame_short (nctx : Nat) (bs : List Byte) (h : bs.length < 4) :
    decodeFrame nctx bs = .incomplete := by
  simp [decodeFrame, h]

end Sys2Proof
end

