-- ==== Sys2Proof/Laws/State.lean ====
section
/-! SUPPORT. What each update of the state does to each field, and the context store read after a
write. -/

namespace Sys2Proof.Machine

/-! ### Field by field -/

@[simp] theorem setSlot_params (s : State) (c : BitVec 4) (v : Slot) :
    (s.setSlot c v).params = s.params := rfl
@[simp] theorem setSlot_cmd (s : State) (c : BitVec 4) (v : Slot) : (s.setSlot c v).cmd = s.cmd := rfl
@[simp] theorem setSlot_rsp (s : State) (c : BitVec 4) (v : Slot) : (s.setSlot c v).rsp = s.rsp := rfl
@[simp] theorem setSlot_cport (s : State) (c : BitVec 4) (v : Slot) :
    (s.setSlot c v).cport = s.cport := rfl

@[simp] theorem deliver_params (s : State) (bs : List Byte) : (s.deliver bs).params = s.params := rfl
@[simp] theorem deliver_ctx (s : State) (bs : List Byte) : (s.deliver bs).ctx = s.ctx := rfl
@[simp] theorem deliver_cmd (s : State) (bs : List Byte) : (s.deliver bs).cmd = s.cmd ++ bs := rfl
@[simp] theorem deliver_rsp (s : State) (bs : List Byte) : (s.deliver bs).rsp = s.rsp := rfl
@[simp] theorem deliver_cport (s : State) (bs : List Byte) : (s.deliver bs).cport = s.cport := rfl

@[simp] theorem consume_params (s : State) (bs : List Byte) : (s.consume bs).params = s.params := rfl
@[simp] theorem consume_ctx (s : State) (bs : List Byte) : (s.consume bs).ctx = s.ctx := rfl
@[simp] theorem consume_cmd (s : State) (bs : List Byte) : (s.consume bs).cmd = bs := rfl
@[simp] theorem consume_rsp (s : State) (bs : List Byte) : (s.consume bs).rsp = s.rsp := rfl
@[simp] theorem consume_cport (s : State) (bs : List Byte) : (s.consume bs).cport = s.cport := rfl

@[simp] theorem issue_params (s : State) (txs : List Tx) : (s.issue txs).params = s.params := rfl
@[simp] theorem issue_ctx (s : State) (txs : List Tx) : (s.issue txs).ctx = s.ctx := rfl
@[simp] theorem issue_cmd (s : State) (txs : List Tx) : (s.issue txs).cmd = s.cmd := rfl
@[simp] theorem issue_rsp (s : State) (txs : List Tx) : (s.issue txs).rsp = s.rsp := rfl
@[simp] theorem issue_cport (s : State) (txs : List Tx) : (s.issue txs).cport = s.cport ++ txs := rfl

@[simp] theorem respond_params (s : State) (st : Status) (p : List Byte) :
    (s.respond st p).params = s.params := rfl
@[simp] theorem respond_ctx (s : State) (st : Status) (p : List Byte) :
    (s.respond st p).ctx = s.ctx := rfl
@[simp] theorem respond_cmd (s : State) (st : Status) (p : List Byte) :
    (s.respond st p).cmd = s.cmd := rfl
@[simp] theorem respond_rsp (s : State) (st : Status) (p : List Byte) :
    (s.respond st p).rsp = s.rsp ++ responseFrame st p := rfl
@[simp] theorem respond_cport (s : State) (st : Status) (p : List Byte) :
    (s.respond st p).cport = s.cport := rfl

@[simp] theorem putFirst_params (s : State) (bs : List Byte) :
    (s.putFirst bs).params = s.params := rfl
@[simp] theorem putFirst_ctx (s : State) (bs : List Byte) : (s.putFirst bs).ctx = s.ctx := rfl
@[simp] theorem putFirst_cmd (s : State) (bs : List Byte) : (s.putFirst bs).cmd = bs ++ s.cmd := rfl
@[simp] theorem putFirst_rsp (s : State) (bs : List Byte) : (s.putFirst bs).rsp = s.rsp := rfl
@[simp] theorem putFirst_cport (s : State) (bs : List Byte) : (s.putFirst bs).cport = s.cport := rfl

@[simp] theorem answered_params (s : State) (c : BitVec 4) (v : Slot) (txs : List Tx)
    (p : List Byte) : (s.answered c v txs p).params = s.params := rfl
@[simp] theorem answered_cmd (s : State) (c : BitVec 4) (v : Slot) (txs : List Tx) (p : List Byte) :
    (s.answered c v txs p).cmd = s.cmd := rfl
@[simp] theorem answered_rsp (s : State) (c : BitVec 4) (v : Slot) (txs : List Tx) (p : List Byte) :
    (s.answered c v txs p).rsp = s.rsp ++ responseFrame .ok p := rfl
@[simp] theorem answered_cport (s : State) (c : BitVec 4) (v : Slot) (txs : List Tx)
    (p : List Byte) : (s.answered c v txs p).cport = s.cport ++ txs := rfl

@[simp] theorem failed_params (s : State) (e : Status) : (s.failed e).params = s.params := rfl
@[simp] theorem failed_ctx (s : State) (e : Status) : (s.failed e).ctx = s.ctx := rfl
@[simp] theorem failed_cmd (s : State) (e : Status) : (s.failed e).cmd = s.cmd := rfl
@[simp] theorem failed_rsp (s : State) (e : Status) :
    (s.failed e).rsp = s.rsp ++ responseFrame e [] := rfl
@[simp] theorem failed_cport (s : State) (e : Status) : (s.failed e).cport = s.cport := rfl

/-! ### The slots after an update that leaves the context store alone -/

@[simp] theorem slot_deliver (s : State) (bs : List Byte) (c : BitVec 4) :
    (s.deliver bs).slot c = s.slot c := rfl
@[simp] theorem slot_consume (s : State) (bs : List Byte) (c : BitVec 4) :
    (s.consume bs).slot c = s.slot c := rfl
@[simp] theorem slot_issue (s : State) (txs : List Tx) (c : BitVec 4) :
    (s.issue txs).slot c = s.slot c := rfl
@[simp] theorem slot_respond (s : State) (st : Status) (p : List Byte) (c : BitVec 4) :
    (s.respond st p).slot c = s.slot c := rfl
@[simp] theorem slot_putFirst (s : State) (bs : List Byte) (c : BitVec 4) :
    (s.putFirst bs).slot c = s.slot c := rfl
@[simp] theorem slot_failed (s : State) (e : Status) (c : BitVec 4) :
    (s.failed e).slot c = s.slot c := rfl

/-! ### The context store read after a write -/

@[simp] theorem slot_setSlot_self (s : State) (c : BitVec 4) (v : Slot) :
    (s.setSlot c v).slot c = v := by
  simp [State.slot, State.setSlot]

theorem slot_setSlot_ne (s : State) {c d : BitVec 4} (v : Slot) (h : d ≠ c) :
    (s.setSlot c v).slot d = s.slot d := by
  have hn : c.toNat ≠ d.toNat := fun e => h (BitVec.eq_of_toNat_eq e.symm)
  simp [State.slot, State.setSlot, Vector.getElem_set_ne, hn]

theorem slot_setSlot (s : State) (c d : BitVec 4) (v : Slot) :
    (s.setSlot c v).slot d = if d = c then v else s.slot d := by
  by_cases h : d = c
  · subst h; simp
  · simp [h, slot_setSlot_ne s v h]

theorem slot_answered (s : State) (c d : BitVec 4) (v : Slot) (txs : List Tx) (p : List Byte) :
    (s.answered c v txs p).slot d = if d = c then v else s.slot d :=
  slot_setSlot s c d v

@[simp] theorem slot_answered_self (s : State) (c : BitVec 4) (v : Slot) (txs : List Tx)
    (p : List Byte) : (s.answered c v txs p).slot c = v := slot_setSlot_self s c v

/-- Two context stores with equal slots are equal. -/
theorem ctx_ext {s t : State} (h : ∀ c : BitVec 4, s.slot c = t.slot c) : s.ctx = t.ctx := by
  apply Vector.ext
  intro i hi
  have := h (BitVec.ofNat 4 i)
  have hm : i % 16 = i := Nat.mod_eq_of_lt hi
  simpa [State.slot, hm] using this

@[simp] theorem slot_resetOf (P : Params) (c : BitVec 4) : (State.resetOf P).slot c = .free := by
  simp [State.slot, State.resetOf]

@[simp] theorem slot_reset (c : BitVec 4) : State.reset.slot c = .free := slot_resetOf _ c

end Sys2Proof.Machine
end

