-- ==== Sys2Proof/Laws/Ops.lean ====
section
/-! SUPPORT. What the shared operations of Ops.lean can do: each outcome, once. -/

namespace Sys2Proof.Machine

theorem raise_eq (e : Status) (s : State) : raise e s = .next (s.failed e) := rfl

theorem complete_eq (c : BitVec 4) (r : Result) (s : State) :
    complete c r s = .next (s.answered c r.slot r.txs r.payload) := rfl

theorem runOn_error {c : BitVec 4} {f : Slot → Except Status Result} {s : State} {e : Status}
    (h : f (s.slot c) = .error e) : runOn c f s = .next (s.failed e) := by
  simp [runOn, h, raise_eq]

theorem runOn_ok {c : BitVec 4} {f : Slot → Except Status Result} {s : State} {r : Result}
    (h : f (s.slot c) = .ok r) : runOn c f s = .next (s.answered c r.slot r.txs r.payload) := by
  simp [runOn, h, complete_eq]

/-- A command on a slot either fails, with nothing but its response, or completes. -/
theorem runOn_cases (c : BitVec 4) (f : Slot → Except Status Result) (s : State) :
    (∃ e, f (s.slot c) = .error e ∧ runOn c f s = .next (s.failed e)) ∨
      ∃ r, f (s.slot c) = .ok r ∧ runOn c f s = .next (s.answered c r.slot r.txs r.payload) := by
  cases h : f (s.slot c) with
  | error e => exact .inl ⟨e, rfl, runOn_error h⟩
  | ok r => exact .inr ⟨r, rfl, runOn_ok h⟩

/-- What a command does to its slot on an instance whose `B3_CEIL` is `ceil`: the function `runOn` applies. -/
def slotCmd (ceil : Nat) : Instr → Slot → Except Status Result
  | .newMd5 _ xof dlen key salt => newCmd ceil (.md .md5) xof dlen key salt
  | .newSha1 _ xof dlen key salt => newCmd ceil (.md .sha1) xof dlen key salt
  | .newSha224 _ xof dlen key salt => newCmd ceil (.md .sha224) xof dlen key salt
  | .newSha256 _ xof dlen key salt => newCmd ceil (.md .sha256) xof dlen key salt
  | .newSha384 _ xof dlen key salt => newCmd ceil (.md .sha384) xof dlen key salt
  | .newSha512 _ xof dlen key salt => newCmd ceil (.md .sha512) xof dlen key salt
  | .newSha512_224 _ xof dlen key salt => newCmd ceil (.md .sha512_224) xof dlen key salt
  | .newSha512_256 _ xof dlen key salt => newCmd ceil (.md .sha512_256) xof dlen key salt
  | .newSha3_224 _ xof dlen key salt => newCmd ceil (.sponge .sha3_224) xof dlen key salt
  | .newSha3_256 _ xof dlen key salt => newCmd ceil (.sponge .sha3_256) xof dlen key salt
  | .newSha3_384 _ xof dlen key salt => newCmd ceil (.sponge .sha3_384) xof dlen key salt
  | .newSha3_512 _ xof dlen key salt => newCmd ceil (.sponge .sha3_512) xof dlen key salt
  | .newShake128 _ xof dlen key salt => newCmd ceil (.sponge .shake128) xof dlen key salt
  | .newShake256 _ xof dlen key salt => newCmd ceil (.sponge .shake256) xof dlen key salt
  | .newBlake2b _ xof dlen key salt => newCmd ceil (.b2 .b2b) xof dlen key salt
  | .newBlake2s _ xof dlen key salt => newCmd ceil (.b2 .b2s) xof dlen key salt
  | .newBlake2bp _ xof dlen key salt => newCmd ceil (.b2p .b2b) xof dlen key salt
  | .newBlake2sp _ xof dlen key salt => newCmd ceil (.b2p .b2s) xof dlen key salt
  | .newBlake2xb _ xof dlen key salt => newCmd ceil (.b2x .b2b) xof dlen key salt
  | .newBlake2xs _ xof dlen key salt => newCmd ceil (.b2x .b2s) xof dlen key salt
  | .newBlake3 _ xof dlen key salt => newCmd ceil (.b3 .blake3) xof dlen key salt
  | .newBlake3DeriveKey _ xof dlen key salt => newCmd ceil (.b3 .deriveKey) xof dlen key salt
  | .absorb _ data => absorbCmd data
  | .finalize _ => finalizeCmd
  | .xofRead _ len => xofReadCmd ceil len.toNat
  | .xofSeek _ pos => xofSeekCmd ceil pos.toNat
  | .xofReadAt _ pos len => xofReadAtCmd ceil pos.toNat len.toNat

/-- Every command runs on the slot it names. -/
theorem exec_eq_runOn (i : Instr) (s : State) : exec i s = runOn i.context (slotCmd s.params.b3Ceil i) s := by
  cases i <;> rfl

/-- What a command can do: fail with nothing but its response, or complete on the slot it names. -/
theorem exec_cases (i : Instr) (s : State) :
    (∃ e, slotCmd s.params.b3Ceil i (s.slot i.context) = .error e ∧ exec i s = .next (s.failed e)) ∨
      ∃ r, slotCmd s.params.b3Ceil i (s.slot i.context) = .ok r ∧
        exec i s = .next (s.answered i.context r.slot r.txs r.payload) := by
  rw [exec_eq_runOn]; exact runOn_cases _ _ _

@[simp] theorem exec_new (a : Alg) (c : BitVec 4) (xof : Bool) (dlen : BitVec 64)
    (key salt : List Byte) (s : State) :
    exec (.new a c xof dlen key salt) s = runOn c (newCmd s.params.b3Ceil a xof dlen key salt) s := by
  cases a with
  | md a => cases a <;> rfl
  | sponge a => cases a <;> rfl
  | b2 p => cases p <;> rfl
  | b2p p => cases p <;> rfl
  | b2x p => cases p <;> rfl
  | b3 a => cases a <;> rfl

@[simp] theorem context_new (a : Alg) (c : BitVec 4) (xof : Bool) (dlen : BitVec 64)
    (key salt : List Byte) : (Instr.new a c xof dlen key salt).context = c := by
  cases a with
  | md a => cases a <;> rfl
  | sponge a => cases a <;> rfl
  | b2 p => cases p <;> rfl
  | b2p p => cases p <;> rfl
  | b2x p => cases p <;> rfl
  | b3 a => cases a <;> rfl

@[simp] theorem slotCmd_new (ceil : Nat) (a : Alg) (c : BitVec 4) (xof : Bool) (dlen : BitVec 64)
    (key salt : List Byte) :
    slotCmd ceil (Instr.new a c xof dlen key salt) = newCmd ceil a xof dlen key salt := by
  cases a with
  | md a => cases a <;> rfl
  | sponge a => cases a <;> rfl
  | b2 p => cases p <;> rfl
  | b2p p => cases p <;> rfl
  | b2x p => cases p <;> rfl
  | b3 a => cases a <;> rfl

/-- A NEW command is `Instr.new` of the algorithm it names. -/
theorem eq_new_of_newAlg {i : Instr} {a : Alg} (h : i.newAlg = some a) :
    ∃ xof dlen key salt, i = .new a i.context xof dlen key salt := by
  cases i <;> simp only [Instr.newAlg, Option.some.injEq, reduceCtorEq] at h <;> subst h <;>
    exact ⟨_, _, _, _, rfl⟩

/-- NEW fails by its check alone, or creates the slot (45_keying_construction.md R281). -/
theorem newCmd_cases (ceil : Nat) (a : Alg) (xof : Bool) (dlen : BitVec 64) (key salt : List Byte)
    (old : Slot) :
    (∃ e, newCheck ceil a xof dlen.toNat key.length salt.length = .error e ∧
        newCmd ceil a xof dlen key salt old = .error e) ∨
      (newCheck ceil a xof dlen.toNat key.length salt.length = .ok () ∧
        newCmd ceil a xof dlen key salt old =
          .ok { slot := .absorbing (create a xof dlen.toNat key salt).val.ctl
                  (create a xof dlen.toNat key salt).val.h
                payload := []
                txs := (create a xof dlen.toNat key salt).txs }) := by
  unfold newCmd
  cases h : newCheck ceil a xof dlen.toNat key.length salt.length with
  | error e => exact .inl ⟨e, rfl, rfl⟩
  | ok u => exact .inr ⟨rfl, rfl⟩

end Sys2Proof.Machine
end

