-- ==== Sys2Proof/Laws/PerInstr.lean ====
section
/-! SUPPORT. Laws made per instruction: the length of every command's frame (30_encoding.md R94). -/

namespace Sys2Proof.Laws

/-- The lengths of the six formats: NEW 28 bytes, its key and its salt; ABSORB 12 bytes and its data; 4, 12,
12 and 20 bytes for the others (30_encoding.md R94). -/
def FrameLength.expected : Instr → Nat
  | .newMd5 _ _ _ key salt => 28 + key.length + salt.length
  | .newSha1 _ _ _ key salt => 28 + key.length + salt.length
  | .newSha224 _ _ _ key salt => 28 + key.length + salt.length
  | .newSha256 _ _ _ key salt => 28 + key.length + salt.length
  | .newSha384 _ _ _ key salt => 28 + key.length + salt.length
  | .newSha512 _ _ _ key salt => 28 + key.length + salt.length
  | .newSha512_224 _ _ _ key salt => 28 + key.length + salt.length
  | .newSha512_256 _ _ _ key salt => 28 + key.length + salt.length
  | .newSha3_224 _ _ _ key salt => 28 + key.length + salt.length
  | .newSha3_256 _ _ _ key salt => 28 + key.length + salt.length
  | .newSha3_384 _ _ _ key salt => 28 + key.length + salt.length
  | .newSha3_512 _ _ _ key salt => 28 + key.length + salt.length
  | .newShake128 _ _ _ key salt => 28 + key.length + salt.length
  | .newShake256 _ _ _ key salt => 28 + key.length + salt.length
  | .newBlake2b _ _ _ key salt => 28 + key.length + salt.length
  | .newBlake2s _ _ _ key salt => 28 + key.length + salt.length
  | .newBlake2bp _ _ _ key salt => 28 + key.length + salt.length
  | .newBlake2sp _ _ _ key salt => 28 + key.length + salt.length
  | .newBlake2xb _ _ _ key salt => 28 + key.length + salt.length
  | .newBlake2xs _ _ _ key salt => 28 + key.length + salt.length
  | .newBlake3 _ _ _ key salt => 28 + key.length + salt.length
  | .newBlake3DeriveKey _ _ _ key salt => 28 + key.length + salt.length
  | .absorb _ data => 12 + data.length
  | .finalize _ => 4
  | .xofRead _ _ => 12
  | .xofSeek _ _ => 12
  | .xofReadAt _ _ _ => 20

/-- The frame of a command has the length of its format. -/
def FrameLength.Statement (i : Instr) : Prop := (encode i).length = FrameLength.expected i

theorem encodeNew_length (a : Alg) (c : BitVec 4) (x : Bool) (d : BitVec 64) (key salt : List Byte) :
    (encodeNew a c x d key salt).length = 28 + key.length + salt.length := by
  simp only [encodeNew, List.length_append, leBytes_length]

section
variable (c : BitVec 4) (x : Bool) (d : BitVec 64) (key salt : List Byte)

theorem FrameLength.newMd5 : FrameLength.Statement (.newMd5 c x d key salt) :=
  encodeNew_length _ _ _ _ _ _
theorem FrameLength.newSha1 : FrameLength.Statement (.newSha1 c x d key salt) :=
  encodeNew_length _ _ _ _ _ _
theorem FrameLength.newSha224 : FrameLength.Statement (.newSha224 c x d key salt) :=
  encodeNew_length _ _ _ _ _ _
theorem FrameLength.newSha256 : FrameLength.Statement (.newSha256 c x d key salt) :=
  encodeNew_length _ _ _ _ _ _
theorem FrameLength.newSha384 : FrameLength.Statement (.newSha384 c x d key salt) :=
  encodeNew_length _ _ _ _ _ _
theorem FrameLength.newSha512 : FrameLength.Statement (.newSha512 c x d key salt) :=
  encodeNew_length _ _ _ _ _ _
theorem FrameLength.newSha512_224 : FrameLength.Statement (.newSha512_224 c x d key salt) :=
  encodeNew_length _ _ _ _ _ _
theorem FrameLength.newSha512_256 : FrameLength.Statement (.newSha512_256 c x d key salt) :=
  encodeNew_length _ _ _ _ _ _
theorem FrameLength.newSha3_224 : FrameLength.Statement (.newSha3_224 c x d key salt) :=
  encodeNew_length _ _ _ _ _ _
theorem FrameLength.newSha3_256 : FrameLength.Statement (.newSha3_256 c x d key salt) :=
  encodeNew_length _ _ _ _ _ _
theorem FrameLength.newSha3_384 : FrameLength.Statement (.newSha3_384 c x d key salt) :=
  encodeNew_length _ _ _ _ _ _
theorem FrameLength.newSha3_512 : FrameLength.Statement (.newSha3_512 c x d key salt) :=
  encodeNew_length _ _ _ _ _ _
theorem FrameLength.newShake128 : FrameLength.Statement (.newShake128 c x d key salt) :=
  encodeNew_length _ _ _ _ _ _
theorem FrameLength.newShake256 : FrameLength.Statement (.newShake256 c x d key salt) :=
  encodeNew_length _ _ _ _ _ _
theorem FrameLength.newBlake2b : FrameLength.Statement (.newBlake2b c x d key salt) :=
  encodeNew_length _ _ _ _ _ _
theorem FrameLength.newBlake2s : FrameLength.Statement (.newBlake2s c x d key salt) :=
  encodeNew_length _ _ _ _ _ _
theorem FrameLength.newBlake2bp : FrameLength.Statement (.newBlake2bp c x d key salt) :=
  encodeNew_length _ _ _ _ _ _
theorem FrameLength.newBlake2sp : FrameLength.Statement (.newBlake2sp c x d key salt) :=
  encodeNew_length _ _ _ _ _ _
theorem FrameLength.newBlake2xb : FrameLength.Statement (.newBlake2xb c x d key salt) :=
  encodeNew_length _ _ _ _ _ _
theorem FrameLength.newBlake2xs : FrameLength.Statement (.newBlake2xs c x d key salt) :=
  encodeNew_length _ _ _ _ _ _
theorem FrameLength.newBlake3 : FrameLength.Statement (.newBlake3 c x d key salt) :=
  encodeNew_length _ _ _ _ _ _
theorem FrameLength.newBlake3DeriveKey : FrameLength.Statement (.newBlake3DeriveKey c x d key salt) :=
  encodeNew_length _ _ _ _ _ _
theorem FrameLength.absorb (data : List Byte) : FrameLength.Statement (.absorb c data) := by
  simp [FrameLength.Statement, FrameLength.expected, encode, encodeHeader]; omega
theorem FrameLength.finalize : FrameLength.Statement (.finalize c) := by
  simp [FrameLength.Statement, FrameLength.expected, encode, encodeHeader]
theorem FrameLength.xofRead (len : BitVec 64) : FrameLength.Statement (.xofRead c len) := by
  simp [FrameLength.Statement, FrameLength.expected, encode, encodeHeader]
theorem FrameLength.xofSeek (pos : BitVec 64) : FrameLength.Statement (.xofSeek c pos) := by
  simp [FrameLength.Statement, FrameLength.expected, encode, encodeHeader]
theorem FrameLength.xofReadAt (pos len : BitVec 64) :
    FrameLength.Statement (.xofReadAt c pos len) := by
  simp [FrameLength.Statement, FrameLength.expected, encode, encodeHeader]

end

end Sys2Proof.Laws
end

