-- ==== Sys2Proof/Tests/Slice0.lean ====
section
/-! SUPPORT. The model's own tests: ill-formed commands, frames written out from the encoding tables, single
steps, and for every statement with hypotheses a concrete case that meets them. Expected values are from
spec/ (30_encoding.md, 95_test_vectors.md, the examples of the rules), none from the model. -/

namespace Sys2Proof.Tests

open Sys2Proof Sys2Proof.Machine

/-! ### Ill-formed commands: a payload whose length no 64-bit operand can say -/

/-- 2^64 bytes. -/
def tooLong : List Byte := List.replicate (2 ^ 64) 0

theorem tooLong_length : tooLong.length = 2 ^ 64 := List.length_replicate

theorem test_length_limit : lengthFits tooLong = false :=
  decide_eq_false (by rw [tooLong_length]; exact Nat.lt_irrefl _)

theorem test_illformed_key (a : Alg) (c : BitVec 4) (x : Bool) (d : BitVec 64) (salt : List Byte) :
    (Instr.new a c x d tooLong salt).wellFormed 16 = false := by
  cases a with
  | md a => cases a <;> simp [Instr.new, Instr.wellFormed, Instr.payloadsFit, test_length_limit]
  | sponge a => cases a <;> simp [Instr.new, Instr.wellFormed, Instr.payloadsFit, test_length_limit]
  | b2 p => cases p <;> simp [Instr.new, Instr.wellFormed, Instr.payloadsFit, test_length_limit]
  | b2p p => cases p <;> simp [Instr.new, Instr.wellFormed, Instr.payloadsFit, test_length_limit]
  | b2x p => cases p <;> simp [Instr.new, Instr.wellFormed, Instr.payloadsFit, test_length_limit]
  | b3 a => cases a <;> simp [Instr.new, Instr.wellFormed, Instr.payloadsFit, test_length_limit]

theorem test_illformed_salt (a : Alg) (c : BitVec 4) (x : Bool) (d : BitVec 64) (key : List Byte) :
    (Instr.new a c x d key tooLong).wellFormed 16 = false := by
  cases a with
  | md a => cases a <;> simp [Instr.new, Instr.wellFormed, Instr.payloadsFit, test_length_limit]
  | sponge a => cases a <;> simp [Instr.new, Instr.wellFormed, Instr.payloadsFit, test_length_limit]
  | b2 p => cases p <;> simp [Instr.new, Instr.wellFormed, Instr.payloadsFit, test_length_limit]
  | b2p p => cases p <;> simp [Instr.new, Instr.wellFormed, Instr.payloadsFit, test_length_limit]
  | b2x p => cases p <;> simp [Instr.new, Instr.wellFormed, Instr.payloadsFit, test_length_limit]
  | b3 a => cases a <;> simp [Instr.new, Instr.wellFormed, Instr.payloadsFit, test_length_limit]

theorem test_illformed_data (c : BitVec 4) : (Instr.absorb c tooLong).wellFormed 16 = false := by
  simp [Instr.wellFormed, Instr.payloadsFit, test_length_limit]

/-- A slot that the instance does not have, and the last one that it has. -/
theorem test_illformed_context :
    (Instr.finalize 4).wellFormed 4 = false ∧ (Instr.finalize 3).wellFormed 4 = true := by decide

/-! ### Frames written out from 30_encoding.md R91 to R98, R109

The header's bytes, first to last: bits 7:0 (zero), bit 8 `XOF`, `ALG`, `OPC` and `CTX`. -/

theorem test_decode_md5 : decodeFrame 16 ([0x00, 0x00, 0x01, 0x10] ++ zeros 24) =
    .command (.newMd5 0 false 0 [] []) [] := by decide
theorem test_decode_sha1 : decodeFrame 16 ([0x00, 0x00, 0x02, 0x11] ++ zeros 24) =
    .command (.newSha1 1 false 0 [] []) [] := by decide
theorem test_decode_sha224 : decodeFrame 16 ([0x00, 0x00, 0x03, 0x12] ++ zeros 24) =
    .command (.newSha224 2 false 0 [] []) [] := by decide
/-- The worked example of R109. -/
theorem test_decode_sha256 : decodeFrame 16 ([0x00, 0x00, 0x04, 0x13] ++ zeros 24) =
    .command (.newSha256 3 false 0 [] []) [] := by decide
theorem test_decode_sha384 : decodeFrame 16 ([0x00, 0x00, 0x05, 0x14] ++ zeros 24) =
    .command (.newSha384 4 false 0 [] []) [] := by decide
theorem test_decode_sha512 : decodeFrame 16 ([0x00, 0x00, 0x06, 0x15] ++ zeros 24) =
    .command (.newSha512 5 false 0 [] []) [] := by decide
theorem test_decode_sha512_224 : decodeFrame 16 ([0x00, 0x00, 0x07, 0x16] ++ zeros 24) =
    .command (.newSha512_224 6 false 0 [] []) [] := by decide
theorem test_decode_sha512_256 : decodeFrame 16 ([0x00, 0x00, 0x08, 0x17] ++ zeros 24) =
    .command (.newSha512_256 7 false 0 [] []) [] := by decide
theorem test_decode_sha3_224 : decodeFrame 16 ([0x00, 0x00, 0x10, 0x18] ++ zeros 24) =
    .command (.newSha3_224 8 false 0 [] []) [] := by decide
theorem test_decode_sha3_256 : decodeFrame 16 ([0x00, 0x00, 0x11, 0x19] ++ zeros 24) =
    .command (.newSha3_256 9 false 0 [] []) [] := by decide
theorem test_decode_sha3_384 : decodeFrame 16 ([0x00, 0x00, 0x12, 0x1a] ++ zeros 24) =
    .command (.newSha3_384 10 false 0 [] []) [] := by decide
theorem test_decode_sha3_512 : decodeFrame 16 ([0x00, 0x00, 0x13, 0x1b] ++ zeros 24) =
    .command (.newSha3_512 11 false 0 [] []) [] := by decide
theorem test_decode_shake128 : decodeFrame 16 ([0x00, 0x01, 0x14, 0x1c] ++ zeros 24) =
    .command (.newShake128 12 true 0 [] []) [] := by decide
theorem test_decode_shake256 :
    decodeFrame 16 ([0x00, 0x00, 0x15, 0x1d] ++ [200, 0, 0, 0, 0, 0, 0, 0x80] ++ zeros 16) =
      .command (.newShake256 13 false 0x80000000000000c8 [] []) [] := by decide
theorem test_decode_blake2b :
    decodeFrame 16 ([0x00, 0x00, 0x20, 0x1e] ++ zeros 8 ++ [1, 0, 0, 0, 0, 0, 0, 0] ++
        [2, 0, 0, 0, 0, 0, 0, 0] ++ [0xaa, 0xbb, 0xcc, 0xdd]) =
      .command (.newBlake2b 14 false 0 [0xaa] [0xbb, 0xcc]) [0xdd] := by decide
/-- 95_test_vectors.md V10 has these operands. -/
theorem test_decode_blake2s :
    decodeFrame 16 ([0x00, 0x00, 0x21, 0x11] ++ [16, 0, 0, 0, 0, 0, 0, 0] ++ [3, 0, 0, 0, 0, 0, 0, 0] ++
        [10, 0, 0, 0, 0, 0, 0, 0] ++ [0x6b, 0x65, 0x79] ++ [1, 2, 3, 4, 5, 6, 7, 8, 9, 10]) =
      .command (.newBlake2s 1 false 16 [0x6b, 0x65, 0x79] [1, 2, 3, 4, 5, 6, 7, 8, 9, 10]) [] := by decide
theorem test_decode_blake2bp : decodeFrame 16 ([0x00, 0x00, 0x22, 0x1f] ++ zeros 24) =
    .command (.newBlake2bp 15 false 0 [] []) [] := by decide
theorem test_decode_blake2sp : decodeFrame 16 ([0x00, 0x00, 0x23, 0x10] ++ zeros 24) =
    .command (.newBlake2sp 0 false 0 [] []) [] := by decide
theorem test_decode_blake2xb :
    decodeFrame 16 ([0x00, 0x00, 0x24, 0x10] ++ [0xfe, 0xff, 0xff, 0xff, 0, 0, 0, 0] ++ zeros 16) =
      .command (.newBlake2xb 0 false 4294967294 [] []) [] := by decide
theorem test_decode_blake2xs : decodeFrame 16 ([0x00, 0x01, 0x25, 0x10] ++ zeros 24) =
    .command (.newBlake2xs 0 true 0 [] []) [] := by decide
theorem test_decode_blake3 : decodeFrame 16 ([0x00, 0x01, 0x30, 0x10] ++ zeros 24) =
    .command (.newBlake3 0 true 0 [] []) [] := by decide
theorem test_decode_derive_key :
    decodeFrame 16 ([0x00, 0x00, 0x31, 0x10] ++ zeros 8 ++ [3, 0, 0, 0, 0, 0, 0, 0] ++ zeros 8 ++
        [0x63, 0x74, 0x78]) =
      .command (.newBlake3DeriveKey 0 false 0 [0x63, 0x74, 0x78] []) [] := by decide
theorem test_decode_absorb :
    decodeFrame 16 [0x00, 0x00, 0x00, 0x20, 3, 0, 0, 0, 0, 0, 0, 0, 0x61, 0x62, 0x63, 0xff] =
      .command (.absorb 0 [0x61, 0x62, 0x63]) [0xff] := by decide
theorem test_decode_finalize : decodeFrame 16 [0x00, 0x00, 0x00, 0x3f] =
    .command (.finalize 15) [] := by decide
theorem test_decode_xof_read : decodeFrame 16 [0x00, 0x00, 0x00, 0x40, 7, 0, 0, 0, 0, 0, 0, 0] =
    .command (.xofRead 0 7) [] := by decide
theorem test_decode_xof_seek : decodeFrame 16 [0x00, 0x00, 0x00, 0x52, 100, 0, 0, 0, 0x40, 0, 0, 0] =
    .command (.xofSeek 2 (2 ^ 38 + 100)) [] := by decide
theorem test_decode_xof_read_at :
    decodeFrame 16 [0x00, 0x00, 0x00, 0x60, 64, 0, 0, 0, 0, 0, 0, 0, 10, 0, 0, 0, 0, 0, 0, 0] =
      .command (.xofReadAt 0 64 10) [] := by decide

/-- One frame for each cause of `ILLEGAL_COMMAND` (R104): both ends of the reserved opcodes, each reserved
field, `ALG` and `XOF` outside NEW, a number that is no algorithm, a slot beyond `NCTX`. -/
theorem test_illegal :
    decodeFrame 16 [0x00, 0x00, 0x00, 0x00] = .illegal .reservedOpcode [] ∧
      decodeFrame 16 [0x00, 0x00, 0x00, 0x70] = .illegal .reservedOpcode [] ∧
      decodeFrame 16 [0x00, 0x00, 0x00, 0xf0] = .illegal .reservedOpcode [] ∧
      decodeFrame 16 [0x01, 0x00, 0x00, 0x30] = .illegal .reservedBit [] ∧
      decodeFrame 16 [0x00, 0x02, 0x00, 0x30] = .illegal .reservedBit [] ∧
      decodeFrame 16 [0x00, 0x80, 0x00, 0x30] = .illegal .reservedBit [] ∧
      decodeFrame 16 [0x00, 0x00, 0x01, 0x30] = .illegal .algOutsideNew [] ∧
      decodeFrame 16 [0x00, 0x01, 0x00, 0x30] = .illegal .xofOutsideNew [] ∧
      decodeFrame 16 ([0x00, 0x00, 0x09, 0x10] ++ zeros 24 ++ [0x77]) = .illegal .unknownAlg [0x77] ∧
      decodeFrame 4 [0x00, 0x00, 0x00, 0x34] = .illegal .ctxOutOfRange [] ∧
      decodeFrame 4 [0x00, 0x00, 0x00, 0x33] = .command (.finalize 3) [] := by
  decide

/-- Words of the opcode table, bit 0 the least significant bit of the first byte. -/
theorem test_table_words :
    decodeTableWord 224 0x13040000 = some (.newSha256 3 false 0 [] []) ∧
      decodeTableWord 224 0x10300100 = some (.newBlake3 0 true 0 [] []) ∧
      decodeTableWord 96 (0x52000000 + 2 ^ 32 * 100) = some (.xofSeek 2 100) ∧
      decodeTableWord 32 0x3f000000 = some (.finalize 15) ∧ decodeTableWord 32 0x70000000 = none := by
  decide

/-! ### Single steps -/

/-- The state after reset with one slot's contents replaced. -/
def holding (v : Slot) : State := State.reset.setSlot 3 v

/-- The state a step leaves. -/
def after (o : StepOutcome) : Option State :=
  match o with
  | .next s => some s
  | .fault _ => none
  | .refused _ => none

/-- `PHASE`, `ALG`, `XOF`, `DLEN`, `TOTAL`, `XPOS` of slot 3 after a step. -/
def control (o : StepOutcome) : Option (BitVec 2 × Option (BitVec 8) × Bool × Nat × Nat × Nat) :=
  (after o).map fun s =>
    let v := s.slot 3
    let k : Ctl := match v with
      | .free => ⟨false, 0, 0, 0⟩
      | .absorbing ctl _ => ctl
      | .sealed ctl _ _ => ctl
    (v.phase.code, v.alg.map Alg.number, k.xof, k.dlen, k.total, k.xpos)

/-- The response bytes of a step from a state that has answered nothing. -/
def answer (o : StepOutcome) : Option (List Byte) := (after o).map fun s => s.rsp

/-- Block, counter, block length and flags of every transaction of a step. -/
def sent (o : StepOutcome) : Option (List (List Byte × Nat × Nat × BitVec 7)) :=
  (after o).map fun s => s.cport.map fun t => (t.block, t.counter, t.blen, t.flags)

/-- All words 0. -/
def zeroWords (P : Prim) : HashState P := Vector.replicate P.words 0

/-- An `MD` state, all words 0. -/
def zeroMd (a : MdAlg) (tail : List Byte) : MdState a where
  h := zeroWords a.prim
  unused := Vector.replicate _ 0
  tail := tail

/-- `pat(n)` of 95_test_vectors.md. -/
def pat (n : Nat) : List Byte := (List.range n).map fun i => BitVec.ofNat 8 (i % 251)

/-- The frame of a status without payload (30_encoding.md R99, R100). -/
def status (code : Byte) : Option (List Byte) := some ([code, 0, 0, 0] ++ zeros 8)

/-! NEW with default lengths (45_keying_construction.md R284). -/

theorem test_new_md5 : control (exec (.newMd5 3 false 0 [] []) State.reset) =
    some (1, some 0x01, false, 16, 0, 0) := rfl
theorem test_new_sha1 : control (exec (.newSha1 3 false 0 [] []) State.reset) =
    some (1, some 0x02, false, 20, 0, 0) := rfl
theorem test_new_sha224 : control (exec (.newSha224 3 false 0 [] []) State.reset) =
    some (1, some 0x03, false, 28, 0, 0) := rfl
theorem test_new_sha256 : control (exec (.newSha256 3 false 32 [] []) State.reset) =
    some (1, some 0x04, false, 32, 0, 0) := rfl
theorem test_new_sha384 : control (exec (.newSha384 3 false 0 [] []) State.reset) =
    some (1, some 0x05, false, 48, 0, 0) := rfl
theorem test_new_sha512 : control (exec (.newSha512 3 false 0 [] []) State.reset) =
    some (1, some 0x06, false, 64, 0, 0) := rfl
theorem test_new_sha512_224 : control (exec (.newSha512_224 3 false 0 [] []) State.reset) =
    some (1, some 0x07, false, 28, 0, 0) := rfl
theorem test_new_sha512_256 : control (exec (.newSha512_256 3 false 0 [] []) State.reset) =
    some (1, some 0x08, false, 32, 0, 0) := rfl
theorem test_new_sha3_224 : control (exec (.newSha3_224 3 false 0 [] []) State.reset) =
    some (1, some 0x10, false, 28, 0, 0) := rfl
theorem test_new_sha3_256 : control (exec (.newSha3_256 3 false 0 [] []) State.reset) =
    some (1, some 0x11, false, 32, 0, 0) := rfl
theorem test_new_sha3_384 : control (exec (.newSha3_384 3 false 0 [] []) State.reset) =
    some (1, some 0x12, false, 48, 0, 0) := rfl
theorem test_new_sha3_512 : control (exec (.newSha3_512 3 false 0 [] []) State.reset) =
    some (1, some 0x13, false, 64, 0, 0) := rfl
theorem test_new_shake128 : control (exec (.newShake128 3 false 0 [] []) State.reset) =
    some (1, some 0x14, false, 32, 0, 0) := rfl
theorem test_new_shake256 : control (exec (.newShake256 3 false 200 [] []) State.reset) =
    some (1, some 0x15, false, 200, 0, 0) := rfl
theorem test_new_blake2b : control (exec (.newBlake2b 3 false 0 [] []) State.reset) =
    some (1, some 0x20, false, 64, 0, 0) := rfl
theorem test_new_blake2s : control (exec (.newBlake2s 3 false 16 [0x6b] [1]) State.reset) =
    some (1, some 0x21, false, 16, 0, 0) := rfl
theorem test_new_blake2bp : control (exec (.newBlake2bp 3 false 0 [] []) State.reset) =
    some (1, some 0x22, false, 64, 0, 0) := rfl
theorem test_new_blake2sp : control (exec (.newBlake2sp 3 false 0 [] []) State.reset) =
    some (1, some 0x23, false, 32, 0, 0) := rfl
theorem test_new_blake2xb : control (exec (.newBlake2xb 3 false 4294967294 [] []) State.reset) =
    some (1, some 0x24, false, 4294967294, 0, 0) := rfl
theorem test_new_blake2xs : control (exec (.newBlake2xs 3 false 65534 [] []) State.reset) =
    some (1, some 0x25, false, 65534, 0, 0) := rfl
theorem test_new_blake3 : control (exec (.newBlake3 3 false 0 [1] []) State.reset) =
    some (1, some 0x30, false, 32, 0, 0) := rfl
theorem test_new_derive_key :
    control (exec (.newBlake3DeriveKey 3 false 0 [] []) State.reset) =
      some (1, some 0x31, false, 32, 0, 0) := rfl

/-- The corner cases of 45_keying_construction.md R299 that are refused, and R283 to R285. -/
theorem test_new_refused :
    answer (exec (.newMd5 3 false 0 [0] []) State.reset) = status 1 ∧
      answer (exec (.newSha256 3 false 31 [] []) State.reset) = status 1 ∧
      answer (exec (.newSha256 3 true 0 [] []) State.reset) = status 1 ∧
      answer (exec (.newShake128 3 true 32 [] []) State.reset) = status 1 ∧
      answer (exec (.newBlake2b 3 false 65 [] []) State.reset) = status 1 ∧
      answer (exec (.newBlake2s 3 false 0 (zeros 33) []) State.reset) = status 1 ∧
      answer (exec (.newBlake2s 3 false 0 [] (zeros 17)) State.reset) = status 1 ∧
      answer (exec (.newBlake2xb 3 false 0 [] []) State.reset) = status 1 ∧
      answer (exec (.newBlake2xb 3 false 4294967295 [] []) State.reset) = status 3 ∧
      answer (exec (.newBlake3 3 false 9007199254740993 [] []) State.reset) = status 3 ∧
      answer (exec (.newBlake3 3 false 0 [] [1]) State.reset) = status 1 := by
  refine ⟨rfl, rfl, rfl, rfl, rfl, rfl, rfl, rfl, rfl, rfl, rfl⟩

/-- Stage 1 on an empty context string is one output transaction with flags 0x2B (R294). -/
theorem test_derive_key_trace :
    sent (exec (.newBlake3DeriveKey 3 false 0 [] []) State.reset) =
      some [(zeros 64, 0, 0, 0x2b)] := rfl

/-- The parameter block of 95_test_vectors.md V10, with the salt spilling into the personalization. -/
theorem test_parameter_block :
    b2Pblock .b2s (seqParams 16 3 0 (saltPers .b2s [1, 2, 3, 4, 5, 6, 7, 8, 9, 10])) =
      [0x10, 3, 1, 1] ++ zeros 12 ++ [1, 2, 3, 4, 5, 6, 7, 8, 9, 10] ++ zeros 6 := by decide

/-- `INST.H[0] = IVTAB xor 0x0000000001010040` for an unkeyed BLAKE2b (R289). -/
theorem test_parameter_word :
    leVal ((b2Pblock .b2b (seqParams 64 0 0 (saltPers .b2b []))).take 8) = 0x01010040 := by decide

/-! ABSORB: eager and lazy buffering (95_test_vectors.md V4, V9), the 16th block of a chunk (V23). -/

theorem test_absorb_eager :
    sent (exec (.absorb 3 (pat 64))
        (holding (.absorbing ⟨false, 32, 0, 0⟩ (.md .sha256 (zeroMd .sha256 []))))) =
      some [(pat 64, 0, 0, 0)] := rfl

theorem test_absorb_lazy :
    sent (exec (.absorb 3 (pat 129)) (holding (.absorbing ⟨false, 64, 0, 0⟩
        (.b2 .b2b ⟨zeroWords .b2b, 0, [], false⟩)))) =
      some [(pat 128, 128, 0, 0)] := by decide +kernel

/-- A held last block of a chunk is sealed by the next byte: `CHUNK_END`, the counter the chunk's index
(42_blake3_tree.md R183). -/
theorem test_absorb_chunk_end :
    sent (exec (.absorb 3 [7]) (holding (.absorbing ⟨false, 32, 1024, 0⟩
        (.b3 .blake3 ⟨zeroWords .b3, 0, 0, 15, zeroWords .b3, pat 64, []⟩)))) =
      some [(pat 64, 0, 64, 0x02)] := rfl

/-! FINALIZE: one and two final blocks (V4), BLAKE2 (V9), the one-byte sponge padding (V14), the empty
BLAKE3 message (V20). -/

theorem test_finalize_one_block :
    sent (exec (.finalize 3) (holding (.absorbing ⟨false, 32, 55, 0⟩
        (.md .sha256 (zeroMd .sha256 (pat 55)))))) =
      some [(pat 55 ++ [0x80, 0, 0, 0, 0, 0, 0, 0x01, 0xb8], 0, 0, 0)] := rfl

theorem test_finalize_two_blocks :
    sent (exec (.finalize 3) (holding (.absorbing ⟨false, 32, 56, 0⟩
        (.md .sha256 (zeroMd .sha256 (pat 56)))))) =
      some [(pat 56 ++ [0x80, 0, 0, 0, 0, 0, 0, 0], 0, 0, 0),
        (zeros 56 ++ [0, 0, 0, 0, 0, 0, 0x01, 0xc0], 0, 0, 0)] := by decide +kernel

/-- The little-endian length field of MD5 (V2). -/
theorem test_finalize_md5 :
    sent (exec (.finalize 3) (holding (.absorbing ⟨false, 16, 3, 0⟩
        (.md .md5 (zeroMd .md5 ([0x61, 0x62, 0x63])))))) =
      some [([0x61, 0x62, 0x63, 0x80] ++ zeros 52 ++ [0x18, 0, 0, 0, 0, 0, 0, 0], 0, 0, 0)] := rfl

theorem test_finalize_blake2b :
    sent (exec (.finalize 3) (holding (.absorbing ⟨false, 64, 129, 0⟩
        (.b2 .b2b ⟨zeroWords .b2b, 128, [0x80], false⟩)))) =
      some [([0x80] ++ zeros 127, 129, 0, 0x01)] := rfl

theorem test_finalize_sponge :
    sent (exec (.finalize 3) (holding (.absorbing ⟨true, 0, 135, 0⟩
        (.sponge .sha3_256 ⟨zeroWords .keccak, pat 135⟩)))) =
      some [(pat 135 ++ [0x86], 0, 0, 0)] := by decide +kernel

theorem test_finalize_blake3_empty :
    sent (exec (.finalize 3) (holding (.absorbing ⟨false, 32, 0, 0⟩
        (.b3 .blake3 ⟨zeroWords .b3, 0, 0, 0, zeroWords .b3, [], []⟩)))) =
      some [(zeros 64, 0, 0, 0x0b)] := rfl

/-! The reader commands (95_test_vectors.md V13, V26, 44_xof_adapter.md R244). -/

/-- A BLAKE3 reader at a position. -/
def b3Reader (p : Nat) : Slot :=
  .sealed ⟨true, 32, 0, p⟩ []
    (.b3 .blake3 ⟨zeroWords .b3, 0, 0, 0, zeroWords .b3, [], []⟩ ⟨zeroWords .b3, zeros 64, 0, 0x0b⟩)

/-- A BLAKE2Xb reader at a position. -/
def b2xReader (p : Nat) : Slot :=
  .sealed ⟨true, 0, 0, p⟩ []
    (.b2x .b2b ⟨⟨zeroWords .b2b, 0, [], false⟩, 4294967295, zeros 32⟩ (zeros 64))

/-- A SHAKE128 reader at position 0. -/
def shakeReader : Slot := .sealed ⟨true, 32, 3, 0⟩ [] (.sponge .shake128 ⟨zeroWords .keccak, []⟩)

theorem test_xof_read_crosses_a_block :
    sent (exec (.xofRead 3 10) (holding (b3Reader 60))) =
        some [(zeros 64, 0, 0, 0x0b), (zeros 64, 1, 0, 0x0b)] ∧
      control (exec (.xofRead 3 10) (holding (b3Reader 60))) =
        some (2, some 0x30, true, 32, 0, 70) := ⟨rfl, rfl⟩

theorem test_xof_read_ceiling :
    answer (exec (.xofRead 3 2) (holding (b3Reader 9007199254740991))) = status 3 := rfl

theorem test_xof_seek_wraps :
    control (exec (.xofSeek 3 (2 ^ 38 + 100)) (holding (b2xReader 5))) =
      some (2, some 0x24, true, 0, 0, 100) := rfl

/-- V12, V13: no permutation up to the end of the first rate block. -/
theorem test_xof_seek_sponge :
    sent (exec (.xofSeek 3 168) (holding shakeReader)) = some [] ∧
      control (exec (.xofSeek 3 168) (holding shakeReader)) =
        some (2, some 0x14, true, 32, 3, 168) := ⟨rfl, rfl⟩

theorem test_xof_read_at_blake3 :
    sent (exec (.xofReadAt 3 60 10) (holding (b3Reader 500))) =
      some [(zeros 64, 0, 0, 0x0b), (zeros 64, 1, 0, 0x0b)] := rfl

/-- The last byte below the ceiling can be read, and no more (44_xof_adapter.md R254). -/
theorem test_xof_read_at_ceiling :
    control (exec (.xofReadAt 3 9007199254740991 1) (holding (b3Reader 0))) =
        some (2, some 0x30, true, 32, 0, 9007199254740992) ∧
      answer (exec (.xofReadAt 3 9007199254740991 2) (holding (b3Reader 0))) = status 3 :=
  ⟨rfl, rfl⟩

/-- Every command on the wrong phase (95_test_vectors.md V15). -/
theorem test_sequence_errors :
    answer (exec (.absorb 3 [0x61]) State.reset) = status 2 ∧
      answer (exec (.finalize 3) State.reset) = status 2 ∧
      answer (exec (.xofRead 3 1) State.reset) = status 2 ∧
      answer (exec (.xofSeek 3 0) State.reset) = status 2 ∧
      answer (exec (.xofReadAt 3 0 1) State.reset) = status 2 ∧
      answer (exec (.absorb 3 []) (holding shakeReader)) = status 2 := by
  refine ⟨rfl, rfl, rfl, rfl, rfl, rfl⟩

/-- A step reads its frame from `CMD` and answers on `RSP`: NEW of SHA256, then an illegal word. -/
theorem test_step :
    (after (step ((State.reset.deliver [0x00, 0x00, 0x00, 0x70]).withFetchWord 224 0x13040000))).map
        (fun s => (s.cmd, s.rsp)) = some ([0x00, 0x00, 0x00, 0x70], zeros 12) ∧
      answer (step (State.reset.deliver [0x00, 0x00, 0x00, 0x70])) = status 4 := ⟨rfl, rfl⟩

/-- Another instance: with 4 slots FINALIZE of slot 4 is illegal (30_encoding.md R92), and with a ceiling of 64
bytes BLAKE3 takes a length of 64 and refuses 65 (45_keying_construction.md R284). -/
theorem test_other_instance :
    answer (step ((State.resetOf ⟨4, 64⟩).deliver [0x00, 0x00, 0x00, 0x34])) = status 4 ∧
      answer (step ((State.resetOf ⟨4, 64⟩).deliver [0x00, 0x00, 0x00, 0x33])) = status 2 ∧
      answer (exec (.newBlake3 3 false 64 [] []) (State.resetOf ⟨4, 64⟩)) = status 0 ∧
      answer (exec (.newBlake3 3 false 65 [] []) (State.resetOf ⟨4, 64⟩)) = status 3 :=
  ⟨rfl, rfl, rfl, rfl⟩

/-! ### The statements with hypotheses: a concrete case of each, one for each clause -/

/-- The state after reset with bytes on `CMD`. -/
def pending (bs : List Byte) : State := { State.reset with cmd := bs }

theorem test_meets_DecodeEncode :
    (Instr.newBlake2s 1 false 16 [0x6b, 0x65, 0x79] [1, 2]).wellFormed 16 = true ∧
      (Instr.absorb 0 []).wellFormed 16 = true ∧ (Instr.finalize 15).wellFormed 16 = true := by decide

theorem test_meets_AcceptedFrameIsEncoding :
    decodeFrame 16 [0x00, 0x00, 0x00, 0x3f, 0xff] = .command (.finalize 15) [0xff] := by decide

/-- One byte short, exactly there, and a reserved opcode, whose frame is its header. -/
theorem test_meets_FrameConsumedWhole :
    ([0x00, 0x00, 0x00] : List Byte).length < 4 ∧
    let short : List Byte := [3, 0, 0, 0, 0, 0, 0, 0, 0x61, 0x62]
    short.length < bytesAfterHeader ((0x20000000 : BitVec 32).extractLsb' 28 4).toNat short ∧
      bytesAfterHeader ((0x20000000 : BitVec 32).extractLsb' 28 4).toNat (short ++ [0x63]) ≤
        (short ++ [0x63]).length ∧
      bytesAfterHeader ((0x70000000 : BitVec 32).extractLsb' 28 4).toNat [] ≤ 0 := by decide

theorem test_meets_IllegalCommand :
    (pending ([0x00, 0x00, 0x09, 0x10] ++ zeros 24)).cmd =
        leBytes 4 (0x10090000 : BitVec 32).toNat ++ zeros 24 ∧
      bytesAfterHeader ((0x10090000 : BitVec 32).extractLsb' 28 4).toNat (zeros 24) ≤
        (zeros 24).length ∧
      IllegalHeader 16 0x10090000 ∧
      (pending [0x00, 0x00, 0x00, 0x3f]).cmd = leBytes 4 (0x3f000000 : BitVec 32).toNat ++ [] ∧
      bytesAfterHeader ((0x3f000000 : BitVec 32).extractLsb' 28 4).toNat [] ≤ 0 ∧
      ¬IllegalHeader 16 0x3f000000 := by
  unfold IllegalHeader
  decide

theorem test_meets_StepRunsDecoded :
    decodeFrame State.reset.params.nctx (pending [0x00, 0x00, 0x00, 0x3f, 0xff]).cmd = .command (.finalize 15) [0xff] := by
  decide

theorem test_meets_IncompleteFrameWaits :
    decodeFrame State.reset.params.nctx (pending []).cmd = .incomplete ∧
      decodeFrame State.reset.params.nctx (pending [0x00, 0x00, 0x00, 0x20, 1, 0, 0, 0, 0, 0, 0, 0]).cmd = .incomplete := by
  decide

theorem test_meets_ErrorsChangeNothing :
    (∃ t, step (pending [0x00, 0x00, 0x00, 0x70]) = .next t ∧
      t.rsp = (pending [0x00, 0x00, 0x00, 0x70]).rsp ++ responseFrame .illegalCommand []) ∧
    ∃ t, step (pending [0x00, 0x00, 0x00, 0x3f]) = .next t ∧
      t.rsp = (pending [0x00, 0x00, 0x00, 0x3f]).rsp ++ responseFrame .sequenceError [] :=
  ⟨⟨_, rfl, rfl⟩, ⟨_, rfl, rfl⟩⟩

/-- `FREE` to `ABSORBING`, `ABSORBING` to `SEALED`, `SEALED` to `ABSORBING`. -/
theorem test_meets_PhaseTransitions :
    let busy := holding (.absorbing ⟨false, 32, 0, 0⟩ (.md .sha256 (zeroMd .sha256 [])))
    (∃ t, exec (.newMd5 3 false 0 [] []) State.reset = .next t ∧
      (State.reset.slot 3).phase = .free ∧ (t.slot 3).phase = .absorbing) ∧
    (∃ t, exec (.finalize 3) busy = .next t ∧
      (busy.slot 3).phase = .absorbing ∧ (t.slot 3).phase = .sealed) ∧
    ∃ t, exec (.newMd5 3 false 0 [] []) (holding (b3Reader 0)) = .next t ∧
      ((holding (b3Reader 0)).slot 3).phase = .sealed ∧ (t.slot 3).phase = .absorbing :=
  ⟨⟨_, rfl, rfl, rfl⟩, ⟨_, rfl, rfl, rfl⟩, ⟨_, rfl, rfl, rfl⟩⟩

theorem test_meets_SlotsCommute :
    (Instr.newMd5 0 false 0 [] []).context ≠ (Instr.absorb 15 [1]).context := by decide

/-- Two different states of one instance that agree on the slot named. -/
theorem test_meets_OwnSlotOnly :
    State.reset.params = (holding (b3Reader 0)).params ∧
    State.reset.slot (Instr.newMd5 0 false 0 [] []).context =
        (holding (b3Reader 0)).slot (Instr.newMd5 0 false 0 [] []).context ∧
      State.reset.slot 3 ≠ (holding (b3Reader 0)).slot 3 := by decide

/-- A reader that moves, and a slot with a fixed digest. -/
theorem test_meets_SealedUntilNew :
    let fixed : Slot := .sealed ⟨false, 1, 0, 0⟩ [9] (.md .md5 (zeroMd .md5 []))
    (∃ t, exec (.xofSeek 3 7) (holding (b3Reader 0)) = .next t) ∧
      (∃ ctl d z, (holding (b3Reader 0)).slot 3 = .sealed ctl d z ∧ ctl.xof = true) ∧
      ¬((Instr.xofSeek 3 7).context = 3 ∧ (Instr.xofSeek 3 7).newAlg.isSome = true) ∧
      (∃ t, exec (.finalize 3) (holding fixed) = .next t) ∧
      ∃ ctl d z, (holding fixed).slot 3 = .sealed ctl d z ∧ ctl.xof = false :=
  ⟨⟨_, rfl⟩, ⟨_, _, _, rfl, rfl⟩, by decide, ⟨_, rfl⟩, ⟨_, _, _, rfl, rfl⟩⟩

/-- A state with one slot is legal where the slot is. -/
theorem holding_legal {v : Slot} (h : v.legal State.reset.params.b3Ceil = true) :
    (holding v).Legal where
  params := show Params.reference.legal = true by decide
  slots c := by
    rw [holding, slot_setSlot]
    split
    · exact h
    · simp [Slot.legal]
  absent c hc := absurd (show 16 ≤ c.toNat from hc) (by omega)

/-- A BLAKE3 slot that holds a whole chunk, so that the next byte starts the stack. -/
def chunkHeld : Slot :=
  .absorbing ⟨false, 32, 1024, 0⟩ (.b3 .blake3 ⟨zeroWords .b3, 0, 0, 15, zeroWords .b3, zeros 64, []⟩)

/-- What is on the ports does not matter to the slots. -/
theorem legal_ports {s : State} (h : s.Legal) (cmd rsp : List Byte) (cport : List Tx) :
    State.Legal { s with cmd := cmd, rsp := rsp, cport := cport } :=
  ⟨h.params, h.slots, h.absent⟩

theorem chunkHeld_legal : chunkHeld.legal State.reset.params.b3Ceil = true := by decide

/-- ABSORB of one byte into slot 3. -/
def oneByte : List Byte := [0x00, 0x00, 0x00, 0x23, 1, 0, 0, 0, 0, 0, 0, 0, 0x61]

/-- The reference instance and a smaller one; and not one without slots. -/
theorem test_meets_ResetLegal :
    Params.reference.legal = true ∧ Params.legal ⟨1, 64⟩ = true ∧ Params.legal ⟨0, 64⟩ = false := by
  decide

theorem test_meets_StepKeepsLegal :
    ({ holding chunkHeld with cmd := oneByte }).Legal ∧
      ∃ t, step { holding chunkHeld with cmd := oneByte } = .next t :=
  ⟨legal_ports (holding_legal chunkHeld_legal) _ _ _, ⟨_, rfl⟩⟩

theorem test_meets_StepKeepsPortLegal :
    let tx : Tx := ⟨.b3, zeroWords .b3, zeros 64, 0, 64, 0x01⟩
    let s : State := { holding chunkHeld with cmd := oneByte, cport := [tx] }
    s.Legal ∧ s.PortLegal ∧ ∃ t, step s = .next t := by
  refine ⟨legal_ports (holding_legal chunkHeld_legal) _ _ _, ?_, ⟨_, rfl⟩⟩
  intro t ht
  rw [List.mem_singleton.1 ht]
  decide

/-! NEW: the boundaries of each row of the tables. Each definition is the check of a row as its statement has
it, on operands. -/

/-- The check of `NewMd`. -/
abbrev MdOperands (a : MdAlg) (key salt : List Byte) (xof : Bool) (dlen : BitVec 64) : Prop :=
  key = [] ∧ salt = [] ∧ xof = false ∧ (dlen.toNat = 0 ∨ dlen.toNat = mdDlen a)

theorem test_meets_NewMd :
    MdOperands .sha256 [] [] false 0 ∧ MdOperands .sha256 [] [] false 32 ∧
      ¬MdOperands .sha256 [] [] false 31 ∧ ¬MdOperands .md5 [0] [] false 0 ∧
      ¬MdOperands .md5 [] [] true 0 := by decide

/-- The check of `NewSponge`. -/
abbrev SpongeOperands (a : SpongeAlg) (key salt : List Byte) (xof : Bool) (dlen : BitVec 64) : Prop :=
  key = [] ∧ salt = [] ∧
    ((xof = true ∧ (a = .shake128 ∨ a = .shake256) ∧ dlen.toNat = 0) ∨
      (xof = false ∧ (a = .shake128 ∨ a = .shake256 ∨ dlen.toNat = 0 ∨ dlen.toNat = spongeDlen a)))

theorem test_meets_NewSponge :
    SpongeOperands .shake128 [] [] true 0 ∧ SpongeOperands .shake256 [] [] false 200 ∧
      SpongeOperands .sha3_224 [] [] false 28 ∧ ¬SpongeOperands .sha3_224 [] [] false 29 ∧
      ¬SpongeOperands .sha3_224 [] [] true 0 ∧ ¬SpongeOperands .shake128 [] [] true 32 :=
  ⟨by decide, by decide, by decide, by decide, by decide, by decide⟩

/-- The check of `NewB2` and of `NewB2p`. -/
abbrev B2Operands (p : B2Prim) (key salt : List Byte) (xof : Bool) (dlen : BitVec 64) : Prop :=
  key.length ≤ b2Out p ∧ salt.length ≤ b2Out p / 2 ∧ xof = false ∧ dlen.toNat ≤ b2Out p

theorem test_meets_NewB2_NewB2p :
    B2Operands .b2b (zeros 64) (zeros 32) false 64 ∧ B2Operands .b2s [] [] false 0 ∧
      ¬B2Operands .b2b (zeros 65) [] false 0 ∧ ¬B2Operands .b2b [] (zeros 33) false 0 ∧
      ¬B2Operands .b2s [] [] false 33 ∧ ¬B2Operands .b2s [] [] true 0 := by decide

/-- The check of `NewB2x`. -/
abbrev B2xOperands (p : B2Prim) (key salt : List Byte) (xof : Bool) (dlen : BitVec 64) : Prop :=
  key.length ≤ b2Out p ∧ salt.length ≤ b2Out p / 2 ∧
    ((xof = false ∧ 1 ≤ dlen.toNat) ∨ (xof = true ∧ dlen.toNat = 0))

/-- The last length that is accepted, the first that is not, no length, a reader. -/
theorem test_meets_NewB2x :
    (B2xOperands .b2b (zeros 64) (zeros 32) false 4294967294 ∧
        (4294967294 : BitVec 64).toNat < xlenSent .b2b) ∧
      (B2xOperands .b2b [] [] false 4294967295 ∧
        xlenSent .b2b ≤ (4294967295 : BitVec 64).toNat) ∧
      B2xOperands .b2s [] [] true 0 ∧ ¬B2xOperands .b2s [] [] false 0 ∧
      ¬B2xOperands .b2s (zeros 33) [] false 1 := by decide

/-- The check of `NewBlake3`. -/
abbrev Blake3Operands (key salt : List Byte) (xof : Bool) (dlen : BitVec 64) : Prop :=
  key.length ≤ 32 ∧ salt = [] ∧ (xof = true → dlen.toNat = 0)

theorem test_meets_NewBlake3 :
    (Blake3Operands (zeros 32) [] false 9007199254740992 ∧
        (9007199254740992 : BitVec 64).toNat ≤ State.reset.params.b3Ceil) ∧
      (Blake3Operands [] [] false 9007199254740993 ∧
        State.reset.params.b3Ceil < (9007199254740993 : BitVec 64).toNat) ∧
      Blake3Operands [] [] true 0 ∧ ¬Blake3Operands (zeros 33) [] false 0 ∧
      ¬Blake3Operands [] [] true 1 := by decide

/-- The check of `NewDeriveKey`. -/
abbrev DeriveOperands (salt : List Byte) (xof : Bool) (dlen : BitVec 64) : Prop :=
  salt = [] ∧ (xof = true → dlen.toNat = 0)

theorem test_meets_NewDeriveKey :
    (DeriveOperands [] false 9007199254740992 ∧
        (9007199254740992 : BitVec 64).toNat ≤ State.reset.params.b3Ceil) ∧
      (DeriveOperands [] false 9007199254740993 ∧
        State.reset.params.b3Ceil < (9007199254740993 : BitVec 64).toNat) ∧
      DeriveOperands [] true 0 ∧ ¬DeriveOperands [1] false 0 ∧ ¬DeriveOperands [] true 1 := by
  decide

theorem test_meets_ParameterBlock :
    (saltPers .b2b []).length = b2Out .b2b / 2 ∧ (saltPers .b2s [1]).length = b2Out .b2s / 2 ∧
      (14 + 4 ≤ 31 ∧ 31 < b2Out .b2b / 2) := by decide

/-! ABSORB. -/

theorem test_meets_AbsorbAnswers :
    (∃ ctl h, (holding chunkHeld).slot 3 = .absorbing ctl h) ∧
      (State.reset.slot 3).phase ≠ .absorbing ∧
      ((holding (b3Reader 0)).slot 3).phase ≠ .absorbing ∧
      (holding chunkHeld).Legal ∧ ((holding chunkHeld).slot 3).phase = .absorbing :=
  ⟨⟨_, _, rfl⟩, by decide, by decide, holding_legal chunkHeld_legal, by decide⟩

/-- One byte short of a block, and a whole block, eager and lazy. -/
theorem test_meets_AbsorbMd_AbsorbSponge_AbsorbB2 :
    (([] : List Byte) ++ zeros 63).length < mdBlock .md5 ∧
      mdBlock .md5 ≤ (zeros 1 ++ zeros 63).length ∧
      ([] ++ zeros 71).length < rate .sha3_512 ∧ rate .sha3_512 ≤ (zeros 1 ++ zeros 71).length ∧
      (zeros 1 ++ zeros 63).length ≤ b2Block .b2s ∧ b2Block .b2s < (zeros 1 ++ zeros 64).length ∧
      (B2Inst.mk (p := .b2s) (zeroWords .b2s) 0 [] false).legal = true ∧
      (b2Absorb .b2s (B2Inst.mk (p := .b2s) (zeroWords .b2s) 0 [] false) []).val.tail = [] := by
  decide

/-- A `B2P` state as NEW leaves it, the words and the key apart: `kb` is the key block. -/
def freshB2p (p : B2Prim) (kb : List Byte) : B2PState p where
  leaf := Vector.ofFn fun k => ⟨zeroWords p.prim, 0, kb, decide (k.val = p.nleaf - 1)⟩
  root := ⟨zeroWords p.prim, 0, [], true⟩

theorem test_meets_LeafDispatch_CombinerTrace :
    (freshB2p .b2b []).legal 0 = true ∧ (freshB2p .b2s []).legal 0 = true ∧
      (freshB2p .b2s (zeros 64)).legal 0 = true ∧
      (∀ k : Fin (B2Prim.nleaf .b2s), (freshB2p .b2s []).leaf[k].received = 0) ∧
      (zeros 512).length ≤ B2Prim.nleaf .b2s * b2Block .b2s ∧
      (zeros 513).length = B2Prim.nleaf .b2s * b2Block .b2s + 1 :=
  ⟨by decide, by decide, by decide, by decide, by simp [B2Prim.nleaf, b2Block],
    by simp [B2Prim.nleaf, b2Block]⟩

theorem test_meets_ChunkBlocks_ModeFlagEverywhere :
    (0 : BitVec 7) ∈ modeFlags ∧ (0x10 : BitVec 7) ∈ modeFlags ∧ (0x20 : BitVec 7) ∈ modeFlags ∧
      (0x40 : BitVec 7) ∈ modeFlags := by decide

/-- An empty stack, at the empty message and at one whole chunk, and a stack of one entry. -/
theorem test_meets_TreeAbsorbCost_RootDescriptor :
    B3State.legal ⟨zeroWords .b3, 0, 0, 0, zeroWords .b3, [], []⟩ .blake3 0 = true ∧
      B3State.legal ⟨zeroWords .b3, 0, 0, 15, zeroWords .b3, zeros 64, []⟩ .blake3 1024 = true ∧
      B3State.legal ⟨zeroWords .b3, 0, 1, 0, zeroWords .b3, [7], [zeroWords .b3]⟩ .blake3 1025 =
        true ∧
      [zeroWords .b3].getLast? = some (zeroWords .b3) := by decide

theorem test_meets_ChunkingInvariance :
    newCheck 0 (.md .md5) false 0 0 0 = .ok () ∧ newCheck 0 (.b2x .b2s) true 0 32 16 = .ok () ∧
      newCheck State.reset.params.b3Ceil (.b3 .deriveKey) false 32 1000 0 = .ok () := ⟨rfl, rfl, rfl⟩

/-! FINALIZE. -/

theorem test_meets_FinalizeAnswers :
    State.reset.slot 3 = .free ∧ (∃ ctl d z, (holding (b3Reader 0)).slot 3 = .sealed ctl d z) ∧
      ∃ ctl h, (holding chunkHeld).slot 3 = .absorbing ctl h :=
  ⟨rfl, ⟨_, _, _, rfl⟩, ⟨_, _, rfl⟩⟩

/-- The longest tail with one final block, the shortest with two, the longest, for both block sizes. -/
theorem test_meets_OneOrTwoFinalBlocks_FinalizeMd :
    (zeroMd .sha256 (zeros 55)).legal 55 = true ∧
      (zeros 55).length ≤ mdBlock .sha256 - mdLengthField .sha256 - 1 ∧
      (zeroMd .sha256 (zeros 56)).legal 120 = true ∧
      mdBlock .sha256 - mdLengthField .sha256 - 1 < (zeros 56).length ∧
      MdAlg.sha256 ∈ [MdAlg.md5, .sha1, .sha224, .sha256] ∧ (zeros 63).length < 64 ∧
      MdAlg.sha384 ∈ [MdAlg.sha384, .sha512, .sha512_224, .sha512_256] ∧
      (zeros 127).length < 128 := by decide

theorem test_meets_MdPadding :
    MdAlg.md5 = .md5 ∧ MdAlg.sha512 ≠ .md5 ∧
      ((zeros 3).length + 1 + 52 + mdLengthField .md5) % mdBlock .md5 = 0 := by decide

theorem test_meets_WordByteOrder :
    5 < rate .sha3_512 ∧ 0 < ([1, 2] : List (BitVec 32)).length ∧ 1 < ([1, 2] : List (BitVec 32)).length ∧ 3 < 32 / 8 := by
  decide

/-- The two forms of the sponge padding. -/
theorem test_meets_SpongePadding :
    (SpongeAlg.shake256, 136, (0x1F : Byte), 64) ∈
        [(SpongeAlg.shake128, 168, (0x1F : Byte), 32), (.shake256, 136, 0x1F, 64)] ∧
      (zeros 134).length < 136 - 1 ∧ (zeros 135).length = 136 - 1 := ⟨by decide, by simp, by simp⟩

/-- A reader, a fixed digest; for `B2X` the largest length. -/
theorem test_meets_FinalizeSponge_FinalizeB2x_FinalizeB3 :
    let reader : Ctl := ⟨true, 0, 0, 0⟩
    let fixed : Ctl := ⟨false, 65534, 0, 0⟩
    let m : B2XState .b2s := ⟨⟨zeroWords .b2s, 0, [], false⟩, 65534, zeros 16⟩
    reader.xof = true ∧ fixed.xof = false ∧ m.xlen = fixed.dlen ∧ fixed.dlen < xlenSent .b2s := by
  decide

theorem test_meets_Blake2Trace :
    (([] : List Byte) = [] ∨ ([] : List Byte).length = b2Block .b2b) ∧
      (zeros 128 = [] ∨ (zeros 128).length = b2Block .b2b) := ⟨.inl rfl, .inr rfl⟩

/-- A legal state of each class. -/
theorem test_meets_FinalizeCost :
    let ok : Ctl → Hasher → Bool := fun ctl h => h.legal ctl && ctl.legal 64 h.alg
    ok ⟨false, 32, 56, 0⟩ (.md .sha256 (zeroMd .sha256 (zeros 56))) = true ∧
      ok ⟨false, 28, 0, 0⟩ (.sponge .sha3_224 ⟨zeroWords .keccak, []⟩) = true ∧
      ok ⟨true, 32, 0, 0⟩ (.sponge .shake128 ⟨zeroWords .keccak, []⟩) = true ∧
      ok ⟨false, 64, 1, 0⟩ (.b2 .b2b ⟨zeroWords .b2b, 0, [1], false⟩) = true ∧
      ok ⟨false, 20, 0, 0⟩ (.b2p .b2s (freshB2p .b2s [])) = true ∧
      ok ⟨false, 33, 0, 0⟩ (.b2x .b2s ⟨⟨zeroWords .b2s, 0, [], false⟩, 33, zeros 16⟩) = true ∧
      ok ⟨false, 64, 1025, 0⟩
        (.b3 .blake3 ⟨zeroWords .b3, 0, 1, 0, zeroWords .b3, [7], [zeroWords .b3]⟩) = true := by
  decide

/-! The reader commands. -/

/-- A `FREE` slot, a fixed digest, a reader. -/
theorem test_meets_ReaderCheck :
    let fixed : Slot := .sealed ⟨false, 1, 0, 0⟩ [9] (.md .md5 (zeroMd .md5 []))
    (∀ ctl d z, State.reset.slot 3 = .sealed ctl d z → ctl.xof = false) ∧
      (∀ ctl d z, (holding fixed).slot 3 = .sealed ctl d z → ctl.xof = false) ∧
      ∃ ctl d z, (holding (b3Reader 0)).slot 3 = .sealed ctl d z ∧ ctl.xof = true := by
  refine ⟨?_, ?_, ⟨_, _, _, rfl, rfl⟩⟩
  · intro ctl d z h
    cases h
  · intro ctl d z h
    cases h
    rfl

/-- A BLAKE3 reader one byte below the ceiling: one byte is there, two are not; so for the positions of
XOF_SEEK and XOF_READ_AT. -/
theorem test_meets_ReadB3_SeekAnswers_ReadAtSlice :
    (∃ ctl d a m r, (holding (b3Reader 9007199254740991)).slot 3 = .sealed ctl d (.b3 a m r) ∧
      ctl.xof = true ∧ ctl.xpos + (1 : BitVec 64).toNat ≤ State.reset.params.b3Ceil ∧
      State.reset.params.b3Ceil < ctl.xpos + (2 : BitVec 64).toNat) ∧
    0 < (1 : BitVec 64).toNat ∧ (9007199254740992 : BitVec 64).toNat ≤ State.reset.params.b3Ceil ∧
      State.reset.params.b3Ceil < (9007199254740993 : BitVec 64).toNat :=
  ⟨⟨_, _, _, _, _, rfl, rfl, by decide, by decide⟩, by decide, by decide, by decide⟩

theorem test_meets_ReadB2x :
    ∃ ctl d m h0, (holding (b2xReader 274877906943)).slot 3 = .sealed ctl d (.b2x .b2b m h0) ∧
      ctl.xof = true ∧ 0 < (2 : BitVec 64).toNat :=
  ⟨_, _, _, _, rfl, rfl, by decide⟩

/-- A SHAKE128 reader that has produced 169 bytes from the squeeze state `s0`. -/
def shakeAt (s0 : HashState .keccak) : Slot :=
  .sealed ⟨true, 32, 3, 169⟩ [] (.sponge .shake128 ⟨squeezeState .shake128 s0 169, []⟩)

/-- Backwards, on the spot and forwards. -/
theorem test_meets_ReadSponge :
    (∃ ctl d, (holding (shakeAt (zeroWords .keccak))).slot 3 =
        .sealed ctl d (.sponge .shake128
          ⟨squeezeState .shake128 (zeroWords .keccak) ctl.xpos, []⟩) ∧ ctl.xof = true ∧
      (168 : BitVec 64).toNat < ctl.xpos ∧ ctl.xpos ≤ (169 : BitVec 64).toNat ∧
      ctl.xpos ≤ (18446744073709551615 : BitVec 64).toNat) ∧ 0 < (1 : BitVec 64).toNat :=
  ⟨⟨⟨true, 32, 3, 169⟩, [], by simp [holding, shakeAt], rfl, by decide, by decide, by decide⟩, by decide⟩

/-- Both sides of the equivalence hold of one read. -/
theorem test_meets_ReadAtIsSeekThenRead :
    0 < (1 : BitVec 64).toNat ∧
      (∃ t, runAll [.xofSeek 3 7, .xofRead 3 1] (holding (b3Reader 0)) = .next t) ∧
      ∃ t, exec (.xofReadAt 3 7 1) (holding (b3Reader 0)) = .next t :=
  ⟨by decide, ⟨_, rfl⟩, ⟨_, rfl⟩⟩

theorem test_meets_ReadsConcatenate :
    (1 : BitVec 64).toNat + (2 : BitVec 64).toNat < 2 ^ 64 ∧
      ∃ t u outA outB, exec (.xofRead 3 1) (holding (b3Reader 0)) = .next t ∧
        t.rsp = (holding (b3Reader 0)).rsp ++ responseFrame .ok outA ∧
        exec (.xofRead 3 2) t = .next u ∧ u.rsp = t.rsp ++ responseFrame .ok outB :=
  ⟨by decide, ⟨_, _, _, _, rfl, rfl, rfl, rfl⟩⟩

theorem test_meets_PrefixProperty :
    keyFits (.b3 .blake3) (zeros 32).length = true ∧ keyFits (.b3 .deriveKey) 100 = true ∧
      0 < (1 : BitVec 64).toNat ∧ (1 : BitVec 64).toNat < (9007199254740992 : BitVec 64).toNat ∧
      (9007199254740992 : BitVec 64).toNat ≤ State.reset.params.b3Ceil := by decide

theorem test_meets_ContextFlagOnlyInNew :
    (∃ t, exec (.newBlake3DeriveKey 3 false 0 [] []) State.reset = .next t) ∧
      (holding chunkHeld).Legal ∧ (Instr.absorb 3 [1]).newAlg ≠ some (.b3 .deriveKey) ∧
      ∃ t, exec (.absorb 3 [1]) (holding chunkHeld) = .next t :=
  ⟨⟨_, rfl⟩, holding_legal chunkHeld_legal, by decide, ⟨_, rfl⟩⟩

end Sys2Proof.Tests
end

section
/-! PROOFS. What a command does, as an effect on the slot it names: new contents, bytes on `RSP`, transactions on
`CPORT`. A failed command writes back the contents it found, so one form covers both outcomes. Effects on
different slots commute in the context store, and no effect depends on another slot (20_memory.md R81). -/

namespace Sys2Proof.Machine

/-- What a command writes: the contents of its slot, and what it appends to `RSP` and to `CPORT`. -/
structure Effect where
  slot : Slot
  rsp : List Byte
  txs : List Tx

/-- The effect of a command that finds `v` in its slot, on an instance whose `B3_CEIL` is `ceil`. -/
def effectOf (ceil : Nat) (i : Instr) (v : Slot) : Effect :=
  match slotCmd ceil i v with
  | .error e => ⟨v, responseFrame e [], []⟩
  | .ok r => ⟨r.slot, responseFrame .ok r.payload, r.txs⟩

/-- The state after effect `e` on slot `c`. -/
def State.affect (s : State) (c : BitVec 4) (e : Effect) : State :=
  { s.setSlot c e.slot with rsp := s.rsp ++ e.rsp, cport := s.cport ++ e.txs }

/-! ### The context store written back, and under two writes -/

theorem setSlot_slot (s : State) (c : BitVec 4) : s.setSlot c (s.slot c) = s := by
  simp [State.setSlot, State.slot]

theorem ctx_setSlot_comm (s : State) {c d : BitVec 4} (v w : Slot) (h : c ≠ d) :
    ((s.setSlot c v).setSlot d w).ctx = ((s.setSlot d w).setSlot c v).ctx :=
  Vector.set_comm (hi := c.isLt) (hj := d.isLt) v w fun e => h (BitVec.eq_of_toNat_eq e)

/-! ### The state after an effect -/

@[simp] theorem affect_params (s : State) (c : BitVec 4) (e : Effect) :
    (s.affect c e).params = s.params := rfl
@[simp] theorem affect_cmd (s : State) (c : BitVec 4) (e : Effect) : (s.affect c e).cmd = s.cmd := rfl
@[simp] theorem affect_rsp (s : State) (c : BitVec 4) (e : Effect) :
    (s.affect c e).rsp = s.rsp ++ e.rsp := rfl
@[simp] theorem affect_cport (s : State) (c : BitVec 4) (e : Effect) :
    (s.affect c e).cport = s.cport ++ e.txs := rfl

theorem slot_affect_ne (s : State) {c d : BitVec 4} (e : Effect) (h : d ≠ c) :
    (s.affect c e).slot d = s.slot d := slot_setSlot_ne s e.slot h

theorem ctx_affect_comm (s : State) {c d : BitVec 4} (e f : Effect) (h : c ≠ d) :
    ((s.affect c e).affect d f).ctx = ((s.affect d f).affect c e).ctx :=
  ctx_setSlot_comm s e.slot f.slot h

/-- A failure leaves everything but `RSP`, so it is the effect that writes the slot back. -/
theorem failed_eq_affect (s : State) (c : BitVec 4) (st : Status) :
    s.failed st = s.affect c ⟨s.slot c, responseFrame st [], []⟩ := by
  simp [State.failed, State.affect, setSlot_slot]

theorem answered_eq_affect (s : State) (c : BitVec 4) (v : Slot) (txs : List Tx) (p : List Byte) :
    s.answered c v txs p = s.affect c ⟨v, responseFrame .ok p, txs⟩ := rfl

/-- Every command is its effect on the slot it names (10_state.md R20). -/
theorem exec_eq_affect (i : Instr) (s : State) :
    exec i s = .next (s.affect i.context (effectOf s.params.b3Ceil i (s.slot i.context))) := by
  obtain ⟨e, hcmd, hexec⟩ | ⟨r, hcmd, hexec⟩ := exec_cases i s
  · rw [hexec, failed_eq_affect s i.context, effectOf, hcmd]
  · rw [hexec, answered_eq_affect, effectOf, hcmd]

/-- A command has the same effect after an effect on another slot. -/
theorem exec_affect_ne (j : Instr) (s : State) {c : BitVec 4} (e : Effect) (h : j.context ≠ c) :
    exec j (s.affect c e) =
      .next ((s.affect c e).affect j.context (effectOf s.params.b3Ceil j (s.slot j.context))) := by
  rw [exec_eq_affect, affect_params, slot_affect_ne s e h]

/-- Settles O11: the effect of each command is fixed by the first state, whichever runs first, and two effects
on different slots leave the same context store in either order. -/
theorem slotsCommute : Obligations.SlotsCommute := by
  intro i j s hne
  exact ⟨_, _, _, _, _, _, _, _,
    exec_eq_affect i s, exec_affect_ne j s _ hne.symm,
    exec_eq_affect j s, exec_affect_ne i s _ hne,
    rfl, ctx_affect_comm s _ _ hne, rfl, rfl,
    affect_rsp s _ _, rfl, affect_rsp s _ _, rfl,
    affect_cport s _ _, rfl, affect_cport s _ _, rfl⟩

end Sys2Proof.Machine
end

section
/-! PROOFS. The mode flag of a BLAKE3 engine (42_blake3_tree.md R196): a chunk block, a merge and the root each
send `BASE` with node bits added to it, and only the root's bits hold `ROOT`. Nothing in ABSORB writes `BASE`, so
what follows holds of every engine, legal or not. -/

namespace Sys2Proof.Machine

/-! ### Flags: the mode and the node's bits added to it -/

theorem or_and_left_absorb (f k : BitVec 7) : f ||| (k &&& f) = f := by
  ext i
  simp

theorem modeFlag_noRoot {base : BitVec 7} (hb : base ∈ modeFlags) : base &&& ROOT = 0 := by
  simp only [modeFlags, List.mem_cons, List.not_mem_nil, or_false] at hb
  rcases hb with rfl | rfl | rfl | rfl <;> decide

theorem startFlag_noRoot (blocks : Nat) : startFlag blocks &&& ROOT = 0 := by
  unfold startFlag
  split <;> decide

/-- Adding node bits leaves the mode in the flags. -/
theorem or_keepsMode {base f : BitVec 7} (hf : f &&& base = base) (k : BitVec 7) :
    (f ||| k) &&& base = base := by
  rw [BitVec.and_or_distrib_right, hf, or_and_left_absorb]

/-- The flags of a node that is not the root: the mode is in them, `ROOT` is not. -/
structure InnerFlags (base f : BitVec 7) : Prop where
  mode : f &&& base = base
  noRoot : f &&& ROOT = 0

theorem innerFlags_base {base : BitVec 7} (hb : base ∈ modeFlags) : InnerFlags base base :=
  ⟨BitVec.and_self, modeFlag_noRoot hb⟩

/-- Any bits but `ROOT` can be added. -/
theorem InnerFlags.or {base f k : BitVec 7} (hf : InnerFlags base f) (hk : k &&& ROOT = 0) :
    InnerFlags base (f ||| k) where
  mode := or_keepsMode hf.mode k
  noRoot := by rw [BitVec.and_or_distrib_right, hf.noRoot, hk, BitVec.or_self]

theorem midChunkFlags_inner {m : B3State} (hb : m.base ∈ modeFlags) :
    InnerFlags m.base (midChunkFlags m) :=
  (innerFlags_base hb).or (startFlag_noRoot m.blocks)

theorem endChunkFlags_inner {m : B3State} (hb : m.base ∈ modeFlags) :
    InnerFlags m.base (endChunkFlags m) :=
  (midChunkFlags_inner hb).or (by decide)

theorem parentFlags_inner {base : BitVec 7} (hb : base ∈ modeFlags) :
    InnerFlags base (parentFlags base) :=
  (innerFlags_base hb).or (by decide)

/-! ### Computations that send inner nodes only -/

/-- Every transaction is one of primitive `B3` for a node that is not the root. -/
def SendsInner {α : Type} (base : BitVec 7) (x : Traced α) : Prop :=
  ∀ t ∈ x.txs, t.prim = .b3 ∧ InnerFlags base t.flags

@[simp] theorem sendsInner_pure {α : Type} (base : BitVec 7) (a : α) :
    SendsInner base (Traced.pure a) := by
  simp [SendsInner]

@[simp] theorem sendsInner_map {α β : Type} (base : BitVec 7) (f : α → β) (x : Traced α) :
    SendsInner base (x.map f) ↔ SendsInner base x := Iff.rfl

@[simp] theorem sendsInner_bind {α β : Type} (base : BitVec 7) (x : Traced α) (f : α → Traced β) :
    SendsInner base (x.bind f) ↔ SendsInner base x ∧ SendsInner base (f x.val) :=
  List.forall_mem_append

@[simp] theorem sendsInner_compressCv (base : BitVec 7) (cv : ChainVal) (blk : List Byte)
    (ctr bl : Nat) (f : BitVec 7) :
    SendsInner base (compressCv cv blk ctr bl f) ↔ InnerFlags base f := by
  simp [SendsInner]

/-! ### Merges -/

theorem parentCv_sendsInner {base : BitVec 7} (hb : base ∈ modeFlags) (keyw l r : ChainVal) :
    SendsInner base (parentCv keyw base l r) :=
  (sendsInner_compressCv ..).mpr (parentFlags_inner hb)

theorem mergeLoop_sendsInner {base : BitVec 7} (hb : base ∈ modeFlags) (keyw : ChainVal)
    (fuel count : Nat) (stack : List ChainVal) :
    SendsInner base (mergeLoop keyw base fuel count stack) := by
  induction fuel generalizing count stack with
  | zero => exact sendsInner_pure base stack
  | succ fuel ih =>
    by_cases he : count % 2 = 0
    · match stack with
      | right :: left :: below =>
        rw [mergeLoop_even _ _ _ he, sendsInner_bind]
        exact ⟨parentCv_sendsInner hb keyw left right, ih _ _⟩
      | [] | [_] => simp [mergeLoop_short]
    · simp [mergeLoop_odd _ _ _ _ he]

/-- The merges of FINALIZE; the last pair becomes the descriptor and is not sent (42_blake3_tree.md R190). -/
theorem finalMerges_sendsInner {base : BitVec 7} (hb : base ∈ modeFlags) (keyw left : ChainVal)
    (older : List ChainVal) (cv : ChainVal) :
    SendsInner base (finalMerges keyw base left older cv) := by
  induction older generalizing left cv with
  | nil => exact sendsInner_pure base _
  | cons o rest ih => exact (sendsInner_bind ..).mpr ⟨parentCv_sendsInner hb keyw left cv, ih _ _⟩

/-! ### ABSORB -/

theorem b3Flush_sendsInner {m : B3State} (hb : m.base ∈ modeFlags) : SendsInner m.base (b3Flush m) := by
  unfold b3Flush
  split
  · rw [sendsInner_bind, sendsInner_compressCv, sendsInner_map]
    exact ⟨endChunkFlags_inner hb, mergeLoop_sendsInner hb _ _ _ _⟩
  · rw [sendsInner_map, sendsInner_compressCv]
    exact midChunkFlags_inner hb

@[simp] theorem b3Flush_base (m : B3State) : (b3Flush m).val.base = m.base := by
  unfold b3Flush
  split <;> rfl

theorem b3MakeRoom_sendsInner {m : B3State} (hb : m.base ∈ modeFlags) :
    SendsInner m.base (b3MakeRoom m) := by
  unfold b3MakeRoom
  split
  · exact b3Flush_sendsInner hb
  · exact sendsInner_pure m.base m

@[simp] theorem b3MakeRoom_base (m : B3State) : (b3MakeRoom m).val.base = m.base := by
  unfold b3MakeRoom
  split
  · exact b3Flush_base m
  · rfl

theorem b3AbsorbLoop_sendsInner {base : BitVec 7} (hb : base ∈ modeFlags) (fuel : Nat) (m : B3State)
    (data : List Byte) (hm : m.base = base) : SendsInner base (b3AbsorbLoop fuel m data) := by
  induction fuel generalizing m data with
  | zero => exact sendsInner_pure base m
  | succ fuel ih =>
    by_cases hd : data = []
    · rw [hd, b3AbsorbLoop_nil]
      exact sendsInner_pure base m
    · subst hm
      rw [b3AbsorbLoop_round fuel m hd, sendsInner_bind]
      exact ⟨b3MakeRoom_sendsInner hb, ih _ _ (b3MakeRoom_base m)⟩

theorem b3Absorb_sendsInner {m : B3State} (hb : m.base ∈ modeFlags) (data : List Byte) :
    SendsInner m.base (b3Absorb m data) :=
  b3AbsorbLoop_sendsInner hb _ m data rfl

/-! ### The root descriptor -/

theorem b3Root_sendsInner {m : B3State} (hb : m.base ∈ modeFlags) : SendsInner m.base (b3Root m) := by
  unfold b3Root
  cases m.stack with
  | nil => exact sendsInner_pure m.base _
  | cons left older =>
    rw [sendsInner_bind, sendsInner_compressCv]
    exact ⟨endChunkFlags_inner hb, finalMerges_sendsInner hb _ _ _ _⟩

/-- The root is the last block of the only chunk or the last merge: an inner node's flags with `ROOT` added
(42_blake3_tree.md R190). -/
theorem b3Root_rflags_eq {m : B3State} (hb : m.base ∈ modeFlags) :
    ∃ f, InnerFlags m.base f ∧ (b3Root m).val.rflags = f ||| ROOT := by
  unfold b3Root
  cases m.stack with
  | nil => exact ⟨endChunkFlags m, endChunkFlags_inner hb, rfl⟩
  | cons left older =>
    obtain ⟨l, r, hroot⟩ := finalMerges_root m.keyw m.base left older
      (compressCv m.cv (zpad m.tail 64) m.cidx m.tail.length (endChunkFlags m)).val
    exact ⟨parentFlags m.base, parentFlags_inner hb, congrArg RootD.rflags hroot⟩

/-- Settles O59: all that ABSORB and the forming of the root send are inner nodes, and the descriptor's flags are
those of an inner node with `ROOT` added. -/
theorem modeFlagEverywhere : Obligations.ModeFlagEverywhere := by
  intro m data hb
  obtain ⟨f, hf, hroot⟩ := b3Root_rflags_eq hb
  refine ⟨fun t ht => ?_, ?_, ?_⟩
  · obtain ⟨hprim, hflags⟩ : t.prim = .b3 ∧ InnerFlags m.base t.flags := by
      rcases List.mem_append.mp ht with h | h
      · exact b3Absorb_sendsInner hb data t h
      · exact b3Root_sendsInner hb t h
    exact ⟨hprim, hflags.mode, hflags.noRoot⟩
  · rw [hroot, or_keepsMode hf.mode]
  · rw [hroot, BitVec.and_or_distrib_right, hf.noRoot]
    decide

end Sys2Proof.Machine
end

section
/-! PROOFS. NEW of BLAKE3 (45_keying_construction.md R292, R293). The check of R281 and R282 has three outcomes, each
with the operands it belongs to; `exec` of a NEW command is one of them carried to the slot. Both hold of every
algorithm. What is BLAKE3's own is which operands pass, and the engine that is created. -/

namespace Sys2Proof.Machine

/-! ### The outcomes of the check, for every algorithm -/

section
variable {ceil : Nat} {a : Alg} {xof : Bool} {dlen klen slen : Nat}

/-- The operands that are no `InvalidParameter` (45_keying_construction.md R283 to R285). -/
def NewOperandsValid (a : Alg) (xof : Bool) (dlen klen slen : Nat) : Prop :=
  lengthRequestValid a xof dlen = true ∧ keyFits a klen = true ∧ slen ≤ saltMax a

theorem newCheck_of_invalid (h : ¬NewOperandsValid a xof dlen klen slen) :
    newCheck ceil a xof dlen klen slen = .error .invalidParameter := by
  refine if_pos (Bool.eq_false_iff.mpr fun hand => h ?_)
  simpa [NewOperandsValid, and_assoc] using hand

/-- Where the operands are valid, the length alone decides (45_keying_construction.md R282). -/
theorem newCheck_of_valid (h : NewOperandsValid a xof dlen klen slen) :
    newCheck ceil a xof dlen klen slen =
      if (!xof && dlenUnsupported ceil a dlen) = true then .error .unsupportedLength else .ok () := by
  obtain ⟨hlen, hkey, hsalt⟩ := h
  simp [newCheck, hlen, hkey, hsalt]

end

/-! ### NEW on the slot it names, for every algorithm -/

section
variable {a : Alg} {c : BitVec 4} {xof : Bool} {dlen : BitVec 64} {key salt : List Byte} {s : State}

theorem exec_new_of_error {e : Status}
    (h : newCheck s.params.b3Ceil a xof dlen.toNat key.length salt.length = .error e) :
    exec (.new a c xof dlen key salt) s = .next (s.failed e) := by
  rw [exec_new]
  exact runOn_error (by rw [newCmd, h])

theorem exec_new_of_ok
    (h : newCheck s.params.b3Ceil a xof dlen.toNat key.length salt.length = .ok ()) :
    exec (.new a c xof dlen key salt) s =
      .next (s.answered c
        (.absorbing (create a xof dlen.toNat key salt).val.ctl (create a xof dlen.toNat key salt).val.h)
        (create a xof dlen.toNat key salt).txs []) := by
  rw [exec_new]
  exact runOn_ok (r := ⟨_, _, _⟩) (by rw [newCmd, h])

end

/-! ### BLAKE3: the operands and what is created -/

/-- A reader asks for no length, a digest for any; at most 32 key bytes and no salt. -/
theorem newOperandsValid_blake3_iff {xof : Bool} {dlen : Nat} {key salt : List Byte} :
    NewOperandsValid (.b3 .blake3) xof dlen key.length salt.length ↔
      key.length ≤ 32 ∧ salt = [] ∧ (xof = true → dlen = 0) := by
  have hlen : lengthRequestValid (.b3 .blake3) xof dlen = true ↔ (xof = true → dlen = 0) := by
    cases xof <;> simp [lengthRequestValid, hasXof, dlenValid]
  have hkey : keyFits (.b3 .blake3) key.length = true ↔ key.length ≤ 32 := decide_eq_true_iff
  have hsalt : salt.length ≤ saltMax (.b3 .blake3) ↔ salt = [] :=
    Nat.le_zero.trans List.length_eq_zero_iff
  rw [NewOperandsValid, hlen, hkey, hsalt]
  tauto

theorem newCheck_blake3_within {ceil dlen : Nat} {xof : Bool} {key salt : List Byte}
    (hvalid : NewOperandsValid (.b3 .blake3) xof dlen key.length salt.length) (hceil : dlen ≤ ceil) :
    newCheck ceil (.b3 .blake3) xof dlen key.length salt.length = .ok () := by
  rw [newCheck_of_valid hvalid, if_neg]
  simp [dlenUnsupported, hceil]

/-- Only a digest can ask for a length beyond the ceiling: a reader's is 0. -/
theorem newCheck_blake3_beyond {ceil dlen : Nat} {xof : Bool} {key salt : List Byte}
    (hvalid : NewOperandsValid (.b3 .blake3) xof dlen key.length salt.length) (hceil : ceil < dlen) :
    newCheck ceil (.b3 .blake3) xof dlen key.length salt.length = .error .unsupportedLength := by
  obtain ⟨-, -, hreader⟩ := newOperandsValid_blake3_iff.mp hvalid
  have hdigest : xof = false := Bool.eq_false_iff.mpr fun hx => by
    have := hreader hx
    omega
  rw [newCheck_of_valid hvalid, if_pos]
  simp [dlenUnsupported, hdigest, hceil]

theorem create_blake3_unkeyed (xof : Bool) (dlen : Nat) (salt : List Byte) :
    create (.b3 .blake3) xof dlen [] salt =
      .pure ⟨b3Ctl xof dlen, .b3 .blake3 (b3Fresh Config.ivB3 0)⟩ := rfl

theorem create_blake3_keyed (xof : Bool) (dlen : Nat) {key : List Byte} (salt : List Byte)
    (h : key ≠ []) :
    create (.b3 .blake3) xof dlen key salt =
      .pure ⟨b3Ctl xof dlen, .b3 .blake3 (b3Fresh (keyWords (zpad key 32)) KEYED_HASH)⟩ := by
  simp [create, createBlake3, h]

/-- Settles O23: the operands decide between the three outcomes, and whether there is a key between the two
engines. -/
theorem newBlake3 : Obligations.NewBlake3 := by
  intro c xof dlen key salt s params
  have hiff : NewOperandsValid (.b3 .blake3) xof dlen.toNat key.length salt.length ↔ params :=
    newOperandsValid_blake3_iff
  refine ⟨fun hp hceil => ?_, fun hp => ?_, fun hp hceil => ?_⟩
  · have hexec := exec_new_of_ok (c := c) (newCheck_blake3_within (hiff.mpr hp) hceil)
    by_cases hk : key = []
    · subst hk
      rw [create_blake3_unkeyed] at hexec
      exact ⟨_, _, _, fun _ => rfl, fun _ => ⟨rfl, rfl⟩, fun h => absurd rfl h, hexec⟩
    · rw [create_blake3_keyed _ _ _ hk] at hexec
      exact ⟨_, _, _, fun _ => rfl, fun h => absurd h hk, fun _ => ⟨rfl, rfl⟩, hexec⟩
  · exact exec_new_of_error (newCheck_of_invalid (mt hiff.mp hp))
  · exact exec_new_of_error (newCheck_blake3_beyond (hiff.mpr hp) hceil)

end Sys2Proof.Machine
end

section
/-! PROOFS. What a command takes from the state it runs in: the instance's parameters and the contents of the slot it
names (10_state.md R20, 70_reset_and_hazards.md R363). Where two states agree on these, a command has one and the same
effect on both; the frame of an effect says the rest. -/

namespace Sys2Proof.Machine

theorem slot_affect_self (s : State) (c : BitVec 4) (e : Effect) : (s.affect c e).slot c = e.slot :=
  slot_setSlot_self s c e.slot

/-- On a state of the same instance with the same contents in the slot named, a command has the same effect. -/
theorem exec_eq_affect_of_agree {i : Instr} {s u : State} (hparams : s.params = u.params)
    (hslot : s.slot i.context = u.slot i.context) :
    exec i u = .next (u.affect i.context (effectOf s.params.b3Ceil i (s.slot i.context))) := by
  rw [hparams, hslot]
  exact exec_eq_affect i u

/-- Settles O12: the two runs are one effect on two states; it overwrites the slot named, only appends to the ports,
and keeps every other slot. -/
theorem ownSlotOnly : Obligations.OwnSlotOnly := by
  intro i s u hparams hslot
  let e := effectOf s.params.b3Ceil i (s.slot i.context)
  have hsame : (s.affect i.context e).slot i.context = (u.affect i.context e).slot i.context :=
    (slot_affect_self s i.context e).trans (slot_affect_self u i.context e).symm
  exact ⟨s.affect i.context e, u.affect i.context e, e.rsp, e.txs,
    exec_eq_affect i s, exec_eq_affect_of_agree hparams hslot, hsame,
    affect_rsp s _ e, affect_rsp u _ e, affect_cport s _ e, affect_cport u _ e,
    fun _ hne => ⟨slot_affect_ne s e hne, slot_affect_ne u e hne⟩⟩

end Sys2Proof.Machine
end

section
/-! PROOFS. Command frames (30_encoding.md): what a whole frame decodes to, the two header checks against R104, and the
encoder as the inverse of the decoder. -/

namespace Sys2Proof

open Machine

/-! ### A whole frame -/

/-- The bytes a frame takes after its header, by the decoder's own lengths. -/
def bodyLength (w : BitVec 32) (body : List Byte) : Nat :=
  8 * operandCount (hdrOpc w) + payloadLength (hdrOpc w) body

/-- The payload of a frame with header `w`. -/
def payloadOf (w : BitVec 32) (body : List Byte) : List Byte :=
  (body.drop (8 * operandCount (hdrOpc w))).take (payloadLength (hdrOpc w) body)

theorem decodeFrame_incomplete (nctx : Nat) {w : BitVec 32} {body : List Byte}
    (h : body.length < bodyLength w body) :
    decodeFrame nctx (leBytes 4 w.toNat ++ body) = .incomplete := by
  rw [decodeFrame_header]
  split
  · rfl
  · exact if_pos h

theorem decodeFrame_whole (nctx : Nat) {w : BitVec 32} {body : List Byte}
    (h : bodyLength w body ≤ body.length) :
    decodeFrame nctx (leBytes 4 w.toNat ++ body) =
      match headerIllegal nctx w with
      | some why => .illegal why (body.drop (bodyLength w body))
      | none =>
        match buildInstr w body (payloadOf w body) with
        | some i => .command i (body.drop (bodyLength w body))
        | none => .illegal .reservedOpcode (body.drop (bodyLength w body)) := by
  unfold bodyLength at h
  rw [decodeFrame_header, if_neg (by omega), if_neg (by omega)]
  rfl

theorem decodeFrame_illegal {nctx : Nat} {w : BitVec 32} {body : List Byte} {why : Illegal}
    (h : bodyLength w body ≤ body.length) (hw : headerIllegal nctx w = some why) :
    decodeFrame nctx (leBytes 4 w.toNat ++ body) = .illegal why (body.drop (bodyLength w body)) := by
  rw [decodeFrame_whole nctx h, hw]

theorem decodeFrame_command {nctx : Nat} {w : BitVec 32} {body : List Byte} {i : Instr}
    (h : bodyLength w body ≤ body.length) (hw : headerIllegal nctx w = none)
    (hi : buildInstr w body (payloadOf w body) = some i) :
    decodeFrame nctx (leBytes 4 w.toNat ++ body) = .command i (body.drop (bodyLength w body)) := by
  rw [decodeFrame_whole nctx h, hw]
  simp only [hi]

/-- What an accepted frame is made of. -/
theorem decodeFrame_command_inv {nctx : Nat} {bs : List Byte} {i : Instr} {rest : List Byte}
    (h : decodeFrame nctx bs = .command i rest) :
    ∃ (w : BitVec 32) (body : List Byte), bs = leBytes 4 w.toNat ++ body ∧
      bodyLength w body ≤ body.length ∧ headerIllegal nctx w = none ∧
      buildInstr w body (payloadOf w body) = some i ∧ rest = body.drop (bodyLength w body) := by
  have h4 : 4 ≤ bs.length := by
    by_contra hlt
    rw [decodeFrame_short nctx bs (by omega)] at h
    cases h
  obtain ⟨w, body, rfl⟩ := header_split bs h4
  have hlen : bodyLength w body ≤ body.length := by
    by_contra hlt
    rw [decodeFrame_incomplete nctx (by omega)] at h
    cases h
  rw [decodeFrame_whole nctx hlen] at h
  cases hw : headerIllegal nctx w with
  | some why => simp [hw] at h
  | none =>
    cases hi : buildInstr w body (payloadOf w body) with
    | none => simp [hw, hi] at h
    | some j =>
      simp only [hw, hi, Frame.command.injEq] at h
      obtain ⟨rfl, rfl⟩ := h
      exact ⟨w, body, rfl, hlen, hw, hi, rfl⟩

/-- The decoder's lengths are those of the operands and the payload (30_encoding.md R94, R102). -/
theorem bodyLength_eq (w : BitVec 32) (body : List Byte) :
    bodyLength w body = bytesAfterHeader (w.extractLsb' 28 4).toNat body := by
  have hlt : (w.extractLsb' 28 4).toNat < 16 := BitVec.isLt _
  unfold bodyLength operandCount payloadLength bytesAfterHeader hdrOpc operand
  generalize (w.extractLsb' 28 4).toNat = n at hlt
  interval_cases n <;> simp
  omega

/-! ### The header checks (30_encoding.md R104) -/

theorem ofNumber_isNone_iff (n : BitVec 8) : (Alg.ofNumber n).isNone = true ↔ n ∉ algNumbers := by
  have hall : algNumbers = Alg.all.map Alg.number := rfl
  rw [hall, Option.isNone_iff_eq_none, Alg.ofNumber, List.find?_eq_none]
  simp

theorem ite_some_eq_none_iff {α : Type} (p : Prop) [Decidable p] (x : α) (r : Option α) :
    (if p then some x else r) = none ↔ ¬p ∧ r = none := by
  split <;> simp [*]

theorem opc_eq_zero_iff (w : BitVec 32) : hdrOpc w = 0 ↔ (hdrOpc w).toNat = 0 :=
  ⟨fun e => by rw [e]; rfl, fun e => BitVec.eq_of_toNat_eq e⟩

/-- A header that passes the checks: the opcode of a command, reserved bits 0, `ALG` and `XOF` only in NEW, a known
algorithm there, a slot that exists. -/
structure LegalHeader (nctx : Nat) (w : BitVec 32) : Prop where
  opc : 1 ≤ (hdrOpc w).toNat ∧ (hdrOpc w).toNat ≤ 6
  reserved : hdrReservedHigh w = 0 ∧ hdrReservedLow w = 0
  outsideNew : hdrOpc w ≠ 1 → hdrAlg w = 0 ∧ hdrXof w = false
  known : hdrOpc w = 1 → ∃ a, Alg.ofNumber (hdrAlg w) = some a
  ctx : (hdrCtx w).toNat < nctx

theorem LegalHeader.opc_cases {nctx : Nat} {w : BitVec 32} (h : LegalHeader nctx w) :
    hdrOpc w = 1 ∨ hdrOpc w = 2 ∨ hdrOpc w = 3 ∨ hdrOpc w = 4 ∨ hdrOpc w = 5 ∨ hdrOpc w = 6 := by
  have := h.opc
  bv_omega

theorem headerIllegal_none_iff (nctx : Nat) (w : BitVec 32) :
    headerIllegal nctx w = none ↔ LegalHeader nctx w := by
  have hopc : ¬(hdrOpc w = 0 ∨ 7 ≤ (hdrOpc w).toNat) ↔
      1 ≤ (hdrOpc w).toNat ∧ (hdrOpc w).toNat ≤ 6 := by
    rw [opc_eq_zero_iff]; omega
  have hknown : ¬(hdrOpc w = 1 ∧ (Alg.ofNumber (hdrAlg w)).isNone = true) ↔
      (hdrOpc w = 1 → ∃ a, Alg.ofNumber (hdrAlg w) = some a) := by
    simp [← Option.ne_none_iff_exists']
  unfold headerIllegal
  rw [ite_some_eq_none_iff, ite_some_eq_none_iff, ite_some_eq_none_iff, ite_some_eq_none_iff,
    ite_some_eq_none_iff, ite_some_eq_none_iff, hopc, hknown]
  constructor
  · rintro ⟨hop, hres, halg, hxof, hkn, hctx, -⟩
    refine ⟨hop, by simpa using hres, fun h => ⟨?_, ?_⟩, hkn, by omega⟩
    · by_contra hne; exact halg ⟨h, hne⟩
    · by_contra hne; exact hxof ⟨h, by simpa using hne⟩
  · rintro ⟨hop, ⟨hhigh, hlow⟩, hout, hkn, hctx⟩
    refine ⟨hop, by simp [hhigh, hlow], fun h => h.2 (hout h.1).1, fun h => ?_, hkn, by omega, rfl⟩
    rw [(hout h.1).2] at h
    cases h.2

/-- The decoder refuses exactly the headers of R104. -/
theorem headerIllegal_none_iff_not_illegal (nctx : Nat) (w : BitVec 32) :
    headerIllegal nctx w = none ↔ ¬IllegalHeader nctx w := by
  have hxof : hdrXof w = true ↔ w.extractLsb' 8 1 = 1 := by simp [hdrXof]
  have hknown : (∃ a, Alg.ofNumber (hdrAlg w) = some a) ↔ w.extractLsb' 16 8 ∈ algNumbers := by
    rw [← Option.ne_none_iff_exists', ne_eq, ← Option.isNone_iff_eq_none, ofNumber_isNone_iff,
      not_not, hdrAlg]
  rw [headerIllegal_none_iff]
  constructor
  · rintro ⟨⟨h1, h6⟩, ⟨hhigh, hlow⟩, hout, hkn, hctx⟩ (h | h | h | h | ⟨h, h' | h'⟩ | ⟨h, h'⟩ | h)
    · have := (opc_eq_zero_iff w).mp h; omega
    · exact absurd h (by unfold hdrOpc at h6; omega)
    · exact h hhigh
    · exact h hlow
    · exact h' (hout h).1
    · rw [← hxof, (hout h).2] at h'; cases h'
    · exact h' (hknown.mp (hkn h))
    · exact absurd h (by unfold hdrCtx at hctx; omega)
  · intro h
    simp only [IllegalHeader, not_or, not_and, not_not, not_le] at h
    obtain ⟨h0, h7, hhigh, hlow, hout, hkn, hctx⟩ := h
    have hne : (hdrOpc w).toNat ≠ 0 := fun e => h0 ((opc_eq_zero_iff w).mpr e)
    have h7' : (hdrOpc w).toNat < 7 := h7
    refine ⟨by omega, ⟨hhigh, hlow⟩, fun h => ⟨(hout h).1, ?_⟩, fun h => hknown.mpr (hkn h), hctx⟩
    exact Bool.eq_false_iff.mpr fun hx => (hout h).2 (hxof.mp hx)

/-- A legal header spells a command, whatever its operands and payload. -/
theorem buildInstr_of_legal {nctx : Nat} {w : BitVec 32} (h : LegalHeader nctx w)
    (ops payload : List Byte) : ∃ i, buildInstr w ops payload = some i := by
  refine Option.ne_none_iff_exists'.mp fun hnone => ?_
  unfold buildInstr at hnone
  obtain e | e | e | e | e | e := h.opc_cases
  · obtain ⟨a, ha⟩ := h.known e
    simp [e, ha] at hnone
  all_goals simp [e] at hnone

/-! ### What a step does with the first frame -/

/-- Settles O5. -/
theorem stepRunsDecoded : Obligations.StepRunsDecoded := by
  intro s i rest h
  rw [step, fetch, h]
  rfl

/-- Settles O6. -/
theorem incompleteFrameWaits : Obligations.IncompleteFrameWaits := by
  intro s h
  rw [step, fetch, h]
  rfl

theorem step_illegal {s : State} {why : Illegal} {rest : List Byte}
    (h : decodeFrame s.params.nctx s.cmd = .illegal why rest) :
    step s = .next (State.failed { s with cmd := rest } .illegalCommand) := by
  rw [step, fetch, h]
  rfl

/-- Settles O7, by evaluating the decoder on each frame. -/
theorem framesReadRight : Obligations.FramesReadRight := by
  unfold Obligations.FramesReadRight
  decide

/-- Settles O3: the decoder's lengths are those of R102, and a whole frame is a command or illegal. -/
theorem frameConsumedWhole : Obligations.FrameConsumedWhole := by
  refine fun nctx => ⟨decodeFrame_short nctx, fun w body => ?_⟩
  rw [← bodyLength_eq]
  refine ⟨decodeFrame_incomplete nctx, fun hlen => ?_⟩
  rw [decodeFrame_whole nctx hlen]
  split
  · exact .inr ⟨_, rfl⟩
  · split
    · exact .inl ⟨_, rfl⟩
    · exact .inr ⟨_, rfl⟩

/-- Settles O4: the decoder refuses exactly the headers of R104, and any other header spells a command. -/
theorem illegalCommand : Obligations.IllegalCommand := by
  intro w body s hcmd hlen
  rw [← bodyLength_eq] at hlen ⊢
  refine ⟨fun hill => ?_, fun hlegal => ?_⟩
  · have hne := mt (headerIllegal_none_iff_not_illegal s.params.nctx w).mp (not_not.mpr hill)
    obtain ⟨why, hwhy⟩ := Option.ne_none_iff_exists'.mp hne
    exact step_illegal (hcmd ▸ decodeFrame_illegal hlen hwhy)
  · have hnone := (headerIllegal_none_iff_not_illegal s.params.nctx w).mpr hlegal
    obtain ⟨i, hi⟩ := buildInstr_of_legal ((headerIllegal_none_iff _ w).mp hnone) body (payloadOf w body)
    exact ⟨i, hcmd ▸ decodeFrame_command hlen hnone hi⟩

/-! ### The encoder -/

@[simp] theorem encode_new (a : Alg) (c : BitVec 4) (xof : Bool) (dlen : BitVec 64)
    (key salt : List Byte) : encode (.new a c xof dlen key salt) = encodeNew a c xof dlen key salt := by
  cases a with
  | md a => cases a <;> rfl
  | sponge a => cases a <;> rfl
  | b2 p => cases p <;> rfl
  | b2p p => cases p <;> rfl
  | b2x p => cases p <;> rfl
  | b3 a => cases a <;> rfl

@[simp] theorem payloadsFit_new (a : Alg) (c : BitVec 4) (xof : Bool) (dlen : BitVec 64)
    (key salt : List Byte) :
    (Instr.new a c xof dlen key salt).payloadsFit = (lengthFits key && lengthFits salt) := by
  cases a with
  | md a => cases a <;> rfl
  | sponge a => cases a <;> rfl
  | b2 p => cases p <;> rfl
  | b2p p => cases p <;> rfl
  | b2x p => cases p <;> rfl
  | b3 a => cases a <;> rfl

/-- The six forms of a command. -/
theorem instr_cases (i : Instr) :
    (∃ a c xof dlen key salt, i = .new a c xof dlen key salt) ∨ (∃ c data, i = .absorb c data) ∨
      (∃ c, i = .finalize c) ∨ (∃ c len, i = .xofRead c len) ∨ (∃ c pos, i = .xofSeek c pos) ∨
      ∃ c pos len, i = .xofReadAt c pos len := by
  cases h : i.newAlg with
  | some a =>
    obtain ⟨xof, dlen, key, salt, hi⟩ := eq_new_of_newAlg h
    exact .inl ⟨_, _, _, _, _, _, hi⟩
  | none =>
    cases i <;> simp only [Instr.newAlg, reduceCtorEq] at h
    all_goals simp

theorem legalHeader_new {nctx : Nat} (a : Alg) {c : BitVec 4} (xof : Bool) (hc : c.toNat < nctx) :
    LegalHeader nctx (hdrWord 1 c a.number xof) where
  opc := by simp
  reserved := by simp
  outsideNew h := absurd (by simp) h
  known _ := ⟨a, by simp⟩
  ctx := by simpa using hc

theorem legalHeader_other {nctx : Nat} {opc c : BitVec 4} (h1 : 2 ≤ opc.toNat) (h6 : opc.toNat ≤ 6)
    (hc : c.toNat < nctx) : LegalHeader nctx (hdrWord opc c 0 false) where
  opc := by rw [hdrOpc_hdrWord]; omega
  reserved := by simp
  outsideNew _ := by simp
  known h := by rw [hdrOpc_hdrWord] at h; subst h; simp at h1
  ctx := by simpa using hc

/-- The decoder on a header and operand bytes of the announced length, a payload and what follows it. -/
theorem decodeFrame_parts {nctx : Nat} {w : BitVec 32} {ops payload rest : List Byte} {i : Instr}
    (hw : LegalHeader nctx w) (hops : ops.length = 8 * operandCount (hdrOpc w))
    (hpay : payloadLength (hdrOpc w) (ops ++ (payload ++ rest)) = payload.length)
    (hi : buildInstr w (ops ++ (payload ++ rest)) payload = some i) :
    decodeFrame nctx (leBytes 4 w.toNat ++ (ops ++ (payload ++ rest))) = .command i rest := by
  have hlen : bodyLength w (ops ++ (payload ++ rest)) = ops.length + payload.length := by
    rw [bodyLength, hpay, hops]
  have hpayload : payloadOf w (ops ++ (payload ++ rest)) = payload := by
    rw [payloadOf, hpay, ← hops]; simp
  rw [decodeFrame_command (by rw [hlen]; simp) ((headerIllegal_none_iff _ _).mpr hw)
    (by rw [hpayload]; exact hi), hlen]
  simp [← List.append_assoc, ← List.length_append]

theorem operand_length {bs : List Byte} (h : lengthFits bs = true) (r : List Byte) :
    operand (leBytes 8 bs.length ++ r) 0 = bs.length := by
  rw [operand_zero, Nat.mod_eq_of_lt (of_decide_eq_true h)]

theorem ofNat_operand (v : BitVec 64) (r : List Byte) :
    BitVec.ofNat 64 (operand (leBytes 8 v.toNat ++ r) 0) = v := by
  rw [operand_zero, Nat.mod_eq_of_lt v.isLt, BitVec.ofNat_toNat, BitVec.setWidth_eq]

theorem wellFormed_iff (nctx : Nat) (i : Instr) :
    i.wellFormed nctx = true ↔ i.context.toNat < nctx ∧ i.payloadsFit = true := by
  rw [Instr.wellFormed, Bool.and_eq_true, decide_eq_true_eq]

/-- Settles O1: each of the six forms is its header, its operands and its payload, which the decoder reads back. -/
theorem decodeEncode : Obligations.DecodeEncode := by
  intro nctx i rest hwf
  obtain ⟨hc, hfit⟩ := (wellFormed_iff nctx i).mp hwf
  obtain ⟨a, c, xof, dlen, key, salt, rfl⟩ | ⟨c, data, rfl⟩ | ⟨c, rfl⟩ | ⟨c, len, rfl⟩ | ⟨c, pos, rfl⟩ |
    ⟨c, pos, len, rfl⟩ := instr_cases i
  · rw [context_new] at hc
    rw [payloadsFit_new, Bool.and_eq_true] at hfit
    have h := decodeFrame_parts (legalHeader_new a xof hc) (rest := rest) (payload := key ++ salt)
      (ops := leBytes 8 dlen.toNat ++ (leBytes 8 key.length ++ leBytes 8 salt.length))
      (i := .new a c xof dlen key salt) (by simp [operandCount])
      (by simp [payloadLength, operand_succ, operand_length, hfit])
      (by simp [buildInstr, operand_succ, operand_length, ofNat_operand, hfit])
    simpa [encodeNew] using h
  · have h := decodeFrame_parts (legalHeader_other (opc := 2) (c := c) (by decide) (by decide) hc)
      (rest := rest) (payload := data) (ops := leBytes 8 data.length) (i := .absorb c data)
      (by simp [operandCount]) (by simpa [payloadLength] using operand_length hfit _)
      (by simp [buildInstr])
    simpa [encode, encodeHeader] using h
  · have h := decodeFrame_parts (legalHeader_other (opc := 3) (c := c) (by decide) (by decide) hc)
      (rest := rest) (payload := []) (ops := []) (i := .finalize c)
      (by simp [operandCount]) (by simp [payloadLength]) (by simp [buildInstr])
    simpa [encode, encodeHeader] using h
  · have h := decodeFrame_parts (legalHeader_other (opc := 4) (c := c) (by decide) (by decide) hc)
      (rest := rest) (payload := []) (ops := leBytes 8 len.toNat) (i := .xofRead c len)
      (by simp [operandCount]) (by simp [payloadLength]) (by simp [buildInstr, ofNat_operand])
    simpa [encode, encodeHeader] using h
  · have h := decodeFrame_parts (legalHeader_other (opc := 5) (c := c) (by decide) (by decide) hc)
      (rest := rest) (payload := []) (ops := leBytes 8 pos.toNat) (i := .xofSeek c pos)
      (by simp [operandCount]) (by simp [payloadLength]) (by simp [buildInstr, ofNat_operand])
    simpa [encode, encodeHeader] using h
  · have h := decodeFrame_parts (legalHeader_other (opc := 6) (c := c) (by decide) (by decide) hc)
      (rest := rest) (payload := []) (ops := leBytes 8 pos.toNat ++ leBytes 8 len.toNat)
      (i := .xofReadAt c pos len) (by simp [operandCount]) (by simp [payloadLength])
      (by simp [buildInstr, operand_succ, ofNat_operand])
    simpa [encode, encodeHeader] using h

/-! ### An accepted frame is an encoding -/

theorem body_split (w : BitVec 32) (body : List Byte) :
    body = body.take (8 * operandCount (hdrOpc w)) ++
      (payloadOf w body ++ body.drop (bodyLength w body)) := by
  rw [payloadOf, bodyLength, ← List.drop_drop, List.take_append_drop, List.take_append_drop]

/-- The operand bytes of a frame are those of the operands' values. -/
theorem take_operands_succ (body : List Byte) (k : Nat) (h : 8 * k + 8 ≤ body.length) :
    body.take (8 * (k + 1)) = body.take (8 * k) ++ leBytes 8 (operand body k) := by
  rw [leBytes_operand body k h, Nat.mul_succ, List.take_add]

theorem toNat_ofNat_operand (body : List Byte) (k : Nat) :
    (BitVec.ofNat 64 (operand body k)).toNat = operand body k := by
  rw [BitVec.toNat_ofNat, Nat.mod_eq_of_lt (operand_lt body k)]

theorem payloadOf_length {w : BitVec 32} {body : List Byte} (h : bodyLength w body ≤ body.length) :
    (payloadOf w body).length = payloadLength (hdrOpc w) body := by
  unfold bodyLength at h
  simp [payloadOf]
  omega

/-- The header of an accepted frame that is no NEW. -/
theorem header_eq_encodeHeader {nctx : Nat} {w : BitVec 32} (h : LegalHeader nctx w)
    (hne : hdrOpc w ≠ 1) : leBytes 4 w.toNat = encodeHeader (hdrOpc w) (hdrCtx w) := by
  obtain ⟨halg, hxof⟩ := h.outsideNew hne
  have hw := hdrWord_fields w h.reserved.1 h.reserved.2
  rw [halg, hxof] at hw
  rw [encodeHeader, hw]

theorem header_eq_new {nctx : Nat} {w : BitVec 32} (h : LegalHeader nctx w) (hop : hdrOpc w = 1)
    {a : Alg} (ha : Alg.ofNumber (hdrAlg w) = some a) :
    w = hdrWord 1 (hdrCtx w) a.number (hdrXof w) := by
  rw [number_ofNumber ha, ← hop]
  exact (hdrWord_fields w h.reserved.1 h.reserved.2).symm

theorem lengthFits_of_eq_operand {bs body : List Byte} {k : Nat} (h : bs.length = operand body k) :
    lengthFits bs = true :=
  decide_eq_true (h ▸ operand_lt body k)

/-- Settles O2: a legal header is the word of its fields, the operand bytes are those of their values, and the
payload has the length they announce. -/
theorem acceptedFrameIsEncoding : Obligations.AcceptedFrameIsEncoding := by
  intro nctx bs i rest hdec
  obtain ⟨w, body, rfl, hlen, hnone, hi, rfl⟩ := decodeFrame_command_inv hdec
  have hw := (headerIllegal_none_iff _ _).mp hnone
  have hpay := payloadOf_length hlen
  have hsplit := body_split w body
  have htake := take_operands_succ body
  generalize hrest : body.drop (bodyLength w body) = rest at hsplit ⊢
  generalize hp : payloadOf w body = payload at hi hpay hsplit
  obtain e | e | e | e | e | e := hw.opc_cases
  · obtain ⟨a, ha⟩ := hw.known e
    simp [bodyLength, payloadLength, operandCount, e] at hlen hpay hsplit
    simp [buildInstr, e, ha] at hi
    have hkey : (payload.take (operand body 1)).length = operand body 1 := by simp [hpay]
    have hsalt : (payload.drop (operand body 1)).length = operand body 2 := by simp [hpay]
    subst hi
    refine ⟨?_, ?_⟩
    · rw [wellFormed_iff, context_new, payloadsFit_new, Bool.and_eq_true]
      exact ⟨hw.ctx, lengthFits_of_eq_operand hkey, lengthFits_of_eq_operand hsalt⟩
    · rw [encode_new, encodeNew, ← header_eq_new hw e ha, hkey, hsalt, toNat_ofNat_operand]
      conv_lhs => rw [hsplit, htake 2 (by omega), htake 1 (by omega), htake 0 (by omega)]
      simp
  · simp [bodyLength, payloadLength, operandCount, e] at hlen hpay hsplit
    simp [buildInstr, e] at hi
    subst hi
    refine ⟨(wellFormed_iff _ _).mpr ⟨hw.ctx, lengthFits_of_eq_operand hpay⟩, ?_⟩
    · rw [header_eq_encodeHeader hw (by rw [e]; decide), e, encode, hpay]
      conv_lhs => rw [hsplit, htake 0 (by omega)]
      simp
  all_goals
    simp [bodyLength, payloadLength, operandCount, e] at hlen hpay hsplit
    simp [buildInstr, e] at hi
    subst hi hpay
    refine ⟨(wellFormed_iff _ _).mpr ⟨hw.ctx, rfl⟩, ?_⟩
    rw [header_eq_encodeHeader hw (by rw [e]; decide), e, encode]
  · conv_lhs => rw [hsplit]
    rfl
  · conv_lhs => rw [hsplit, htake 0 (by omega)]
    simp only [toNat_ofNat_operand, List.append_assoc, List.nil_append]
    rfl
  · conv_lhs => rw [hsplit, htake 0 (by omega)]
    simp only [toNat_ofNat_operand, List.append_assoc, List.nil_append]
    rfl
  · conv_lhs => rw [hsplit, htake 1 (by omega), htake 0 (by omega)]
    simp only [toNat_ofNat_operand, List.append_assoc, List.nil_append]
    rfl

end Sys2Proof
end

section
/-! PROOFS. What every command keeps: a command that succeeds is a NEW, an ABSORB, the FINALIZE of an absorbing slot, or
leaves a sealed slot sealed. This inversion, said once, gives the life cycle and the invariants of 10_state.md. -/

namespace Sys2Proof.Machine

/-! ### Response frames (30_encoding.md R99) -/

theorem responseFrame_eq (st : Status) (payload : List Byte) :
    responseFrame st payload =
      [BitVec.ofNat 8 st.code, 0, 0, 0] ++ leBytes 8 payload.length ++ payload := by
  cases st <;> rfl

theorem responseFrame_ne_nil (st : Status) (payload : List Byte) : responseFrame st payload ≠ [] := by
  simp [responseFrame_eq]

theorem status_code_injective {a b : Status} (h : BitVec.ofNat 8 a.code = BitVec.ofNat 8 b.code) :
    a = b := by
  cases a <;> cases b <;> first | rfl | exact absurd h (by decide)

/-- A response frame tells the status and the payload. -/
theorem responseFrame_inj {a b : Status} {p q : List Byte} (h : responseFrame a p = responseFrame b q) :
    a = b ∧ p = q := by
  rw [responseFrame_eq, responseFrame_eq, List.append_assoc, List.append_assoc] at h
  obtain ⟨hhead, htail⟩ := List.append_inj h rfl
  exact ⟨status_code_injective (List.cons.inj hhead).1, (List.append_inj htail (by simp)).2⟩

/-- Settles O8: both outcomes of a command, failed and answered, append one response frame. -/
theorem oneResponse : Obligations.OneResponse := by
  intro i s
  obtain ⟨e, -, hexec⟩ | ⟨r, -, hexec⟩ := exec_cases i s
  · exact ⟨_, e, [], [], hexec, rfl, rfl, (List.append_nil _).symm, by rw [failed_rsp, responseFrame_eq],
      fun _ => rfl⟩
  · exact ⟨_, .ok, r.payload, r.txs, hexec, rfl, rfl, rfl, by rw [answered_rsp, responseFrame_eq],
      fun h => absurd rfl h⟩

/-! ### The outcomes of a step -/

/-- What a step can do: execute a command, answer an illegal frame, wait. -/
theorem step_cases {s t : State} (h : step s = .next t) :
    (∃ i rest, decodeFrame s.params.nctx s.cmd = .command i rest ∧
        exec i { s with cmd := rest } = .next t) ∨
      (∃ why rest, decodeFrame s.params.nctx s.cmd = .illegal why rest ∧
        t = State.failed { s with cmd := rest } .illegalCommand) ∨ t = s := by
  cases hd : decodeFrame s.params.nctx s.cmd with
  | command i rest => exact .inl ⟨i, rest, rfl, stepRunsDecoded s i rest hd ▸ h⟩
  | illegal why rest =>
    rw [step_illegal hd] at h
    exact .inr (.inl ⟨why, rest, rfl, (Host.Outcome.next.inj h).symm⟩)
  | incomplete =>
    rw [incompleteFrameWaits s hd] at h
    exact .inr (.inr (Host.Outcome.next.inj h).symm)

/-- Settles O9: of the outcomes of a step only a failed command and an illegal frame append a response that is no `OK`,
and both change nothing else. -/
theorem errorsChangeNothing : Obligations.ErrorsChangeNothing := by
  intro s t e payload hstep hne hrsp
  obtain ⟨i, rest, hd, hexec⟩ | ⟨why, rest, hd, rfl⟩ | rfl := step_cases hstep
  · obtain ⟨e', -, hexec'⟩ | ⟨r, -, hexec'⟩ := exec_cases i { s with cmd := rest }
    · obtain rfl := Host.Outcome.next.inj (hexec.symm.trans hexec')
      obtain ⟨-, hp⟩ := responseFrame_inj (List.append_cancel_left hrsp)
      exact ⟨rfl, rfl, rfl, hp.symm, .inl ⟨i, hd⟩⟩
    · obtain rfl := Host.Outcome.next.inj (hexec.symm.trans hexec')
      obtain ⟨he, -⟩ := responseFrame_inj (List.append_cancel_left hrsp)
      exact absurd he.symm hne
  · obtain ⟨-, hp⟩ := responseFrame_inj (List.append_cancel_left hrsp)
    exact ⟨rfl, rfl, rfl, hp.symm, .inr ⟨why, hd⟩⟩
  · exact absurd (List.self_eq_append_right.mp hrsp) (responseFrame_ne_nil e payload)

/-! ### What a command leaves of a sealed slot -/

/-- Where a reading sends `B3` transactions they carry the flags of the root descriptor. -/
def SendsRootFlags (z : Sealed) (txs : List Tx) : Prop :=
  ∀ t ∈ txs, t.prim = .b3 → ∃ a m d, z = .b3 a m d ∧ t.flags = d.rflags

/-- A class other than `SPONGE` keeps its class state (10_state.md R43). -/
def KeepsUnlessSponge (z z' : Sealed) : Prop := (∀ a m, z ≠ .sponge a m) → z' = z

theorem spongePermute_prim (a : SpongeAlg) (s : HashState .keccak) (xpos : Nat) :
    ∀ t ∈ (spongePermute a s xpos).txs, t.prim = .keccak := by
  unfold spongePermute
  split <;> simp

theorem squeezeLoop_prim (a : SpongeAlg) (fuel : Nat) (s : HashState .keccak) (xpos n : Nat) :
    ∀ t ∈ (squeezeLoop a fuel s xpos n).txs, t.prim = .keccak := by
  induction fuel generalizing s xpos n with
  | zero => simp [squeezeLoop]
  | succ fuel ih =>
    rw [squeezeLoop]
    split
    · simp
    · simp only [bind_txs, map_txs, List.forall_mem_append]
      exact ⟨spongePermute_prim a s xpos, ih _ _ _⟩

theorem b2Prim_ne_b3 (p : B2Prim) : p.prim ≠ .b3 := by cases p <;> decide

theorem mdPrim_ne_b3 (a : MdAlg) : a.prim ≠ .b3 := by cases a <;> decide

theorem b2xRead_prim (p : B2Prim) (xof : Bool) (m : B2XState p) (h0 : List Byte) (pos n : Nat) :
    ∀ t ∈ (b2xRead p xof m h0 pos n).txs, t.prim = p.prim :=
  readBlocks_txs _ (by simp) _ _ _

theorem b3Read_flags (d : RootD) (p n : Nat) : ∀ t ∈ (b3Read d p n).txs, t.flags = d.rflags :=
  readBlocks_txs _ (by simp) _ _ _

theorem squeeze_sendsRootFlags (z : Sealed) (a : SpongeAlg) (s : HashState .keccak) (xpos n : Nat) :
    SendsRootFlags z (spongeSqueeze a s xpos n).txs := fun t ht hb =>
  Prim.noConfusion ((squeezeLoop_prim a n s xpos n t ht).symm.trans hb)

/-- A reader operation: what it keeps, the flags it sends, the class state it does not touch. -/
structure ReaderStep (ceil : Nat) (ctl : Ctl) (z : Sealed) (r : Traced Reading) : Prop extends
    ReadKeeps ceil ctl z r where
  flags : SendsRootFlags z r.txs
  cls : KeepsUnlessSponge z r.val.z

theorem readSealed_step {ceil : Nat} {ctl : Ctl} {z : Sealed} {len : Nat} {r : Traced Reading}
    (h : readSealed ceil ctl z len = .ok r) : ReaderStep ceil ctl z r := by
  refine ⟨readSealed_keeps h, ?_, ?_⟩ <;>
    obtain ⟨a, m, rfl, rfl⟩ | ⟨a, m, d, rfl, -, rfl⟩ | ⟨p, m, h0, rfl, rfl⟩ :=
      readSealed_cases ceil ctl z len r h
  · exact squeeze_sendsRootFlags _ a _ _ _
  · exact fun t ht _ => ⟨a, m, d, rfl, b3Read_flags d _ _ t ht⟩
  · exact fun t ht hb => absurd ((b2xRead_prim p _ m h0 _ _ t ht).symm.trans hb) (b2Prim_ne_b3 p)
  · exact fun hs => absurd rfl (hs a m)
  · exact fun _ => rfl
  · exact fun _ => rfl

theorem seekSealed_step {ceil : Nat} {ctl : Ctl} {z : Sealed} {pos : Nat} {r : Traced Reading}
    (h : seekSealed ceil ctl z pos = .ok r) : ReaderStep ceil ctl z r := by
  refine ⟨seekSealed_keeps h, ?_, ?_⟩ <;>
    obtain ⟨a, m, rfl, -, rfl⟩ | ⟨a, m, d, rfl, -, rfl⟩ | ⟨p, m, h0, rfl, rfl⟩ :=
      seekSealed_cases ceil ctl z pos r h
  · exact squeeze_sendsRootFlags _ a _ _ _
  · exact fun t ht => by cases ht
  · exact fun t ht => by cases ht
  · exact fun hs => absurd rfl (hs a m)
  · exact fun _ => rfl
  · exact fun _ => rfl

/-- A seek and then a read keep what each of them keeps. -/
theorem ReaderStep.trans {ceil : Nat} {ctl : Ctl} {z : Sealed} {k q : Traced Reading}
    (hk : ReaderStep ceil ctl z k) (hq : ReaderStep ceil k.val.ctl k.val.z q) :
    ReaderStep ceil ctl z ⟨q.val, k.txs ++ q.txs⟩ where
  alg := hq.alg.trans hk.alg
  others := by
    have h := hq.others
    rw [hk.others] at h
    exact h
  legal hz := hq.legal (hk.legal hz)
  txs hz := List.forall_mem_append.mpr ⟨hk.txs hz, hq.txs (hk.legal hz)⟩
  flags := List.forall_mem_append.mpr ⟨hk.flags, fun t ht hb => by
    obtain ⟨a, m, d, hz, hf⟩ := hq.flags t ht hb
    have halg := hk.alg
    rw [hz] at halg
    have hkz := hk.cls fun a' m' e => by rw [e] at halg; cases halg
    exact ⟨a, m, d, hkz.symm.trans hz, hf⟩⟩
  cls hs := by
    have hkz := hk.cls hs
    have hqz := hq.cls
    rw [hkz] at hqz
    exact hqz hs

/-- What a command that succeeds on a sealed slot, and is no NEW, does: nothing but its answer, or a reading. -/
inductive SealedStep (ceil : Nat) (ctl : Ctl) (digest : List Byte) (z : Sealed) : Result → Prop where
  | same (payload : List Byte) : SealedStep ceil ctl digest z ⟨.sealed ctl digest z, payload, []⟩
  | reading (q : Traced Reading) (reader : ctl.xof = true) (step : ReaderStep ceil ctl z q) :
      SealedStep ceil ctl digest z (readingResult digest q)

/-- What a command that succeeds does, by the command and the slot it finds. -/
inductive CommandStep (ceil : Nat) : Instr → Slot → Result → Prop where
  | new (a : Alg) (c : BitVec 4) (xof : Bool) (dlen : BitVec 64) (key salt : List Byte) (v : Slot)
      (check : newCheck ceil a xof dlen.toNat key.length salt.length = .ok ()) :
      CommandStep ceil (.new a c xof dlen key salt) v
        ⟨.absorbing (create a xof dlen.toNat key salt).val.ctl (create a xof dlen.toNat key salt).val.h,
          [], (create a xof dlen.toNat key salt).txs⟩
  | absorb (c : BitVec 4) (data : List Byte) (ctl : Ctl) (h : Hasher) :
      CommandStep ceil (.absorb c data) (.absorbing ctl h)
        ⟨.absorbing { ctl with total := ctl.total + data.length } (absorbClass ctl.total h data).val, [],
          (absorbClass ctl.total h data).txs⟩
  | finalize (c : BitVec 4) (ctl : Ctl) (h : Hasher) :
      CommandStep ceil (.finalize c) (.absorbing ctl h)
        ⟨.sealed { ctl with xpos := 0 } (sealClass ctl h).val.digest (sealClass ctl h).val.z,
          finalPayload ctl.xof (sealClass ctl h).val.digest, (sealClass ctl h).txs⟩
  | onSealed {i : Instr} {r : Result} (notNew : i.newAlg = none) (ctl : Ctl) (digest : List Byte)
      (z : Sealed) (step : SealedStep ceil ctl digest z r) : CommandStep ceil i (.sealed ctl digest z) r

theorem slotCmd_ok {ceil : Nat} {i : Instr} {v : Slot} {r : Result} (h : slotCmd ceil i v = .ok r) :
    CommandStep ceil i v r := by
  obtain ⟨a, c, xof, dlen, key, salt, rfl⟩ | ⟨c, data, rfl⟩ | ⟨c, rfl⟩ | ⟨c, len, rfl⟩ | ⟨c, pos, rfl⟩ |
    ⟨c, pos, len, rfl⟩ := instr_cases i
  · rw [slotCmd_new] at h
    obtain ⟨e, -, hcmd⟩ | ⟨hcheck, hcmd⟩ := newCmd_cases ceil a xof dlen key salt v
    · cases hcmd.symm.trans h
    · cases hcmd.symm.trans h
      exact .new a c xof dlen key salt v hcheck
  · cases v with
    | absorbing ctl hs => cases h; exact .absorb c data ctl hs
    | free => cases h
    | sealed ctl digest z => cases h
  · cases v with
    | absorbing ctl hs => cases h; exact .finalize c ctl hs
    | free => cases h
    | sealed ctl digest z => cases h; exact .onSealed rfl ctl digest z (.same _)
  · obtain ⟨ctl, digest, z, rfl, hx, ⟨-, rfl⟩ | ⟨-, q, hq, rfl⟩⟩ := xofRead_ok h
    · exact .onSealed rfl ctl digest z (.same [])
    · exact .onSealed rfl ctl digest z (.reading q hx (readSealed_step hq))
  · obtain ⟨ctl, digest, z, rfl, hx, q, hq, rfl⟩ := xofSeek_ok h
    exact .onSealed rfl ctl digest z (.reading q hx (seekSealed_step hq))
  · obtain ⟨ctl, digest, z, rfl, hx, ⟨-, rfl⟩ | ⟨-, -, k, q, hk, hq, rfl⟩⟩ := xofReadAt_ok h
    · exact .onSealed rfl ctl digest z (.same [])
    · exact .onSealed rfl ctl digest z
        (.reading _ hx ((seekSealed_step hk).trans (readSealed_step hq)))

/-- A command either fails, with nothing but its response, or makes one of the steps of `CommandStep`. -/
theorem exec_step {i : Instr} {s t : State} (h : exec i s = .next t) :
    (∃ e, t = s.failed e) ∨
      ∃ r, CommandStep s.params.b3Ceil i (s.slot i.context) r ∧
        t = s.answered i.context r.slot r.txs r.payload := by
  obtain ⟨e, -, hexec⟩ | ⟨r, hcmd, hexec⟩ := exec_cases i s
  · exact .inl ⟨e, Host.Outcome.next.inj (h.symm.trans hexec)⟩
  · exact .inr ⟨r, slotCmd_ok hcmd, Host.Outcome.next.inj (h.symm.trans hexec)⟩

/-! ### The life cycle (10_state.md R22) -/

@[simp] theorem newAlg_new (a : Alg) (c : BitVec 4) (xof : Bool) (dlen : BitVec 64)
    (key salt : List Byte) : (Instr.new a c xof dlen key salt).newAlg = some a := by
  cases a with
  | md a => cases a <;> rfl
  | sponge a => cases a <;> rfl
  | b2 p => cases p <;> rfl
  | b2p p => cases p <;> rfl
  | b2x p => cases p <;> rfl
  | b3 a => cases a <;> rfl

theorem sealedStep_phase {ceil : Nat} {ctl : Ctl} {digest : List Byte} {z : Sealed} {r : Result}
    (h : SealedStep ceil ctl digest z r) : r.slot.phase = .sealed := by
  cases h <;> rfl

/-- The transitions of a command that succeeds (10_state.md R22). -/
theorem commandStep_phase {ceil : Nat} {i : Instr} {v : Slot} {r : Result}
    (h : CommandStep ceil i v r) :
    r.slot.phase = v.phase ∨ (i.newAlg.isSome = true ∧ r.slot.phase = .absorbing) ∨
      (i = .finalize i.context ∧ v.phase = .absorbing ∧ r.slot.phase = .sealed) := by
  cases h with
  | new => exact .inr (.inl ⟨by simp, rfl⟩)
  | absorb => exact .inl rfl
  | finalize => exact .inr (.inr ⟨rfl, rfl, rfl⟩)
  | onSealed hn ctl digest z hs => exact .inl (sealedStep_phase hs)

/-- Settles O10. -/
theorem phaseTransitions : Obligations.PhaseTransitions := by
  refine ⟨⟨rfl, rfl, rfl⟩, fun i s t c hexec => ?_⟩
  obtain ⟨e, rfl⟩ | ⟨r, hr, rfl⟩ := exec_step hexec
  · exact .inl rfl
  · by_cases hc : c = i.context
    · subst hc
      rw [slot_answered_self]
      have hrsp : ∃ payload, (s.answered i.context r.slot r.txs r.payload).rsp
          = s.rsp ++ responseFrame .ok payload := ⟨_, rfl⟩
      obtain h | ⟨hnew, h⟩ | ⟨hfin, hv, h⟩ := commandStep_phase hr
      · exact .inl h
      · cases hp : (s.slot i.context).phase with
        | free => exact .inr ⟨rfl, hrsp, .inl ⟨hnew, rfl, h⟩⟩
        | absorbing => exact .inl h
        | sealed => exact .inr ⟨rfl, hrsp, .inr (.inr ⟨hnew, rfl, h⟩)⟩
      · exact .inr ⟨rfl, hrsp, .inr (.inl ⟨hfin, hv, h⟩)⟩
    · rw [slot_answered, if_neg hc]
      exact .inl rfl

/-- Settles O13: a command that is no NEW leaves a sealed slot as it is or reads from it, and reads only a reader. -/
theorem sealedUntilNew : Obligations.SealedUntilNew := by
  intro i s t c ctl digest z hexec hslot hnotNew
  have hsame (h : t.slot c = s.slot c) : ∃ (x : Nat) (z' : Sealed),
      t.slot c = .sealed { ctl with xpos := x } digest z' ∧ z'.alg = z.alg ∧
        (ctl.xof = false → t.slot c = s.slot c) ∧ ((∀ a m, z ≠ .sponge a m) → z' = z) :=
    ⟨ctl.xpos, z, h.trans hslot, rfl, fun _ => h, fun _ => rfl⟩
  obtain ⟨e, rfl⟩ | ⟨r, hr, rfl⟩ := exec_step hexec
  · exact hsame rfl
  · by_cases hc : c = i.context
    · subst hc
      rw [hslot] at hr
      cases hr with
      | new => exact absurd ⟨rfl, by simp⟩ hnotNew
      | onSealed hn _ _ _ hs =>
        cases hs with
        | same => exact hsame (by rw [slot_answered_self, hslot])
        | reading q hx hq =>
          refine ⟨q.val.ctl.xpos, q.val.z, ?_, hq.alg, fun hf => ?_, hq.cls⟩
          · rw [slot_answered_self, readingResult, ← hq.others]
          · rw [hx] at hf; cases hf
    · exact hsame (by rw [slot_answered, if_neg hc])

/-! ### Reset -/

/-- Settles O14. -/
theorem resetState : Obligations.ResetState :=
  ⟨fun P => ⟨rfl, fun c => ⟨slot_resetOf P c, by rw [slot_resetOf]; rfl⟩, rfl, rfl, rfl⟩, rfl⟩

theorem resetOf_legal {P : Params} (h : P.legal = true) :
    (State.resetOf P).Legal ∧ (State.resetOf P).PortLegal :=
  ⟨⟨h, fun c => by rw [slot_resetOf]; rfl, fun c _ => slot_resetOf P c⟩, fun _ ht => by cases ht⟩

/-- Settles O15. -/
theorem resetLegal : Obligations.ResetLegal :=
  ⟨fun _ h => resetOf_legal h, resetOf_legal (by decide)⟩

/-! ### The invariants (10_state.md R27 to R42, 20_memory.md R69 to R75) -/

theorem slotLegal_absorbing (ceil : Nat) (ctl : Ctl) (h : Hasher) :
    (Slot.absorbing ctl h).legal ceil = true ↔
      ctl.legal ceil h.alg = true ∧ ctl.xpos = 0 ∧ h.legal ctl = true := by
  simp [Slot.legal, and_assoc]

theorem sealedStep_legal {ceil : Nat} {ctl : Ctl} {digest : List Byte} {z : Sealed} {r : Result}
    (h : SealedStep ceil ctl digest z r) (hl : (Slot.sealed ctl digest z).legal ceil = true) :
    r.slot.legal ceil = true ∧ ∀ t ∈ r.txs, txLegal t = true := by
  cases h with
  | same => exact ⟨hl, fun t ht => by cases ht⟩
  | reading q hx hq =>
    exact ⟨readingResult_legal hl hx hq.toReadKeeps, hq.txs ((slotLegal_sealed _ _ _ _).mp hl).2.1⟩

/-- A command that succeeds leaves its slot legal and issues legal transactions. -/
theorem commandStep_legal {ceil : Nat} {i : Instr} {v : Slot} {r : Result} (h : CommandStep ceil i v r)
    (hl : v.legal ceil = true) : r.slot.legal ceil = true ∧ ∀ t ∈ r.txs, txLegal t = true := by
  cases h with
  | new a c xof dlen key salt _ hcheck =>
    obtain ⟨halg, hctl, hxpos, hh⟩ := create_legal ceil a xof dlen.toNat key salt hcheck
    exact ⟨(slotLegal_absorbing ..).mpr ⟨by rw [halg]; exact hctl, hxpos, hh⟩, create_txs a xof _ key salt⟩
  | absorb c data ctl hs =>
    obtain ⟨hctl, hxpos, hh⟩ := (slotLegal_absorbing ..).mp hl
    exact ⟨(slotLegal_absorbing ..).mpr
      ⟨by rw [absorbClass_alg]; exact hctl, hxpos, absorbClass_legal ctl hs data hh⟩,
      absorbClass_txs ctl hs data hh⟩
  | finalize c ctl hs =>
    obtain ⟨hctl, hxpos, hh⟩ := (slotLegal_absorbing ..).mp hl
    refine ⟨(slotLegal_sealed ..).mpr
      ⟨by rw [sealClass_alg]; exact hctl, sealClass_legal ceil ctl hs hh, ?_⟩, sealClass_txs ctl hs hh⟩
    cases hx : ctl.xof with
    | true => exact .inl rfl
    | false => exact .inr ⟨sealClass_digest_length ctl hs hctl hh hx, rfl⟩
  | onSealed hn ctl digest z hs => exact sealedStep_legal hs hl

/-- A command on a slot that exists keeps the invariants. -/
theorem exec_keeps_legal {i : Instr} {s t : State} (hs : s.Legal)
    (hc : i.context.toNat < s.params.nctx) (h : exec i s = .next t) : t.Legal ∧ t.params = s.params := by
  obtain ⟨e, rfl⟩ | ⟨r, hr, rfl⟩ := exec_step h
  · exact ⟨⟨hs.params, hs.slots, hs.absent⟩, rfl⟩
  · refine ⟨⟨hs.params, fun c => ?_, fun c habs => ?_⟩, rfl⟩
    · rw [slot_answered]
      split
      · exact (commandStep_legal hr (hs.slots _)).1
      · exact hs.slots c
    · rw [answered_params] at habs
      rw [slot_answered, if_neg (by rintro rfl; omega)]
      exact hs.absent c habs

/-- Settles O16: a frame that is a command names a slot that exists, so the only slot that changes is one of the
instance's; an illegal frame and an incomplete one change no slot. -/
theorem stepKeepsLegal : Obligations.StepKeepsLegal := by
  intro s t hs hstep
  obtain ⟨i, rest, hd, hexec⟩ | ⟨why, rest, -, rfl⟩ | rfl := step_cases hstep
  · have hwf := (acceptedFrameIsEncoding _ _ _ _ hd).1
    exact exec_keeps_legal (s := { s with cmd := rest }) ⟨hs.params, hs.slots, hs.absent⟩
      ((wellFormed_iff _ i).mp hwf).1 hexec
  · exact ⟨⟨hs.params, hs.slots, hs.absent⟩, rfl⟩
  · exact ⟨hs, rfl⟩

/-- Settles O17. -/
theorem stepKeepsPortLegal : Obligations.StepKeepsPortLegal := by
  intro s t hs hport hstep
  obtain ⟨i, rest, hd, hexec⟩ | ⟨why, rest, -, rfl⟩ | rfl := step_cases hstep
  · obtain ⟨e, rfl⟩ | ⟨r, hr, rfl⟩ := exec_step hexec
    · exact hport
    · exact List.forall_mem_append.mpr ⟨hport, (commandStep_legal hr (hs.slots _)).2⟩
  · exact hport
  · exact hport

end Sys2Proof.Machine
end

section
/-! PROOFS. How ABSORB, FINALIZE and the reader commands answer (41_incremental_hasher.md R130, R132; 44_xof_adapter.md
R242), and who sends the flag of derive-key's first stage (45_keying_construction.md R294). -/

namespace Sys2Proof.Machine

/-- A command that writes back what it found and issues nothing leaves its response alone. -/
theorem answered_unchanged (s : State) (c : BitVec 4) (payload : List Byte) :
    s.answered c (s.slot c) [] payload = { s with rsp := s.rsp ++ responseFrame .ok payload } := by
  rw [answered_eq_affect, State.affect, setSlot_slot, List.append_nil]

/-! ### ABSORB -/

section
variable {s : State} {c : BitVec 4} {ctl : Ctl} {h : Hasher}

theorem exec_absorb (data : List Byte) (hs : s.slot c = .absorbing ctl h) :
    exec (.absorb c data) s = .next (s.answered c
      (.absorbing { ctl with total := ctl.total + data.length } (absorbClass ctl.total h data).val)
      (absorbClass ctl.total h data).txs []) :=
  runOn_ok (r := ⟨_, _, _⟩) (by rw [hs]; rfl)

theorem exec_finalize (hs : s.slot c = .absorbing ctl h) :
    exec (.finalize c) s = .next (s.answered c
      (.sealed { ctl with xpos := 0 } (sealClass ctl h).val.digest (sealClass ctl h).val.z)
      (sealClass ctl h).txs (finalPayload ctl.xof (sealClass ctl h).val.digest)) :=
  runOn_ok (r := ⟨_, _, _⟩) (by rw [hs]; rfl)

end

/-- A tail shorter than a block waits for more bytes; no bytes bring none. -/
theorem absorbClass_nil {ctl : Ctl} {h : Hasher} (hl : h.legal ctl = true) (total : Nat) :
    absorbClass total h [] = .pure h := by
  have hb2 {p : B2Prim} {m : B2Inst p} {n : Nat} (hm : m.legalSeq n = true) :
      b2Absorb p m [] = .pure m := by
    rw [b2LegalSeq_iff] at hm
    rw [b2Absorb, List.append_nil, absorbLazy_nil _ (legal_tail_le hm.1) (b2Block_pos p)]
    rfl
  cases h with
  | md a m =>
    have ht : m.tail.length < mdBlock a := of_decide_eq_true hl ▸ Nat.mod_lt _ (mdBlock_pos a)
    rw [absorbClass, mdAbsorb, List.append_nil, absorbEager_nil _ ht]
    rfl
  | sponge a m =>
    have ht : m.tail.length < rate a := of_decide_eq_true hl ▸ Nat.mod_lt _ (rate_pos a)
    rw [absorbClass, spongeAbsorb, List.append_nil, absorbEager_nil _ ht]
    rfl
  | b2 p m => rw [absorbClass, hb2 hl]; rfl
  | b2p p m => rfl
  | b2x p m => rw [absorbClass, hb2 (Bool.and_eq_true_iff.mp hl).1]; rfl
  | b3 a m => rfl

/-- Settles O26. -/
theorem absorbAnswers : Obligations.AbsorbAnswers := by
  intro c data s
  refine ⟨fun ctl h hs => exec_absorb data hs, fun hp => ?_, fun hl hp => ?_⟩
  · refine runOn_error ?_
    cases hs : s.slot c with
    | absorbing ctl h => rw [hs] at hp; exact absurd rfl hp
    | free => rfl
    | sealed ctl digest z => rfl
  · cases hs : s.slot c with
    | absorbing ctl h =>
      obtain ⟨-, -, hh⟩ := (slotLegal_absorbing _ ctl h).mp (hs ▸ hl.slots c)
      rw [exec_absorb [] hs, absorbClass_nil hh]
      exact congrArg Host.Outcome.next (hs ▸ answered_unchanged s c [])
    | free => rw [hs] at hp; cases hp
    | sealed ctl digest z => rw [hs] at hp; cases hp

/-! ### FINALIZE -/

/-- Settles O34. -/
theorem finalizeAnswers : Obligations.FinalizeAnswers := by
  intro c s
  refine ⟨fun hs => runOn_error (by rw [hs]; rfl), fun ctl digest z hs => ?_, fun ctl h hs => exec_finalize hs⟩
  have hexec : exec (.finalize c) s = .next (s.answered c (.sealed ctl digest z) []
      (finalPayload ctl.xof digest)) := runOn_ok (r := ⟨_, _, _⟩) (by rw [hs]; rfl)
  rw [hexec, ← hs, answered_unchanged]
  rfl

/-! ### The reader check -/

theorem readerCmd_of_noReader {v : Slot} (h : ∀ ctl digest z, v = .sealed ctl digest z → ctl.xof = false)
    (f : Ctl → List Byte → Sealed → Except Status Result) : readerCmd f v = .error .sequenceError := by
  obtain hc | ⟨ctl, digest, z, hv, hx, -⟩ := readerCmd_cases f v
  · exact hc
  · cases (h ctl digest z hv).symm.trans hx

theorem readerCmd_of_reader {ctl : Ctl} (hx : ctl.xof = true) (digest : List Byte) (z : Sealed)
    (f : Ctl → List Byte → Sealed → Except Status Result) :
    readerCmd f (.sealed ctl digest z) = f ctl digest z := if_pos hx

theorem exec_emptyReading {c : BitVec 4} {s : State} {ctl : Ctl} {digest : List Byte} {z : Sealed}
    {f : Ctl → List Byte → Sealed → Except Status Result} (hs : s.slot c = .sealed ctl digest z)
    (hx : ctl.xof = true) (hf : f ctl digest z = .ok (emptyReading ctl digest z)) :
    runOn c (readerCmd f) s = .next { s with rsp := s.rsp ++ responseFrame .ok [] } := by
  rw [runOn_ok (r := emptyReading ctl digest z) (by rw [hs, readerCmd_of_reader hx, hf]),
    ← answered_unchanged s c, hs]
  rfl

/-- Settles O50. -/
theorem readerCheck : Obligations.ReaderCheck := by
  intro c pos len s
  refine ⟨fun h => ⟨?_, ?_, ?_⟩, fun ctl digest z hs hx => ⟨?_, ?_⟩⟩
  · exact runOn_error (readerCmd_of_noReader h _)
  · exact runOn_error (readerCmd_of_noReader h _)
  · exact runOn_error (readerCmd_of_noReader h _)
  · exact exec_emptyReading hs hx rfl
  · exact exec_emptyReading hs hx rfl

/-! ### The mode flag of a transaction (10_state.md R33) -/

/-- `f` carries the mode flag `base` and no other. -/
def HasMode (base f : BitVec 7) : Prop := f &&& 0x70 = base

theorem hasMode_base {base : BitVec 7} (hb : base ∈ modeFlags) : HasMode base base := by
  simp only [modeFlags, List.mem_cons, List.not_mem_nil, or_false] at hb
  rcases hb with rfl | rfl | rfl | rfl <;> rfl

/-- Node bits are no mode flags. -/
theorem HasMode.or {base f k : BitVec 7} (hf : HasMode base f) (hk : k &&& 0x70 = 0) :
    HasMode base (f ||| k) := by
  have h : (f ||| k) &&& 0x70 = f &&& 0x70 := by rw [BitVec.and_or_distrib_right, hk]; simp
  exact h.trans hf

theorem startFlag_noMode (blocks : Nat) : startFlag blocks &&& 0x70 = 0 := by
  unfold startFlag
  split <;> decide

/-- The flags a node of a tree with mode `base` can send all have property `Q`. -/
structure NodeFlags (base : BitVec 7) (Q : BitVec 7 → Prop) : Prop where
  mid : ∀ b, Q (base ||| startFlag b)
  last : ∀ b, Q (base ||| startFlag b ||| CHUNK_END)
  parent : Q (parentFlags base)

theorem nodeFlags_hasMode {base : BitVec 7} (hb : base ∈ modeFlags) : NodeFlags base (HasMode base) where
  mid b := (hasMode_base hb).or (startFlag_noMode b)
  last b := ((hasMode_base hb).or (startFlag_noMode b)).or (by decide)
  parent := (hasMode_base hb).or (by decide)

/-- Every transaction is one of primitive `B3` with flags that have `Q`. -/
def SendsB3 {α : Type} (Q : BitVec 7 → Prop) (x : Traced α) : Prop :=
  ∀ t ∈ x.txs, t.prim = .b3 ∧ Q t.flags

section
variable {Q : BitVec 7 → Prop}

@[simp] theorem sendsB3_pure {α : Type} (a : α) : SendsB3 Q (Traced.pure a) := by
  simp [SendsB3]

@[simp] theorem sendsB3_map {α β : Type} (f : α → β) (x : Traced α) :
    SendsB3 Q (x.map f) ↔ SendsB3 Q x := Iff.rfl

@[simp] theorem sendsB3_bind {α β : Type} (x : Traced α) (f : α → Traced β) :
    SendsB3 Q (x.bind f) ↔ SendsB3 Q x ∧ SendsB3 Q (f x.val) :=
  List.forall_mem_append

@[simp] theorem sendsB3_compressCv (cv : ChainVal) (blk : List Byte) (ctr bl : Nat) (f : BitVec 7) :
    SendsB3 Q (compressCv cv blk ctr bl f) ↔ Q f := by
  simp [SendsB3]

theorem mergeLoop_sendsB3 {base : BitVec 7} (hQ : NodeFlags base Q) (keyw : ChainVal)
    (fuel count : Nat) (stack : List ChainVal) : SendsB3 Q (mergeLoop keyw base fuel count stack) := by
  induction fuel generalizing count stack with
  | zero => exact sendsB3_pure stack
  | succ fuel ih =>
    by_cases he : count % 2 = 0
    · match stack with
      | right :: left :: below =>
        rw [mergeLoop_even _ _ _ he, sendsB3_bind]
        exact ⟨(sendsB3_compressCv ..).mpr hQ.parent, ih _ _⟩
      | [] | [_] => simp [mergeLoop_short]
    · simp [mergeLoop_odd _ _ _ _ he]

theorem finalMerges_sendsB3 {base : BitVec 7} (hQ : NodeFlags base Q) (keyw left : ChainVal)
    (older : List ChainVal) (cv : ChainVal) : SendsB3 Q (finalMerges keyw base left older cv) := by
  induction older generalizing left cv with
  | nil => exact sendsB3_pure _
  | cons o rest ih =>
    exact (sendsB3_bind ..).mpr ⟨(sendsB3_compressCv ..).mpr hQ.parent, ih _ _⟩

theorem b3MakeRoom_sendsB3 {m : B3State} (hQ : NodeFlags m.base Q) : SendsB3 Q (b3MakeRoom m) := by
  unfold b3MakeRoom b3Flush
  split
  · split
    · rw [sendsB3_bind, sendsB3_compressCv, sendsB3_map]
      exact ⟨hQ.last _, mergeLoop_sendsB3 hQ _ _ _ _⟩
    · rw [sendsB3_map, sendsB3_compressCv]
      exact hQ.mid _
  · exact sendsB3_pure m

theorem b3Absorb_sendsB3 {m : B3State} (hQ : NodeFlags m.base Q) (data : List Byte) :
    SendsB3 Q (b3Absorb m data) := by
  unfold b3Absorb
  generalize data.length = fuel
  induction fuel generalizing m data with
  | zero => exact sendsB3_pure m
  | succ fuel ih =>
    by_cases hd : data = []
    · rw [hd, b3AbsorbLoop_nil]
      exact sendsB3_pure m
    · rw [b3AbsorbLoop_round fuel m hd, sendsB3_bind]
      exact ⟨b3MakeRoom_sendsB3 hQ, ih (by rwa [b3Take_base, b3MakeRoom_base]) _⟩

theorem b3Root_sendsB3 {m : B3State} (hQ : NodeFlags m.base Q) : SendsB3 Q (b3Root m) := by
  unfold b3Root
  cases m.stack with
  | nil => exact sendsB3_pure _
  | cons left older =>
    rw [sendsB3_bind, sendsB3_compressCv]
    exact ⟨hQ.last _, finalMerges_sendsB3 hQ _ _ _ _⟩

end

theorem rootD_hasMode {d : RootD} {base : BitVec 7} (hb : base ∈ modeFlags) (hd : d.legal base = true) :
    HasMode base d.rflags := by
  have hbase := hasMode_base hb
  simp only [RootD.legal, Bool.and_eq_true, Bool.or_eq_true, beq_iff_eq] at hd
  obtain ⟨-, (h | h) | ⟨h, -⟩⟩ := hd <;> rw [h]
  · exact ((hbase.or (by decide)).or (by decide)).or (by decide)
  · exact (hbase.or (by decide)).or (by decide)
  · exact (hbase.or (by decide)).or (by decide)

/-! ### Derive-key's first stage -/

theorem deriveStage1_sends (context : List Byte) :
    SendsB3 (HasMode DERIVE_KEY_CONTEXT) (deriveStage1 context) := by
  have hb : DERIVE_KEY_CONTEXT ∈ modeFlags := by decide
  obtain ⟨hinv, -, -, hbase, -⟩ :=
    b3Absorb_spec (b3Fresh Config.ivB3 DERIVE_KEY_CONTEXT) context (b3Fresh_inv _ _)
  unfold deriveStage1
  rw [sendsB3_bind, sendsB3_bind, sendsB3_map]
  generalize (b3Absorb (b3Fresh Config.ivB3 DERIVE_KEY_CONTEXT) context).val = e at hinv hbase
  have hnode : NodeFlags e.base (HasMode DERIVE_KEY_CONTEXT) := hbase ▸ nodeFlags_hasMode hb
  refine ⟨b3Absorb_sendsB3 (nodeFlags_hasMode hb) context, b3Root_sendsB3 hnode, ?_⟩
  have hroot := rootD_hasMode hb (hbase ▸ b3Root_legal e hinv.tail)
  simpa [SendsB3] using hroot

/-! ### The other commands -/

/-- No `B3` transaction carries `DERIVE_KEY_CONTEXT`. -/
def NoContextFlag (txs : List Tx) : Prop := ∀ t ∈ txs, t.prim = .b3 → t.flags &&& 0x20 = 0

theorem noContextFlag_of_prim {txs : List Tx} {P : Prim} (hP : P ≠ .b3) (h : ∀ t ∈ txs, t.prim = P) :
    NoContextFlag txs := fun t ht hb => absurd ((h t ht).symm.trans hb) hP

theorem noContextFlag_append {xs ys : List Tx} (hx : NoContextFlag xs) (hy : NoContextFlag ys) :
    NoContextFlag (xs ++ ys) := List.forall_mem_append.mpr ⟨hx, hy⟩

theorem noContextFlag_nil : NoContextFlag [] := fun _ h => by cases h

theorem HasMode.noContext {a : B3Alg} {base f : BitVec 7} (hb : baseLegal a base = true)
    (hf : HasMode base f) : f &&& 0x20 = 0 := by
  have hbase : base &&& 0x20 = 0 := by
    cases a <;> simp only [baseLegal, Bool.or_eq_true, beq_iff_eq] at hb
    · rcases hb with rfl | rfl <;> decide
    · subst hb; decide
  rw [← hf, BitVec.and_assoc] at hbase
  exact hbase

theorem noContextFlag_of_sends {α : Type} {a : B3Alg} {base : BitVec 7} {x : Traced α}
    (hb : baseLegal a base = true) (h : SendsB3 (HasMode base) x) : NoContextFlag x.txs :=
  fun t ht _ => (h t ht).2.noContext hb

theorem absorbBlocks_prim {σ : Type} (B : Nat) (f : σ → List Byte → Traced σ) (P : Prim)
    (hf : ∀ h blk, ∀ t ∈ (f h blk).txs, t.prim = P) (n : Nat) (h : σ) (d : List Byte) :
    ∀ t ∈ (absorbBlocks B f n h d).txs, t.prim = P := by
  induction n generalizing h d with
  | zero => simp [absorbBlocks]
  | succ n ih =>
    simp only [absorbBlocks, bind_txs, List.forall_mem_append]
    exact ⟨hf _ _, ih _ _⟩

theorem b2Absorb_prim (p : B2Prim) (m : B2Inst p) (data : List Byte) :
    ∀ t ∈ (b2Absorb p m data).txs, t.prim = p.prim :=
  absorbBlocks_prim _ _ _ (by simp) _ _ _

theorem b2Finalize_prim (p : B2Prim) (m : B2Inst p) (n : Nat) :
    ∀ t ∈ (b2Finalize p m n).txs, t.prim = p.prim := by simp

theorem b2pAbsorbLoop_prim (p : B2Prim) (fuel total : Nat) (leaf : Vector (B2Inst p) p.nleaf)
    (data : List Byte) : ∀ t ∈ (b2pAbsorbLoop p fuel total leaf data).txs, t.prim = p.prim := by
  induction fuel generalizing total leaf data with
  | zero => simp [b2pAbsorbLoop]
  | succ fuel ih =>
    by_cases hd : data = []
    · subst hd; simp [b2pAbsorbLoop_nil]
    · rw [b2pAbsorbLoop_round _ _ _ _ hd, bind_txs]
      exact List.forall_mem_append.mpr ⟨b2Absorb_prim p _ _, ih _ _ _⟩

theorem feedRoot_prim (p : B2Prim) (k : Nat) (root : B2Inst p) (prev d : List Byte) :
    ∀ t ∈ (feedRoot p k root prev d).txs, t.prim = p.prim := by
  unfold feedRoot
  split
  · exact b2Absorb_prim p _ _
  · simp

theorem b2pSealLoop_prim (p : B2Prim) (left k : Nat) (leaf : Vector (B2Inst p) p.nleaf)
    (prev : List Byte) (root : B2Inst p) :
    ∀ t ∈ (b2pSealLoop p left k leaf prev root).txs, t.prim = p.prim := by
  induction left generalizing k leaf prev root with
  | zero => simp [b2pSealLoop]
  | succ left ih =>
    rw [b2pSealLoop]
    split
    · simp only [bind_txs, List.forall_mem_append]
      exact ⟨b2Finalize_prim p _ _, feedRoot_prim p _ _ _ _, ih _ _ _ _⟩
    · simp

theorem absorbClass_noContext {ctl : Ctl} {h : Hasher} (hl : h.legal ctl = true) (total : Nat)
    (data : List Byte) : NoContextFlag (absorbClass total h data).txs := by
  cases h with
  | md a m => exact noContextFlag_of_prim (mdPrim_ne_b3 a) (absorbBlocks_prim _ _ _ (by simp) _ _ _)
  | sponge a m =>
    exact noContextFlag_of_prim (P := .keccak) (by decide) (absorbBlocks_prim _ _ _ (by simp) _ _ _)
  | b2 p m => exact noContextFlag_of_prim (b2Prim_ne_b3 p) (b2Absorb_prim p m data)
  | b2p p m => exact noContextFlag_of_prim (b2Prim_ne_b3 p) (b2pAbsorbLoop_prim p _ _ _ _)
  | b2x p m => exact noContextFlag_of_prim (b2Prim_ne_b3 p) (b2Absorb_prim p m.inst data)
  | b3 a m =>
    obtain ⟨-, -, -, hb⟩ := (b3Legal_iff m a ctl.total).mp hl
    exact noContextFlag_of_sends hb (b3Absorb_sendsB3 (nodeFlags_hasMode (baseLegal_mode hb)) data)

theorem sealClass_noContext {ctl : Ctl} {h : Hasher} (hl : h.legal ctl = true) :
    NoContextFlag (sealClass ctl h).txs := by
  cases h with
  | md a m => exact noContextFlag_of_prim (mdPrim_ne_b3 a) (absorbBlocks_prim _ _ _ (by simp) _ _ _)
  | sponge a m =>
    refine noContextFlag_of_prim (P := .keccak) (by decide) ?_
    simp only [sealClass, sealSponge, bind_txs, List.forall_mem_append]
    refine ⟨by simp [spongeFinalize], ?_⟩
    split
    · simp
    · exact squeezeLoop_prim a _ _ _ _
  | b2 p m => exact noContextFlag_of_prim (b2Prim_ne_b3 p) (b2Finalize_prim p m ctl.dlen)
  | b2p p m =>
    exact noContextFlag_of_prim (b2Prim_ne_b3 p)
      (List.forall_mem_append.mpr ⟨b2pSealLoop_prim p _ _ _ _ _, b2Finalize_prim p _ ctl.dlen⟩)
  | b2x p m =>
    refine noContextFlag_of_prim (b2Prim_ne_b3 p)
      (List.forall_mem_append.mpr ⟨b2Finalize_prim p m.inst _, ?_⟩)
    rw [map_txs, digestUnless]
    split
    · simp
    · exact b2xRead_prim p _ _ _ _ _
  | b3 a m =>
    obtain ⟨hinv, -, -, hb⟩ := (b3Legal_iff m a ctl.total).mp hl
    have hmode := baseLegal_mode hb
    refine noContextFlag_append (noContextFlag_of_sends hb (b3Root_sendsB3 (nodeFlags_hasMode hmode))) ?_
    rw [map_txs, digestUnless]
    split
    · exact noContextFlag_nil
    · intro t ht _
      rw [b3Read_flags _ _ _ t ht]
      exact (rootD_hasMode hmode (b3Root_legal m hinv.tail)).noContext hb

theorem sealedStep_noContext {ceil : Nat} {ctl : Ctl} {digest : List Byte} {z : Sealed} {r : Result}
    (h : SealedStep ceil ctl digest z r) (hl : z.legal ceil ctl = true) : NoContextFlag r.txs := by
  cases h with
  | same => exact noContextFlag_nil
  | reading q hx hq =>
    intro t ht hb
    obtain ⟨a, m, d, rfl, hf⟩ := hq.flags t ht hb
    obtain ⟨hbase, hd, -⟩ := (sealedLegal_b3 ceil ctl a m d).mp hl
    rw [hf]
    exact (rootD_hasMode (baseLegal_mode hbase) hd).noContext hbase

theorem create_noContext {a : Alg} (ha : a ≠ .b3 .deriveKey) (xof : Bool) (dlen : Nat)
    (key salt : List Byte) : NoContextFlag (create a xof dlen key salt).txs := by
  cases a with
  | b3 a =>
    cases a with
    | blake3 => exact noContextFlag_nil
    | deriveKey => exact absurd rfl ha
  | _ => exact noContextFlag_nil

theorem commandStep_noContext {ceil : Nat} {i : Instr} {v : Slot} {r : Result}
    (h : CommandStep ceil i v r) (hl : v.legal ceil = true) (hi : i.newAlg ≠ some (.b3 .deriveKey)) :
    NoContextFlag r.txs := by
  cases h with
  | new a c xof dlen key salt =>
    exact create_noContext (fun e => hi (by rw [newAlg_new, e])) xof _ key salt
  | absorb c data ctl hs => exact absorbClass_noContext ((slotLegal_absorbing ..).mp hl).2.2 _ data
  | finalize c ctl hs => exact sealClass_noContext ((slotLegal_absorbing ..).mp hl).2.2
  | onSealed hn ctl digest z hs => exact sealedStep_noContext hs ((slotLegal_sealed ..).mp hl).2.1

/-- Settles O60: stage 1 runs on an engine with the mode `DERIVE_KEY_CONTEXT`; the mode of every engine in a legal slot
is another. -/
theorem contextFlagOnlyInNew : Obligations.ContextFlagOnlyInNew := by
  refine ⟨fun c xof dlen context salt s t hexec => ?_, fun i s t hs hi hexec => ?_⟩
  · cases hc : newCheck s.params.b3Ceil (.b3 .deriveKey) xof dlen.toNat context.length salt.length with
    | error e =>
      obtain rfl := Host.Outcome.next.inj (hexec.symm.trans (exec_new_of_error (a := .b3 .deriveKey) hc))
      simp
    | ok u =>
      obtain rfl := Host.Outcome.next.inj (hexec.symm.trans (exec_new_of_ok (a := .b3 .deriveKey) hc))
      rw [answered_cport, List.drop_left]
      exact deriveStage1_sends context
  · obtain ⟨e, rfl⟩ | ⟨r, hr, rfl⟩ := exec_step hexec
    · simp
    · rw [answered_cport, List.drop_left]
      exact commandStep_noContext hr (hs.slots _) hi

end Sys2Proof.Machine
end

section
/-! PROOFS. NEW of the other classes (45_keying_construction.md R286 to R295): which operands pass, and what is created;
and the BLAKE2 parameter block (R288). -/

namespace Sys2Proof.Machine

/-! ### The two outcomes by the operands, for every algorithm -/

section
variable {a : Alg} {c : BitVec 4} {xof : Bool} {dlen : BitVec 64} {key salt : List Byte} {s : State}

theorem exec_new_invalid (h : ¬NewOperandsValid a xof dlen.toNat key.length salt.length) :
    exec (.new a c xof dlen key salt) s = .next (s.failed .invalidParameter) :=
  exec_new_of_error (newCheck_of_invalid h)

theorem exec_new_unsupported (h : NewOperandsValid a xof dlen.toNat key.length salt.length)
    (hx : xof = false) (hu : dlenUnsupported s.params.b3Ceil a dlen.toNat = true) :
    exec (.new a c xof dlen key salt) s = .next (s.failed .unsupportedLength) :=
  exec_new_of_error (by rw [newCheck_of_valid h, if_pos (by rw [hx, hu]; rfl)])

theorem exec_new_valid (h : NewOperandsValid a xof dlen.toNat key.length salt.length)
    (hu : xof = true ∨ dlenUnsupported s.params.b3Ceil a dlen.toNat = false) :
    exec (.new a c xof dlen key salt) s =
      .next (s.answered c
        (.absorbing (create a xof dlen.toNat key salt).val.ctl (create a xof dlen.toNat key salt).val.h)
        (create a xof dlen.toNat key salt).txs []) := by
  have hpass : ¬(!xof && dlenUnsupported s.params.b3Ceil a dlen.toNat) = true := by
    rcases hu with hu | hu <;> simp [hu]
  exact exec_new_of_ok (by rw [newCheck_of_valid h, if_neg hpass])

end

/-! ### Class MD -/

theorem newOperandsValid_md_iff {a : MdAlg} {xof : Bool} {dlen : Nat} {key salt : List Byte} :
    NewOperandsValid (.md a) xof dlen key.length salt.length ↔
      key = [] ∧ salt = [] ∧ xof = false ∧ (dlen = 0 ∨ dlen = mdDlen a) := by
  have hlen : lengthRequestValid (.md a) xof dlen = true ↔ xof = false ∧ (dlen = 0 ∨ dlen = mdDlen a) := by
    cases xof <;> simp [lengthRequestValid, hasXof, dlenValid]
  have hkey : keyFits (.md a) key.length = true ↔ key = [] := by simp [keyFits, keyMax]
  have hsalt : salt.length ≤ saltMax (.md a) ↔ salt = [] := by simp [saltMax]
  rw [NewOperandsValid, hlen, hkey, hsalt]
  exact ⟨fun ⟨⟨hx, hd⟩, hk, hs⟩ => ⟨hk, hs, hx, hd⟩, fun ⟨hk, hs, hx, hd⟩ => ⟨⟨hx, hd⟩, hk, hs⟩⟩

/-- Settles O18. -/
theorem newMd : Obligations.NewMd := by
  intro a c xof dlen key salt s native
  have hnative : native = mdDlen a := by cases a <;> rfl
  rw [hnative, ← newOperandsValid_md_iff]
  refine ⟨fun h => ⟨Config.unusedWords a, ?_⟩, exec_new_invalid⟩
  obtain ⟨-, -, rfl, hd⟩ := newOperandsValid_md_iff.mp h
  have hdlen : dlenOr (mdDlen a) dlen.toNat = mdDlen a := by unfold dlenOr; split <;> omega
  rw [exec_new_valid h (.inr rfl), create, pure_val, createMd, hdlen]
  rfl

/-! ### Class SPONGE -/

theorem isShake_iff (a : SpongeAlg) : isShake a = true ↔ a = .shake128 ∨ a = .shake256 := by
  cases a <;> decide

theorem newOperandsValid_sponge_iff {a : SpongeAlg} {xof : Bool} {dlen : Nat} {key salt : List Byte} :
    NewOperandsValid (.sponge a) xof dlen key.length salt.length ↔
      key = [] ∧ salt = [] ∧
        ((xof = true ∧ (a = .shake128 ∨ a = .shake256) ∧ dlen = 0) ∨
          (xof = false ∧ (a = .shake128 ∨ a = .shake256 ∨ dlen = 0 ∨ dlen = spongeDlen a))) := by
  have hlen : lengthRequestValid (.sponge a) xof dlen = true ↔
      (xof = true ∧ (a = .shake128 ∨ a = .shake256) ∧ dlen = 0) ∨
        (xof = false ∧ (a = .shake128 ∨ a = .shake256 ∨ dlen = 0 ∨ dlen = spongeDlen a)) := by
    cases xof <;> simp [lengthRequestValid, hasXof, dlenValid, isShake_iff, or_assoc]
  have hkey : keyFits (.sponge a) key.length = true ↔ key = [] := by simp [keyFits, keyMax]
  have hsalt : salt.length ≤ saltMax (.sponge a) ↔ salt = [] := by simp [saltMax]
  rw [NewOperandsValid, hlen, hkey, hsalt]
  exact ⟨fun ⟨hd, hk, hs⟩ => ⟨hk, hs, hd⟩, fun ⟨hk, hs, hd⟩ => ⟨hd, hk, hs⟩⟩

/-- Settles O19. -/
theorem newSponge : Obligations.NewSponge := by
  intro a c xof dlen key salt s native
  have hnative : native = spongeDlen a := by cases a <;> rfl
  rw [hnative, ← newOperandsValid_sponge_iff]
  exact ⟨fun h => ⟨dlenOr (spongeDlen a) dlen.toNat, fun _ => rfl, exec_new_valid h (.inr rfl)⟩,
    exec_new_invalid⟩

/-! ### Classes B2 and B2P -/

/-- The operands of a BLAKE2 digest (45_keying_construction.md R284, R285). -/
theorem newOperandsValid_b2_iff {p : B2Prim} {xof : Bool} {dlen klen slen : Nat} :
    NewOperandsValid (.b2 p) xof dlen klen slen ↔
      klen ≤ b2Out p ∧ slen ≤ b2Out p / 2 ∧ xof = false ∧ dlen ≤ b2Out p := by
  have hlen : lengthRequestValid (.b2 p) xof dlen = true ↔ xof = false ∧ dlen ≤ b2Out p := by
    cases xof <;> simp [lengthRequestValid, hasXof, dlenValid]
  have hkey : keyFits (.b2 p) klen = true ↔ klen ≤ b2Out p := decide_eq_true_iff
  rw [NewOperandsValid, hlen, hkey]
  exact ⟨fun ⟨⟨hx, hd⟩, hk, hs⟩ => ⟨hk, hs, hx, hd⟩, fun ⟨hk, hs, hx, hd⟩ => ⟨⟨hx, hd⟩, hk, hs⟩⟩

/-- The checks of a combiner are those of the sequential hash. -/
theorem newOperandsValid_b2p_iff {p : B2Prim} {xof : Bool} {dlen klen slen : Nat} :
    NewOperandsValid (.b2p p) xof dlen klen slen ↔
      klen ≤ b2Out p ∧ slen ≤ b2Out p / 2 ∧ xof = false ∧ dlen ≤ b2Out p :=
  newOperandsValid_b2_iff

/-- Settles O20. -/
theorem newB2 : Obligations.NewB2 := by
  intro p c xof dlen key salt s
  rw [← newOperandsValid_b2_iff]
  refine ⟨fun h => ?_, exec_new_invalid⟩
  obtain ⟨-, -, rfl, -⟩ := newOperandsValid_b2_iff.mp h
  exact exec_new_valid h (.inr rfl)

/-- Settles O21. -/
theorem newB2p : Obligations.NewB2p := by
  intro p c xof dlen key salt s
  rw [← newOperandsValid_b2p_iff]
  refine ⟨fun h => ?_, exec_new_invalid⟩
  obtain ⟨-, -, rfl, -⟩ := newOperandsValid_b2p_iff.mp h
  refine ⟨_, _, rfl, fun k => ?_, rfl, exec_new_valid h (.inr rfl)⟩
  have hleaf : (⟨⟨(List.range p.nleaf).map (freshLeaf p (dlenOr (b2Out p) dlen.toNat) key salt)⟩,
      by simp⟩ : Vector (B2Inst p) p.nleaf)[k] =
        freshLeaf p (dlenOr (b2Out p) dlen.toNat) key salt k.val := by simp
  exact hleaf

/-! ### Class B2X -/

theorem newOperandsValid_b2x_iff {p : B2Prim} {xof : Bool} {dlen klen slen : Nat} :
    NewOperandsValid (.b2x p) xof dlen klen slen ↔
      klen ≤ b2Out p ∧ slen ≤ b2Out p / 2 ∧
        ((xof = false ∧ 1 ≤ dlen) ∨ (xof = true ∧ dlen = 0)) := by
  have hlen : lengthRequestValid (.b2x p) xof dlen = true ↔
      (xof = false ∧ 1 ≤ dlen) ∨ (xof = true ∧ dlen = 0) := by
    cases xof <;> simp [lengthRequestValid, hasXof, dlenValid, Nat.one_le_iff_ne_zero]
  have hkey : keyFits (.b2x p) klen = true ↔ klen ≤ b2Out p := decide_eq_true_iff
  rw [NewOperandsValid, hlen, hkey]
  exact ⟨fun ⟨hd, hk, hs⟩ => ⟨hk, hs, hd⟩, fun ⟨hk, hs, hd⟩ => ⟨hd, hk, hs⟩⟩

/-- Settles O22. -/
theorem newB2x : Obligations.NewB2x := by
  intro p c xof dlen key salt s sentinel params
  have hsent : sentinel = xlenSent p := by cases p <;> rfl
  have hparams : params ↔ NewOperandsValid (.b2x p) xof dlen.toNat key.length salt.length :=
    newOperandsValid_b2x_iff.symm
  rw [hparams, hsent]
  refine ⟨fun h hd => ⟨_, _, fun _ => rfl, rfl, exec_new_valid h ?_⟩, exec_new_invalid,
    fun h hx hd => exec_new_unsupported h hx (decide_eq_true hd)⟩
  exact hd.imp id fun hd => decide_eq_false (not_le.mpr hd)

/-! ### BLAKE3 derive-key -/

theorem newOperandsValid_deriveKey_iff {xof : Bool} {dlen klen : Nat} {salt : List Byte} :
    NewOperandsValid (.b3 .deriveKey) xof dlen klen salt.length ↔
      salt = [] ∧ (xof = true → dlen = 0) := by
  have hlen : lengthRequestValid (.b3 .deriveKey) xof dlen = true ↔ (xof = true → dlen = 0) := by
    cases xof <;> simp [lengthRequestValid, hasXof, dlenValid]
  have hsalt : salt.length ≤ saltMax (.b3 .deriveKey) ↔ salt = [] := by simp [saltMax]
  rw [NewOperandsValid, hlen, hsalt]
  exact ⟨fun ⟨hd, _, hs⟩ => ⟨hs, hd⟩, fun ⟨hs, hd⟩ => ⟨hd, rfl, hs⟩⟩

/-- Settles O24: the key words come from stage 1, whose transactions are the only ones. -/
theorem newDeriveKey : Obligations.NewDeriveKey := by
  intro c xof dlen context salt s params
  have hparams : params ↔ NewOperandsValid (.b3 .deriveKey) xof dlen.toNat context.length salt.length :=
    newOperandsValid_deriveKey_iff.symm
  refine ⟨fun hp hd => ?_, fun hp => exec_new_invalid (mt hparams.mpr hp), fun hp hd => ?_⟩
  · refine ⟨_, _, _, _, _, fun _ => rfl, rfl, rfl, rfl, rfl, ?_⟩
    rw [List.append_assoc]
    exact exec_new_valid (a := .b3 .deriveKey) (hparams.mp hp) (.inr (decide_eq_false (not_lt.mpr hd)))
  · have hx : xof = false := Bool.eq_false_iff.mpr fun hx => by
      have := hp.2 hx
      omega
    exact exec_new_unsupported (a := .b3 .deriveKey) (hparams.mp hp) hx (decide_eq_true hd)

/-! ### The parameter block (45_keying_construction.md R288) -/

theorem b2Init_word (p : B2Prim) (f : B2Params) (i : Nat) (hi : i < 8) :
    (b2Init p f).toList[i]? =
      ((Config.ivB2 p).toList[i]?).map fun iv =>
        iv ^^^ BitVec.ofNat p.prim.width
          (leVal (((b2Pblock p f).drop (i * (p.prim.width / 8))).take (p.prim.width / 8))) := by
  have hw : p.prim.words = 8 := by cases p <;> rfl
  simp [b2Init, xorWords, lewVec, lewWords, hw, hi]

/-- The reserved bytes of a BLAKE2b block, and its salt and personalization bytes. -/
theorem b2bPblock_drop (f : B2Params) :
    (b2Pblock .b2b f).drop 18 = zeros 14 ++ zpad f.saltpers 32 := by
  simp [b2Pblock, List.drop_append, List.drop_eq_nil_of_le]

/-- Settles O25: each field is found by dropping the fields before it. -/
theorem parameterBlock : Obligations.ParameterBlock := by
  intro p f hsalt b x
  have hlen : b.length = b2Out p := by
    rw [b2Pblock_length, hsalt]
    cases p <;> rfl
  refine ⟨hlen, ?_⟩
  cases p
  case b2b =>
    have hpad : zpad f.saltpers 32 = f.saltpers := zpad_of_length_eq hsalt
    have hreserved : ∀ j, 14 + x ≤ j → j < b2Out .b2b / 2 → b[j]? = some 0 := by
      intro j (h18 : 18 ≤ j) (h32 : j < 32)
      have hj : b[j]? = (b.drop 18)[j - 18]? := by rw [List.getElem?_drop]; congr; omega
      rw [hj, b2bPblock_drop, List.getElem?_append_left (by simp; omega), zeros,
        List.getElem?_replicate_of_lt (by omega)]
    refine ⟨?_, ?_, ?_, ?_, ?_, ?_, ?_, ?_, ?_, hreserved, ?_, fun i => b2Init_word .b2b f i i.isLt⟩
    all_goals
      simp [b, x, b2Pblock, b2Out, hpad, List.drop_append, List.drop_eq_nil_of_le,
        leVal_leBytes]
  case b2s =>
    have hpad : zpad f.saltpers 16 = f.saltpers := zpad_of_length_eq hsalt
    refine ⟨?_, ?_, ?_, ?_, ?_, ?_, ?_, ?_, ?_, ?_, ?_, fun i => b2Init_word .b2s f i i.isLt⟩
    case refine_10 =>
      intro j (h16 : 16 ≤ j) (hj : j < 16)
      omega
    all_goals
      simp [b, x, b2Pblock, b2Out, hpad, List.drop_append, List.drop_eq_nil_of_le,
        leVal_leBytes]

end Sys2Proof.Machine
end

section
/-! PROOFS. The Incremental Hasher (41_incremental_hasher.md): ABSORB as a loop, the padding rules, FINALIZE of the classes
MD, B2 and B2X, and the trace of a BLAKE2 instance. -/

namespace Sys2Proof.Machine

/-! ### ABSORB, one block at a time (41_incremental_hasher.md R131) -/

section
variable {σ : Type} {B : Nat} (f : σ → List Byte → Traced σ)

theorem absorbEager_cons (hB : 0 < B) (h : σ) {d : List Byte} (hd : B ≤ d.length) :
    absorbEager B f h d = (f h (d.take B)).bind fun h' => absorbEager B f h' (d.drop B) := by
  have hn : eagerBlocks B d = eagerBlocks B (d.drop B) + 1 := by
    rw [eagerBlocks, eagerBlocks, List.length_drop, Nat.div_eq_sub_div hB hd]
  rw [absorbEager, hn]
  rfl

theorem absorbLazy_cons (hB : 0 < B) (h : σ) {d : List Byte} (hd : B < d.length) :
    absorbLazy B f h d = (f h (d.take B)).bind fun h' => absorbLazy B f h' (d.drop B) := by
  have hn : lazyBlocks B d = lazyBlocks B (d.drop B) + 1 := by
    rw [lazyBlocks, lazyBlocks, List.length_drop, Nat.div_eq_sub_div hB (by omega), Nat.sub_right_comm]
  rw [absorbLazy, hn]
  rfl

end

/-- Settles O27. -/
theorem absorbMd : Obligations.AbsorbMd := by
  intro a m total data d
  refine ⟨rfl, fun hd => ?_, fun hd => ?_, ?_, ?_⟩
  · rw [mdAbsorb, absorbEager_nil _ hd]
    rfl
  · rw [mdAbsorb, absorbEager_cons _ (mdBlock_pos a) m.h hd, bind_map]
    rfl
  · rw [mdAbsorb_tail_length]
    exact Nat.mod_lt _ (mdBlock_pos a)
  · rw [mdAbsorb, map_txs, absorbEager, absorbBlocks_count _ _ fun _ _ => rfl, eagerBlocks,
      List.length_append]

/-- Settles O28. -/
theorem absorbSponge : Obligations.AbsorbSponge := by
  intro a m total data d
  refine ⟨rfl, fun hd => ?_, fun hd => ?_, ?_⟩
  · rw [spongeAbsorb, absorbEager_nil _ hd]
    rfl
  · rw [spongeAbsorb, absorbEager_cons _ (rate_pos a) m.s hd, bind_map]
    rfl
  · rw [spongeAbsorb_tail_length]
    exact Nat.mod_lt _ (rate_pos a)

/-- An instance's tail is empty only where there was nothing to absorb. -/
theorem b2Absorb_tail_nil {p : B2Prim} {m : B2Inst p} {data : List Byte}
    (h : (b2Absorb p m data).val.tail = []) : m.tail ++ data = [] := by
  have hlen := b2Absorb_tail_length p m data
  rw [h, List.length_nil] at hlen
  have h0 := (lazy_rest (b2Block_pos p) (m.tail.length + data.length)).2 hlen.symm
  exact List.length_eq_zero_iff.mp (by rw [List.length_append]; exact h0)

theorem b2Absorb_tail_le (p : B2Prim) (m : B2Inst p) (data : List Byte) :
    (b2Absorb p m data).val.tail.length ≤ b2Block p := by
  rw [b2Absorb_tail_length]
  exact (lazy_rest (b2Block_pos p) _).1

/-- Settles O29. -/
theorem absorbB2 : Obligations.AbsorbB2 := by
  intro p m x total data d
  refine ⟨rfl, rfl, fun hd => ?_, fun hd => ?_, b2Absorb_tail_le p m data, b2Absorb_tail_nil, fun hl ht => ?_⟩
  · rw [b2Absorb, absorbLazy_nil _ hd (b2Block_pos p)]
    rfl
  · rw [b2Absorb, absorbLazy_cons _ (b2Block_pos p) _ hd, bind_map]
    rfl
  · obtain ⟨htail, hdata⟩ := List.append_eq_nil_iff.mp (b2Absorb_tail_nil ht)
    obtain ⟨-, -, hfirst⟩ := of_decide_eq_true hl
    exact ⟨by rw [B2Inst.received, hfirst htail, htail]; rfl, hdata⟩

/-! ### The Merkle-Damgard padding (41_incremental_hasher.md R137, R138) -/

theorem mdLittle_iff (a : MdAlg) : mdLittle a = true ↔ a = .md5 := by cases a <;> decide

theorem mdLengthBytes_length (a : MdAlg) (n : Nat) : (mdLengthBytes a n).length = mdLengthField a := by
  unfold mdLengthBytes
  split <;> simp

/-- The least number that fills up to a multiple. -/
theorem fill_le {B n j : Nat} (hB : 0 < B) (h : (n + j) % B = 0) : (B - n % B) % B ≤ j := by
  by_contra hlt
  have hr := Nat.mod_lt n hB
  have hle := Nat.mod_le (B - n % B) B
  have hne : n % B ≠ 0 := fun e => by rw [e, Nat.sub_zero, Nat.mod_self] at hlt; omega
  rw [← Nat.mod_add_mod, Nat.mod_eq_of_lt (by omega)] at h
  omega

/-- Settles O35. -/
theorem mdPadding : Obligations.MdPadding := by
  intro a t n
  have h256 (v : Nat) : v % 256 ^ mdLengthField a = v % 2 ^ (8 * mdLengthField a) := by
    rw [show (256 : Nat) = 2 ^ 8 from rfl, ← Nat.pow_mul]
  refine ⟨mdZeroFill a t, mdLengthBytes a n, rfl, mdLengthBytes_length a n, fun ha => ?_, fun ha => ?_, ?_,
    fun j hj => ?_⟩
  · rw [mdLengthBytes, if_pos ((mdLittle_iff a).mpr ha), leVal_leBytes, h256]
  · rw [mdLengthBytes, if_neg (mt (mdLittle_iff a).mp ha), beBytes, List.reverse_reverse, leVal_leBytes, h256]
  · rw [← mdPad_length a t n]
    exact mdPad_length_mod a t n
  · rw [show t.length + 1 + j + mdLengthField a = t.length + 1 + mdLengthField a + j by omega] at hj
    exact fill_le (mdBlock_pos a) hj

theorem md_widths (a : MdAlg) :
    (mdBlock a = 64 ∧ mdLengthField a = 8) ∨ (mdBlock a = 128 ∧ mdLengthField a = 16) := by
  cases a <;> decide

/-- One block where the marker and the length still fit behind the tail, else two. -/
theorem mdPad_length_eq (a : MdAlg) (t : List Byte) (n : Nat) (ht : t.length < mdBlock a) :
    (mdPad a t n).length =
      if t.length ≤ mdBlock a - mdLengthField a - 1 then mdBlock a else 2 * mdBlock a := by
  rw [mdPad_length, mdZeroFill]
  obtain ⟨hB, hL⟩ | ⟨hB, hL⟩ := md_widths a <;> rw [hB] at ht ⊢ <;> rw [hL] <;> split <;> omega

/-- Settles O36. -/
theorem oneOrTwoFinalBlocks : Obligations.OneOrTwoFinalBlocks := by
  constructor
  · intro a ha
    obtain ⟨hB, hL⟩ : mdBlock a = 64 ∧ mdLengthField a = 8 := by
      revert a
      decide
    refine ⟨hB, hL, fun t n ht => ?_⟩
    rw [mdPad_length_eq a t n (hB ▸ ht), hB, hL]
  · intro a ha
    obtain ⟨hB, hL⟩ : mdBlock a = 128 ∧ mdLengthField a = 16 := by
      revert a
      decide
    refine ⟨hB, hL, fun t n ht => ?_⟩
    rw [mdPad_length_eq a t n (hB ▸ ht), hB, hL]

/-! ### FINALIZE of class MD (41_incremental_hasher.md R136, R139) -/

theorem mdReadout_eq (a : MdAlg) (h : HashState a.prim) :
    mdReadout a h = if a = .md5 then leWords h.toList else beWords h.toList := by
  unfold mdReadout
  simp only [mdLittle_iff]

/-- A padded tail of one block is one transaction. -/
theorem mdFinalize_one {a : MdAlg} {m : MdState a} {total : Nat}
    (h : (mdPad a m.tail total).length = mdBlock a) :
    mdFinalize a m total =
      (compress a.prim m.h (mdPad a m.tail total) 0 0 0).map fun h1 => { m with h := h1 } := by
  rw [mdFinalize, h, Nat.div_self (mdBlock_pos a)]
  simp only [absorbBlocks]
  rw [List.take_of_length_le h.le]
  rfl

/-- A padded tail of two blocks is two transactions. -/
theorem mdFinalize_two {a : MdAlg} {m : MdState a} {total : Nat}
    (h : (mdPad a m.tail total).length = 2 * mdBlock a) :
    mdFinalize a m total =
      (compress a.prim m.h ((mdPad a m.tail total).take (mdBlock a)) 0 0 0).bind fun h1 =>
        (compress a.prim h1 ((mdPad a m.tail total).drop (mdBlock a)) 0 0 0).map fun h2 =>
          { m with h := h2 } := by
  have hrest : ((mdPad a m.tail total).drop (mdBlock a)).length ≤ mdBlock a := by
    rw [List.length_drop, h]; omega
  rw [mdFinalize, h, Nat.mul_div_cancel _ (mdBlock_pos a)]
  simp only [absorbBlocks]
  rw [List.take_of_length_le hrest]
  rfl

theorem mdLegal_tail_lt {a : MdAlg} {m : MdState a} {total : Nat} (h : m.legal total = true) :
    m.tail.length < mdBlock a :=
  of_decide_eq_true h ▸ Nat.mod_lt _ (mdBlock_pos a)

/-- Settles O37. -/
theorem finalizeMd : Obligations.FinalizeMd := by
  intro a m ctl hl b p h1 h2 bytes
  have hlen := mdPad_length_eq a m.tail ctl.total (mdLegal_tail_lt hl)
  refine ⟨fun ht => ?_, fun ht => ?_⟩
  · rw [if_pos ht] at hlen
    have hh1 : h1 = Config.compress a.prim m.h p 0 0 0 :=
      congrArg (fun blk => Config.compress a.prim m.h blk 0 0 0) (List.take_of_length_le hlen.le)
    rw [sealClass, mdFinalize_one hlen, hh1]
    simp only [mdReadout_eq]
    rfl
  · rw [if_neg (not_le.mpr ht)] at hlen
    rw [sealClass, mdFinalize_two hlen]
    simp only [mdReadout_eq]
    rfl

/-! ### FINALIZE of class B2 (41_incremental_hasher.md R147) -/

theorem finalFlags_eq (b : Bool) : finalFlags b = if b = true then 0x3 else 0x1 := by
  cases b <;> decide

theorem b2Finalize_eq (p : B2Prim) (m : B2Inst p) (n : Nat) :
    b2Finalize p m n =
      (compress p.prim m.h (zpad m.tail (b2Block p)) ((m.t + m.tail.length) % 2 ^ (2 * p.prim.width)) 0
        (if m.lastNode = true then 0x3 else 0x1)).map fun h =>
          ({ m with h := h, t := m.t + m.tail.length }, (leWords h.toList).take n) := by
  rw [b2Finalize, finalFlags_eq]
  rfl

/-- Settles O41. -/
theorem finalizeB2 : Obligations.FinalizeB2 := by
  intro p m ctl t f h
  rw [sealClass, b2Finalize_eq]
  rfl

/-! ### The trace of a BLAKE2 instance (41_incremental_hasher.md R146, R147) -/

/-- What a transaction says besides the primitive and the state words. -/
def Tx.args (t : Tx) : List Byte × Nat × Nat × BitVec 7 := (t.block, t.counter, t.blen, t.flags)

theorem b2Blocks_args (p : B2Prim) (n : Nat) (ht : HashState p.prim × Nat) (d : List Byte) :
    (absorbBlocks (b2Block p) (b2Step p) n ht d).txs.map Tx.args =
      (List.range n).map fun j =>
        ((d.drop (j * b2Block p)).take (b2Block p),
          (ht.2 + (j + 1) * b2Block p) % 2 ^ (2 * p.prim.width), 0, 0) := by
  induction n generalizing ht d with
  | zero => rfl
  | succ n ih =>
    rw [absorbBlocks, bind_txs, List.map_append, ih, List.range_succ_eq_map, List.map_cons, List.map_map,
      b2Step_t, b2Step_txs]
    refine congrArg₂ List.cons (by simp [Tx.args, b2Counter]) (List.map_congr_left fun j _ => ?_)
    have hpos : (j + 1) * b2Block p = j * b2Block p + b2Block p := Nat.succ_mul j _
    have hctr : ht.2 + b2Block p + (j + 1) * b2Block p = ht.2 + (j + 1 + 1) * b2Block p := by
      rw [Nat.succ_mul (j + 1)]; omega
    rw [List.drop_drop, hctr, Function.comp_apply, Nat.succ_eq_add_one, hpos, Nat.add_comm (b2Block p)]

theorem b2Absorb_args (p : B2Prim) (m : B2Inst p) (data : List Byte) :
    (b2Absorb p m data).txs.map Tx.args =
      (List.range (b2Rounds m data)).map fun j =>
        (((m.tail ++ data).drop (j * b2Block p)).take (b2Block p),
          (m.t + (j + 1) * b2Block p) % 2 ^ (2 * p.prim.width), 0, 0) := by
  rw [b2Absorb, map_txs, absorbLazy, b2Blocks_args, lazyBlocks, List.length_append, b2Rounds]

theorem b2Absorb_tail (p : B2Prim) (m : B2Inst p) (data : List Byte) :
    (b2Absorb p m data).val.tail = (m.tail ++ data).drop (b2Rounds m data * b2Block p) := by
  rw [b2Absorb, map_val, absorbLazy, lazyBlocks, List.length_append, b2Rounds, absorbBlocks_rest]

theorem b2Finalize_args (p : B2Prim) (m : B2Inst p) (n : Nat) :
    (b2Finalize p m n).txs.map Tx.args =
      [(zpad m.tail (b2Block p), m.received % 2 ^ (2 * p.prim.width), 0,
        if m.lastNode = true then 0x3 else 0x1)] := by
  rw [b2Finalize_eq]
  rfl

/-- Settles O42: the blocks of ABSORB and the one FINALIZE pads cut the stream in order. -/
theorem blake2Trace : Obligations.Blake2Trace := by
  intro p h last keyBlk data n _ stream k
  have hk : b2Rounds (⟨h, 0, keyBlk, last⟩ : B2Inst p) data = k := by
    rw [b2Rounds, ← List.length_append]
  have hreceived : (b2Absorb p ⟨h, 0, keyBlk, last⟩ data).val.received = stream.length := by
    rw [b2Absorb_received, B2Inst.received, Nat.zero_add, ← List.length_append]
  change List.map Tx.args _ = _
  rw [bind_txs, List.map_append, b2Absorb_args, b2Finalize_args, hreceived, b2Absorb_tail, hk]
  simp only [Nat.zero_add]
  rfl

end Sys2Proof.Machine
end

section
/-! PROOFS. Words as bytes (00_scope.md R11) and who reads which order (20_memory.md R65); the sponge padding
(41_incremental_hasher.md R158). -/

namespace Sys2Proof.Machine

/-! ### Byte orders -/

/-- Element `k` of piece `i` of pieces of one length. -/
theorem getElem?_flatMap_pieces {α β : Type} (f : α → List β) (n : Nat) (hf : ∀ x, (f x).length = n)
    (xs : List α) (i k : Nat) (hk : k < n) :
    (xs.flatMap f)[i * n + k]? = (xs[i]?).bind fun x => (f x)[k]? := by
  induction xs generalizing i with
  | nil => simp
  | cons x xs ih =>
    rw [List.flatMap_cons]
    cases i with
    | zero => rw [List.getElem?_append_left (by rw [hf]; omega)]; simp
    | succ i =>
      rw [List.getElem?_append_right (by rw [hf, Nat.succ_mul]; omega), hf, Nat.succ_mul,
        show i * n + n + k - n = i * n + k by omega, ih]
      rfl

theorem leWords_getElem? {w : Nat} (ws : List (BitVec w)) {i k : Nat} (hi : i < ws.length)
    (hk : k < w / 8) :
    (leWords ws)[i * (w / 8) + k]? = some (BitVec.ofNat 8 (ws[i].toNat / 256 ^ k)) := by
  have hlen : k < (leBytes (w / 8) ws[i].toNat).length := by rw [leBytes_length]; exact hk
  rw [leWords, getElem?_flatMap_pieces _ _ (fun _ => leBytes_length _ _) _ _ _ hk,
    List.getElem?_eq_getElem hi, Option.bind_some, List.getElem?_eq_getElem hlen, leBytes_getElem]

theorem beWords_getElem? {w : Nat} (ws : List (BitVec w)) {i k : Nat} (hi : i < ws.length)
    (hk : k < w / 8) :
    (beWords ws)[i * (w / 8) + k]? = some (BitVec.ofNat 8 (ws[i].toNat / 256 ^ (w / 8 - 1 - k))) := by
  have hlen : w / 8 - 1 - k < (leBytes (w / 8) ws[i].toNat).length := by rw [leBytes_length]; omega
  rw [beWords, getElem?_flatMap_pieces _ _ (fun _ => beBytes_length _ _) _ _ _ hk,
    List.getElem?_eq_getElem hi, Option.bind_some, beBytes, List.getElem?_reverse (by simpa using hk),
    leBytes_length, List.getElem?_eq_getElem hlen, leBytes_getElem]

theorem getD_eq_of_lt {α : Type} {l : List α} {k : Nat} (h : k < l.length) (d : α) :
    l[k]? = some (l.getD k d) := by
  rw [List.getElem?_eq_getElem h, List.getD_eq_getElem _ _ h]

theorem keccakBytes_length (s : HashState .keccak) : (leWords s.toList).length = 200 := by
  rw [leWords_length, Vector.length_toList]
  rfl

/-- Settles O38. -/
theorem wordByteOrder : Obligations.WordByteOrder := by
  refine ⟨fun w ws i k hi hk => ⟨leWords_getElem? ws hi hk, beWords_getElem? ws hi hk⟩, fun a m ctl => ?_,
    fun p m n => rfl, fun a s0 p hp => ?_, fun r p hp => ?_⟩
  · simp only [← mdReadout_eq]
    rfl
  · have := rate_le a
    rw [spongeXout, Nat.div_eq_of_lt hp, Nat.mod_eq_of_lt hp]
    exact getD_eq_of_lt (by rw [keccakBytes_length]; omega) _
  · rw [b3Xout, Nat.div_eq_of_lt hp, Nat.mod_eq_of_lt hp]
    exact getD_eq_of_lt (l := (b3Out r 0).val) (by rw [b3Out_length]; exact hp) _

/-! ### The sponge padding -/

theorem modify_append_length {α : Type} (f : α → α) (xs : List α) (x : α) (ys : List α) :
    (xs ++ x :: ys).modify xs.length f = xs ++ f x :: ys := by
  induction xs with
  | nil => rfl
  | cons y xs ih => exact congrArg (y :: ·) ih

theorem zeros_succ (k : Nat) : zeros (k + 1) = 0 :: zeros k := rfl

theorem zeros_succ' (k : Nat) : zeros (k + 1) = zeros k ++ [0] := List.replicate_succ'

theorem zero_xor_byte (b : Byte) : (0 : Byte) ^^^ b = b := BitVec.zero_xor

/-- The suffix and the last bit in two bytes. -/
theorem spongePad_two {a : SpongeAlg} {tail : List Byte} (h : tail.length < rate a - 1) :
    spongePad a tail = tail ++ [suffix a] ++ zeros (rate a - 2 - tail.length) ++ [0x80] := by
  obtain ⟨k, hk⟩ : ∃ k, rate a = tail.length + k + 2 := ⟨rate a - 2 - tail.length, by omega⟩
  have hz : zpad tail (rate a) = tail ++ 0 :: (zeros k ++ [0]) := by
    rw [zpad, hk, show tail.length + k + 2 - tail.length = k + 1 + 1 by omega, zeros_succ, zeros_succ']
  have hlast : rate a - 1 = (tail ++ [suffix a] ++ zeros k).length := by simp; omega
  rw [spongePad, hz, modify_append_length, hlast, zero_xor_byte,
    show tail ++ suffix a :: (zeros k ++ [0]) = (tail ++ [suffix a] ++ zeros k) ++ 0 :: [] by simp,
    modify_append_length, show rate a - 2 - tail.length = k by omega, zero_xor_byte]

/-- Both in one byte. -/
theorem spongePad_one {a : SpongeAlg} {tail : List Byte} (h : tail.length = rate a - 1) :
    spongePad a tail = tail ++ [suffix a ^^^ 0x80] := by
  have := rate_pos a
  have hz : zpad tail (rate a) = tail ++ 0 :: [] := by
    rw [zpad, show rate a - tail.length = 0 + 1 by omega]
    rfl
  rw [spongePad, hz, modify_append_length, ← h, modify_append_length, zero_xor_byte]

/-- Settles O39. -/
theorem spongePadding : Obligations.SpongePadding := by
  intro a r sfx dflt hmem
  obtain ⟨rfl, rfl, rfl⟩ : r = rate a ∧ sfx = suffix a ∧ dflt = spongeDlen a := by
    simp only [List.mem_cons, Prod.mk.injEq, List.not_mem_nil, or_false] at hmem
    rcases hmem with ⟨rfl, rfl, rfl, rfl⟩ | ⟨rfl, rfl, rfl, rfl⟩ | ⟨rfl, rfl, rfl, rfl⟩ |
      ⟨rfl, rfl, rfl, rfl⟩ | ⟨rfl, rfl, rfl, rfl⟩ | ⟨rfl, rfl, rfl, rfl⟩ <;> exact ⟨rfl, rfl, rfl⟩
  exact ⟨rfl, rfl, rfl, fun tail => ⟨spongePad_two, spongePad_one⟩⟩

end Sys2Proof.Machine
end

section
/-! PROOFS. Output streams (44_xof_adapter.md): a read from position `p` gives the bytes of the stream from `p`, one
evaluation of each block touched; a squeeze gives the same of the sponge's stream. -/

namespace Sys2Proof.Machine

/-! ### One round of a read: the rest of the current block, or of the request -/

section
variable {B : Nat} (p n : Nat)

/-- How many bytes a round takes. -/
def roundTake (B p n : Nat) : Nat := min (B - p % B) n

theorem roundTake_pos (hB : 0 < B) (hn : n ≠ 0) : 0 < roundTake B p n := by
  have := Nat.mod_lt p hB
  unfold roundTake
  omega

theorem roundTake_le : roundTake B p n ≤ n := Nat.min_le_right _ _

theorem roundTake_le_room : roundTake B p n ≤ B - p % B := Nat.min_le_left _ _

/-- The bytes of a round lie in one block. -/
theorem round_position (hB : 0 < B) {i : Nat} (hi : i < B - p % B) :
    (p + i) / B = p / B ∧ (p + i) % B = p % B + i := by
  have hdm := Nat.div_add_mod p B
  have h : p + i = B * (p / B) + (p % B + i) := by omega
  constructor
  · rw [h, Nat.mul_add_div hB, Nat.div_eq_of_lt (show p % B + i < B by omega), Nat.add_zero]
  · rw [h, Nat.mul_add_mod, Nat.mod_eq_of_lt (by omega)]

end

/-- A slice, byte by byte. -/
theorem slice_eq {l : List Byte} {off n : Nat} (h : off + n ≤ l.length) :
    (l.drop off).take n = (List.range n).map fun i => l.getD (off + i) 0 := by
  apply List.ext_getElem
  · simp; omega
  · intro i h1 h2
    have hi : i < n := by simpa using h2
    rw [List.getElem_take, List.getElem_drop, List.getElem_map, List.getElem_range,
      List.getD_eq_getElem _ _ (by omega)]

/-- A round and what is left are the whole request. -/
theorem map_range_round {α : Type} {k n : Nat} (hk : k ≤ n) (f : Nat → α) :
    (List.range n).map f = (List.range k).map f ++ (List.range (n - k)).map fun i => f (k + i) := by
  have h := List.range_add (n := k) (m := n - k)
  rw [Nat.add_sub_cancel' hk] at h
  rw [h, List.map_append, List.map_map]
  rfl

/-! ### Blocks -/

section
variable {B : Nat} (blk : Nat → Traced (List Byte))

theorem readBlocks_none (fuel p : Nat) : readBlocks B blk fuel p 0 = .pure [] := by
  cases fuel <;> simp [readBlocks]

theorem readBlocks_round (fuel p n : Nat) (hn : n ≠ 0) :
    readBlocks B blk (fuel + 1) p n =
      (blk (p / B)).bind fun bytes =>
        (readBlocks B blk fuel (p + roundTake B p n) (n - roundTake B p n)).map fun out =>
          (bytes.drop (p % B)).take (roundTake B p n) ++ out := by
  rw [readBlocks, if_neg hn]
  rfl

/-- Byte `x` of the stream that the blocks make. -/
def streamByte (B : Nat) (blk : Nat → Traced (List Byte)) (x : Nat) : Byte :=
  (blk (x / B)).val.getD (x % B) 0

/-- A read gives the bytes of the stream, where the blocks hold them. -/
theorem readBlocks_val (hB : 0 < B) (fuel p n : Nat) (hf : n ≤ fuel)
    (hblk : ∀ j, p / B ≤ j → min (p + n - j * B) B ≤ (blk j).val.length) :
    (readBlocks B blk fuel p n).val = (List.range n).map fun i => streamByte B blk (p + i) := by
  induction fuel generalizing p n with
  | zero =>
    obtain rfl : n = 0 := by omega
    rfl
  | succ fuel ih =>
    by_cases hn : n = 0
    · subst hn; rw [readBlocks_none]; rfl
    · have hpos := roundTake_pos p n hB hn
      have hle := roundTake_le (B := B) p n
      have hroom := roundTake_le_room (B := B) p n
      have hmod := Nat.mod_lt p hB
      have hdm := Nat.div_add_mod p B
      rw [Nat.mul_comm] at hdm
      have hfirst := hblk (p / B) le_rfl
      have hrest := ih (p + roundTake B p n) (n - roundTake B p n) (by omega) fun j hj => by
        have := hblk j (le_trans (Nat.div_le_div_right (by omega)) hj)
        omega
      rw [readBlocks_round blk fuel p n hn, bind_val, map_val, hrest, map_range_round hle,
        slice_eq (by omega)]
      refine congrArg₂ (· ++ ·) (List.map_congr_left fun i hi => ?_) ?_
      · rw [List.mem_range] at hi
        obtain ⟨hq, hr⟩ := round_position p hB (lt_of_lt_of_le hi hroom)
        rw [streamByte, hq, hr]
      · simp only [Nat.add_assoc]

/-- How many blocks `n` bytes from position `p` touch. -/
def blocksTouched (B p n : Nat) : Nat := if n = 0 then 0 else (p % B + n - 1) / B + 1

theorem blocksTouched_round (hB : 0 < B) (p n : Nat) (hn : n ≠ 0) :
    blocksTouched B p n =
      blocksTouched B (p + roundTake B p n) (n - roundTake B p n) + 1 := by
  have hmod := Nat.mod_lt p hB
  unfold blocksTouched
  rw [if_neg hn]
  by_cases hc : n ≤ B - p % B
  · have ht : roundTake B p n = n := Nat.min_eq_right hc
    rw [ht, Nat.sub_self, if_pos rfl, Nat.div_eq_of_lt (by omega)]
  · have ht : roundTake B p n = B - p % B := Nat.min_eq_left (by omega)
    have h0 : (p + (B - p % B)) % B = 0 := by
      rw [← Nat.mod_add_mod, Nat.add_sub_cancel' hmod.le, Nat.mod_self]
    rw [ht, if_neg (by omega), h0, show p % B + n - 1 = (0 + (n - (B - p % B)) - 1) + B by omega,
      Nat.add_div_right _ hB]

/-- The blocks are evaluated once each, in increasing order. -/
theorem readBlocks_txs_eq (hB : 0 < B) (fuel p n : Nat) (hf : n ≤ fuel) :
    (readBlocks B blk fuel p n).txs =
      (List.range (blocksTouched B p n)).flatMap fun j => (blk (p / B + j)).txs := by
  induction fuel generalizing p n with
  | zero =>
    obtain rfl : n = 0 := by omega
    rfl
  | succ fuel ih =>
    by_cases hn : n = 0
    · subst hn; rw [readBlocks_none]; rfl
    · have hpos := roundTake_pos p n hB hn
      have hmod := Nat.mod_lt p hB
      rw [readBlocks_round blk fuel p n hn, bind_txs, map_txs, ih _ _ (by omega),
        blocksTouched_round hB p n hn, List.range_succ_eq_map, List.flatMap_cons, List.flatMap_map]
      refine congrArg₂ (· ++ ·) rfl ?_
      by_cases hc : n ≤ B - p % B
      · rw [show n - roundTake B p n = 0 by unfold roundTake; omega]
        rfl
      · have ht : roundTake B p n = B - p % B := Nat.min_eq_left (by omega)
        have hdm := Nat.div_add_mod p B
        have hq : (p + roundTake B p n) / B = p / B + 1 := by
          rw [ht, show p + (B - p % B) = B * (p / B) + B by omega, Nat.mul_add_div hB, Nat.div_self hB]
        rw [hq]
        simp only [Nat.succ_eq_add_one, Nat.add_assoc, Nat.add_comm 1]

/-- A read from a block's start cuts each block to what is asked of it. -/
theorem readBlocks_aligned (hB : 0 < B) (fuel j n : Nat) (hf : n ≤ fuel) :
    (readBlocks B blk fuel (B * j) n).val =
      (List.range (blocksTouched B 0 n)).flatMap fun i => (blk (j + i)).val.take (min B (n - B * i)) := by
  induction fuel generalizing j n with
  | zero =>
    obtain rfl : n = 0 := by omega
    rfl
  | succ fuel ih =>
    by_cases hn : n = 0
    · subst hn; rw [readBlocks_none]; rfl
    · have ht (x : Nat) : roundTake B (B * x) n = min B n := by rw [roundTake, Nat.mul_mod_right, Nat.sub_zero]
      have ht0 := ht 0
      rw [Nat.mul_zero] at ht0
      rw [readBlocks_round blk fuel _ n hn, bind_val, map_val, blocksTouched_round hB 0 n hn, ht, ht0,
        List.range_succ_eq_map, List.flatMap_cons, List.flatMap_map, Nat.mul_div_cancel_left _ hB,
        Nat.mul_mod_right, List.drop_zero]
      refine congrArg₂ (· ++ ·) (by simp) ?_
      by_cases hc : n ≤ B
      · rw [Nat.min_eq_right hc, Nat.sub_self, readBlocks_none]
        rfl
      · have hmod : blocksTouched B (0 + B) (n - B) = blocksTouched B 0 (n - B) := by simp [blocksTouched]
        rw [Nat.min_eq_left (by omega), ← Nat.mul_succ, ih _ _ (by omega), hmod]
        refine List.flatMap_congr fun i _ => ?_
        rw [Nat.succ_add_eq_add_succ, Nat.sub_sub, Nat.mul_succ, Nat.add_comm B]

end

theorem ceilDiv_eq (a : Nat) {b : Nat} (hb : 0 < b) : ceilDiv a b = if a = 0 then 0 else (a - 1) / b + 1 := by
  unfold ceilDiv
  split
  · rw [‹a = 0›, Nat.zero_add, Nat.div_eq_of_lt (by omega)]
  · rw [show a + b - 1 = a - 1 + b by omega, Nat.add_div_right _ hb]

theorem blocksTouched_eq_ceilDiv {B p n : Nat} (hB : 0 < B) (hn : 0 < n) :
    blocksTouched B p n = ceilDiv (p % B + n) B := by
  rw [ceilDiv_eq _ hB, blocksTouched, if_neg (by omega), if_neg (by omega)]

theorem blocksTouched_zero {B : Nat} (hB : 0 < B) (n : Nat) : blocksTouched B 0 n = ceilDiv n B := by
  rw [ceilDiv_eq _ hB, blocksTouched, Nat.zero_mod, Nat.zero_add]

theorem blocksTouched_eq_sub {B p n : Nat} (hB : 0 < B) (hn : 0 < n) :
    blocksTouched B p n = (p + n - 1) / B - p / B + 1 := by
  have hdm := Nat.div_add_mod p B
  have h : (p + n - 1) / B = p / B + (p % B + n - 1) / B := by
    rw [show p + n - 1 = B * (p / B) + (p % B + n - 1) by omega, Nat.mul_add_div hB]
  rw [h, Nat.add_sub_cancel_left, blocksTouched, if_neg (by omega)]

/-! ### The squeeze (44_xof_adapter.md R247, R248) -/

/-- The permutations behind the squeeze state of a cursor. -/
def squeezeIndex (a : SpongeAlg) (x : Nat) : Nat := if x = 0 then 0 else (x - 1) / rate a

theorem squeezeState_eq (a : SpongeAlg) (s0 : HashState .keccak) (x : Nat) :
    squeezeState a s0 x = spongeState a s0 (squeezeIndex a x) := rfl

theorem squeezeIndex_eq_ceilDiv (a : SpongeAlg) (x : Nat) :
    squeezeIndex a x = ceilDiv x (rate a) - 1 := by
  rw [ceilDiv_eq _ (rate_pos a), squeezeIndex]
  split <;> rfl

theorem squeezeIndex_mono (a : SpongeAlg) {x y : Nat} (h : x ≤ y) : squeezeIndex a x ≤ squeezeIndex a y := by
  unfold squeezeIndex
  split
  · exact Nat.zero_le _
  · rw [if_neg (by omega)]
    exact Nat.div_le_div_right (by omega)

/-- Within a block the state is that of the block. -/
theorem squeezeIndex_round (a : SpongeAlg) {x k : Nat} (hk : 0 < k) (hroom : k ≤ rate a - x % rate a) :
    squeezeIndex a (x + k) = x / rate a := by
  rw [squeezeIndex, if_neg (by omega), Nat.add_sub_assoc hk]
  exact (round_position x (rate_pos a) (by omega)).1

/-- From `j0` on, each state is the permutation of the one before. -/
def PermutesFrom (a : SpongeAlg) (S : Nat → HashState .keccak) (j0 : Nat) : Prop :=
  ∀ j, j0 ≤ j → S (j + 1) = Config.compress .keccak (S j) (zeros (rate a)) 0 0 0

theorem spongeState_permutes (a : SpongeAlg) (s0 : HashState .keccak) :
    PermutesFrom a (spongeState a s0) 0 := fun _ _ => rfl

/-- Byte `x` of the stream of the states `S`. -/
def laneByte (a : SpongeAlg) (S : Nat → HashState .keccak) (x : Nat) : Byte :=
  (leWords (S (x / rate a)).toList).getD (x % rate a) 0

section
variable {a : SpongeAlg} {S : Nat → HashState .keccak} {j0 : Nat} (hS : PermutesFrom a S j0)
include hS

/-- The permutation at a rate boundary brings the state to the cursor's block. -/
theorem spongePermute_spec {x : Nat} (hx : j0 ≤ squeezeIndex a x) :
    (spongePermute a (S (squeezeIndex a x)) x).val = S (x / rate a) ∧
      (spongePermute a (S (squeezeIndex a x)) x).txs.length + squeezeIndex a x = x / rate a := by
  have hr := rate_pos a
  have hdm := Nat.div_add_mod x (rate a)
  have hmod := Nat.mod_lt x hr
  unfold spongePermute
  by_cases h : 0 < x ∧ x % rate a = 0
  · have hq : 0 < x / rate a := by
      refine Nat.pos_of_ne_zero fun e => ?_
      rw [e, h.2] at hdm
      omega
    have hidx : x / rate a = squeezeIndex a x + 1 := by
      have hpred : x - 1 = rate a * (x / rate a - 1) + (rate a - 1) := by
        rw [Nat.mul_sub, Nat.mul_one]
        have : rate a ≤ rate a * (x / rate a) := Nat.le_mul_of_pos_right _ hq
        omega
      rw [squeezeIndex, if_neg (by omega), hpred, Nat.mul_add_div hr,
        Nat.div_eq_of_lt (show rate a - 1 < rate a by omega)]
      omega
    rw [if_pos h, hidx]
    exact ⟨(hS _ hx).symm, by rw [compress_txs, List.length_singleton, Nat.add_comm]⟩
  · have hidx : squeezeIndex a x = x / rate a := by
      unfold squeezeIndex
      split
      · rw [‹x = 0›, Nat.zero_div]
      · have hx : x - 1 = rate a * (x / rate a) + (x % rate a - 1) := by omega
        rw [hx, Nat.mul_add_div hr, Nat.div_eq_of_lt (show x % rate a - 1 < rate a by omega), Nat.add_zero]
    rw [if_neg h, hidx]
    exact ⟨rfl, by simp⟩

omit hS in
theorem squeezeLoop_none (fuel : Nat) (s : HashState .keccak) (x : Nat) :
    squeezeLoop a fuel s x 0 = .pure ⟨[], s, x⟩ := by
  cases fuel <;> simp [squeezeLoop]

omit hS in
theorem squeezeLoop_round (fuel : Nat) (s : HashState .keccak) (x : Nat) {n : Nat} (hn : n ≠ 0) :
    squeezeLoop a (fuel + 1) s x n =
      (spongePermute a s x).bind fun s' =>
        (squeezeLoop a fuel s' (x + roundTake (rate a) x n) (n - roundTake (rate a) x n)).map fun r =>
          { r with out := ((leWords s'.toList).drop (x % rate a)).take (roundTake (rate a) x n) ++ r.out } := by
  rw [squeezeLoop, if_neg hn]
  rfl

/-- A squeeze from the state of its cursor gives the bytes of the stream and leaves the state of the new cursor, one
permutation for each rate boundary. -/
theorem squeezeLoop_spec (fuel x n : Nat) (hf : n ≤ fuel) (hx : j0 ≤ squeezeIndex a x) :
    (squeezeLoop a fuel (S (squeezeIndex a x)) x n).val =
        ⟨(List.range n).map fun i => laneByte a S (x + i), S (squeezeIndex a (x + n)), x + n⟩ ∧
      (squeezeLoop a fuel (S (squeezeIndex a x)) x n).txs.length + squeezeIndex a x =
        squeezeIndex a (x + n) := by
  induction fuel generalizing x n with
  | zero =>
    obtain rfl : n = 0 := by omega
    exact ⟨rfl, by simp [squeezeLoop]⟩
  | succ fuel ih =>
    by_cases hn : n = 0
    · subst hn; rw [squeezeLoop_none]; exact ⟨rfl, by simp⟩
    · have hr := rate_pos a
      have hr200 := rate_le a
      have hmod := Nat.mod_lt x hr
      have hpos := roundTake_pos x n hr hn
      have hle := roundTake_le (B := rate a) x n
      have hroom := roundTake_le_room (B := rate a) x n
      obtain ⟨hval, htxs⟩ := spongePermute_spec hS hx
      have hidx := squeezeIndex_round a hpos hroom
      obtain ⟨ihval, ihtxs⟩ := ih (x + roundTake (rate a) x n) (n - roundTake (rate a) x n) (by omega)
        (by omega)
      have hsum : x + roundTake (rate a) x n + (n - roundTake (rate a) x n) = x + n := by omega
      rw [hsum, hidx] at ihval ihtxs
      rw [squeezeLoop_round fuel _ x hn, bind_val, bind_txs, map_val, map_txs, List.length_append, hval,
        ihval]
      refine ⟨?_, by omega⟩
      rw [Squeezed.mk.injEq, map_range_round hle, slice_eq (by rw [keccakBytes_length]; omega)]
      refine ⟨congrArg₂ (· ++ ·) (List.map_congr_left fun i hi => ?_) ?_, rfl, rfl⟩
      · rw [List.mem_range] at hi
        obtain ⟨hq, hm⟩ := round_position x hr (lt_of_lt_of_le hi hroom)
        rw [laneByte, hq, hm]
      · simp only [Nat.add_assoc]

end

/-- The squeeze of a reader whose state is that of its cursor. -/
theorem spongeSqueeze_spec (a : SpongeAlg) (s0 : HashState .keccak) (x n : Nat) :
    (spongeSqueeze a (squeezeState a s0 x) x n).val =
        ⟨(List.range n).map fun i => spongeXout a s0 (x + i), squeezeState a s0 (x + n), x + n⟩ ∧
      (spongeSqueeze a (squeezeState a s0 x) x n).txs.length =
        (ceilDiv (x + n) (rate a) - 1) - (ceilDiv x (rate a) - 1) := by
  obtain ⟨hval, htxs⟩ := squeezeLoop_spec (spongeState_permutes a s0) n x n le_rfl (Nat.zero_le _)
  rw [squeezeIndex_eq_ceilDiv, squeezeIndex_eq_ceilDiv] at htxs
  refine ⟨hval, ?_⟩
  rw [squeezeState_eq, squeezeIndex_eq_ceilDiv, spongeSqueeze]
  omega

/-- Any state is that of its cursor in the stream it begins. -/
theorem squeezeState_of_any (a : SpongeAlg) (s : HashState .keccak) (x : Nat) :
    ∃ S, PermutesFrom a S (squeezeIndex a x) ∧ S (squeezeIndex a x) = s := by
  refine ⟨fun j => spongeState a s (j - squeezeIndex a x), fun j hj => ?_, by simp [spongeState]⟩
  simp only [Nat.sub_add_comm hj, spongeState]

end Sys2Proof.Machine
end

section
/-! PROOFS. The reader commands (44_xof_adapter.md): what XOF_READ, XOF_SEEK and XOF_READ_AT answer on the three
mechanisms, and how they compose. -/

namespace Sys2Proof.Machine

/-! ### A reader command on a sealed reader -/

section
variable {c : BitVec 4} {s : State} {ctl : Ctl} {digest : List Byte} {z : Sealed}
  (hs : s.slot c = .sealed ctl digest z) (hx : ctl.xof = true)
include hs hx

theorem exec_xofRead_ok {len : BitVec 64} {q : Traced Reading} (hlen : 0 < len.toNat)
    (hq : readSealed s.params.b3Ceil ctl z len.toNat = .ok q) :
    exec (.xofRead c len) s = .next (s.answered c (.sealed q.val.ctl digest q.val.z) q.txs q.val.out) := by
  refine runOn_ok (r := readingResult digest q) ?_
  rw [hs, xofReadCmd, readerCmd_of_reader hx, if_neg (by omega), hq]

theorem exec_xofRead_error {len : BitVec 64} {e : Status} (hlen : 0 < len.toNat)
    (hq : readSealed s.params.b3Ceil ctl z len.toNat = .error e) :
    exec (.xofRead c len) s = .next (s.failed e) := by
  refine runOn_error ?_
  rw [hs, xofReadCmd, readerCmd_of_reader hx, if_neg (by omega), hq]

theorem exec_xofSeek_ok {pos : BitVec 64} {k : Traced Reading}
    (hk : seekSealed s.params.b3Ceil ctl z pos.toNat = .ok k) :
    exec (.xofSeek c pos) s = .next (s.answered c (.sealed k.val.ctl digest k.val.z) k.txs k.val.out) := by
  refine runOn_ok (r := readingResult digest k) ?_
  rw [hs, xofSeekCmd, readerCmd_of_reader hx, hk]

theorem exec_xofSeek_error {pos : BitVec 64} {e : Status}
    (hk : seekSealed s.params.b3Ceil ctl z pos.toNat = .error e) :
    exec (.xofSeek c pos) s = .next (s.failed e) := by
  refine runOn_error ?_
  rw [hs, xofSeekCmd, readerCmd_of_reader hx, hk]

theorem exec_xofReadAt_ok {pos len : BitVec 64} {k q : Traced Reading} (hlen : 0 < len.toNat)
    (hcheck : readAtCheck s.params.b3Ceil ctl z pos.toNat len.toNat = .ok ())
    (hk : seekSealed s.params.b3Ceil ctl z pos.toNat = .ok k)
    (hq : readSealed s.params.b3Ceil k.val.ctl k.val.z len.toNat = .ok q) :
    exec (.xofReadAt c pos len) s =
      .next (s.answered c (.sealed q.val.ctl digest q.val.z) (k.txs ++ q.txs) q.val.out) := by
  refine runOn_ok (r := readingResult digest ⟨q.val, k.txs ++ q.txs⟩) ?_
  rw [hs, xofReadAtCmd, readerCmd_of_reader hx, if_neg (by omega), hcheck, hk]
  simp only [hq]

theorem exec_xofReadAt_error {pos len : BitVec 64} {e : Status} (hlen : 0 < len.toNat)
    (hcheck : readAtCheck s.params.b3Ceil ctl z pos.toNat len.toNat = .error e) :
    exec (.xofReadAt c pos len) s = .next (s.failed e) := by
  refine runOn_error ?_
  rw [hs, xofReadAtCmd, readerCmd_of_reader hx, if_neg (by omega), hcheck]

end

/-! ### BLAKE3 (44_xof_adapter.md R251) -/

theorem b3Read_val (r : RootD) (p n : Nat) :
    (b3Read r p n).val = (List.range n).map fun i => b3Xout r (p + i) :=
  readBlocks_val _ (by decide) n p n le_rfl fun j _ => by rw [b3Out_length]; omega

theorem b3Read_txs_eq (r : RootD) (p n : Nat) :
    (b3Read r p n).txs = (List.range (blocksTouched 64 p n)).map fun j =>
      ⟨.b3, r.rcv, r.rblock, p / 64 + j, r.rblen, r.rflags⟩ := by
  rw [b3Read, readBlocks_txs_eq _ (by decide) n p n le_rfl, List.map_eq_flatMap]
  rfl

theorem readSealed_b3 {ceil : Nat} {ctl : Ctl} {a : B3Alg} {m : B3State} {r : RootD} {n : Nat}
    (h : ctl.xpos + n ≤ ceil) :
    readSealed ceil ctl (.b3 a m r) n = .ok ((b3Read r ctl.xpos n).map fun out =>
      ⟨out, { ctl with xpos := ctl.xpos + n }, .b3 a m r⟩) :=
  if_neg (not_lt.mpr h)

theorem seekSealed_b3 {ceil : Nat} {ctl : Ctl} {a : B3Alg} {m : B3State} {r : RootD} {x : Nat}
    (h : x ≤ ceil) :
    seekSealed ceil ctl (.b3 a m r) x = .ok (.pure ⟨[], { ctl with xpos := x }, .b3 a m r⟩) :=
  if_neg (not_lt.mpr h)

/-- Settles O51. -/
theorem readB3 : Obligations.ReadB3 := by
  intro c len s ctl digest a m r hs hx hlen p n
  refine ⟨fun hle => ?_, fun hlt => exec_xofRead_error hs hx hlen (if_pos hlt)⟩
  rw [exec_xofRead_ok hs hx hlen (readSealed_b3 hle), map_val, map_txs, b3Read_val, b3Read_txs_eq,
    blocksTouched_eq_sub (by decide) hlen]

/-! ### BLAKE2X (44_xof_adapter.md R258 to R261) -/

theorem b2xRead_val (q : B2Prim) (m : B2XState q) (h0 : List Byte) (p n : Nat) :
    (b2xRead q true m h0 p n).val = (List.range n).map fun i => b2xXout q true m h0 (p + i) :=
  readBlocks_val _ (b2Out_pos q) n p n le_rfl fun j _ => by
    rw [b2xBlock_length, b2xBlockSize, if_pos rfl]
    omega

theorem b2xRead_txs_eq (q : B2Prim) (xof : Bool) (m : B2XState q) (h0 : List Byte) (p n : Nat) :
    (b2xRead q xof m h0 p n).txs = (List.range (blocksTouched (b2Out q) p n)).map fun j =>
      ⟨q.prim, b2Init q (b2xParams q xof m.xlen m.saltp ((p / b2Out q + j) % 2 ^ 32)),
        zpad h0 (b2Block q), b2Out q, 0, FINAL_BLOCK⟩ := by
  rw [b2xRead, readBlocks_txs_eq _ (b2Out_pos q) n p n le_rfl, List.map_eq_flatMap]
  rfl

theorem readSealed_b2x {ceil : Nat} {ctl : Ctl} {q : B2Prim} {m : B2XState q} {h0 : List Byte}
    (hx : ctl.xof = true) (n : Nat) :
    readSealed ceil ctl (.b2x q m h0) n = .ok ((b2xRead q true m h0 ctl.xpos n).map fun out =>
      ⟨out, { ctl with xpos := (ctl.xpos + n) % b2xPeriod q }, .b2x q m h0⟩) := by
  rw [readSealed, hx]

/-- Settles O52. -/
theorem readB2x : Obligations.ReadB2x := by
  intro c len s ctl digest q m h0 hs hx hlen p n ob period
  have hperiod : period = b2xPeriod q := by cases q <;> rfl
  rw [exec_xofRead_ok hs hx hlen (readSealed_b2x hx _), map_val, map_txs, b2xRead_val, b2xRead_txs_eq,
    blocksTouched_eq_ceilDiv (b2Out_pos q) hlen, hperiod]
  rfl

/-- The stream repeats after `PERIOD` bytes (44_xof_adapter.md R255, R260). -/
theorem b2xXout_mod_period (q : B2Prim) (xof : Bool) (m : B2XState q) (h0 : List Byte) (x : Nat) :
    b2xXout q xof m h0 (x % b2xPeriod q) = b2xXout q xof m h0 x := by
  have hblock : x % (2 ^ 32 * b2Out q) / b2Out q = x / b2Out q % 2 ^ 32 := by
    rw [Nat.mul_comm, Nat.mod_mul_right_div_self]
  rw [b2xXout, b2xXout, b2xPeriod_eq, hblock, Nat.mod_mod, Nat.mod_mul_left_mod]

theorem b2xXout_add_mod (q : B2Prim) (xof : Bool) (m : B2XState q) (h0 : List Byte) (x i : Nat) :
    b2xXout q xof m h0 (x % b2xPeriod q + i) = b2xXout q xof m h0 ((x + i) % b2xPeriod q) := by
  rw [← b2xXout_mod_period, Nat.mod_add_mod]

/-! ### SHAKE (44_xof_adapter.md R247 to R249) -/

section
variable {ceil : Nat} {ctl : Ctl} {a : SpongeAlg} {s0 : HashState .keccak} {tail : List Byte}

/-- A squeeze by a reader whose state is that of its cursor. -/
theorem readSealed_sponge (n : Nat) :
    ∃ txs, readSealed ceil ctl (.sponge a ⟨squeezeState a s0 ctl.xpos, tail⟩) n =
        .ok ⟨⟨(List.range n).map fun i => spongeXout a s0 (ctl.xpos + i), { ctl with xpos := ctl.xpos + n },
          .sponge a ⟨squeezeState a s0 (ctl.xpos + n), tail⟩⟩, txs⟩ ∧
      txs.length = (ceilDiv (ctl.xpos + n) (rate a) - 1) - (ceilDiv ctl.xpos (rate a) - 1) := by
  obtain ⟨hval, htxs⟩ := spongeSqueeze_spec a s0 ctl.xpos n
  refine ⟨_, ?_, htxs⟩
  rw [readSealed, Traced.map, hval]

theorem seekSealed_sponge {x : Nat} (hle : ctl.xpos ≤ x) :
    ∃ txs, seekSealed ceil ctl (.sponge a ⟨squeezeState a s0 ctl.xpos, tail⟩) x =
        .ok ⟨⟨[], { ctl with xpos := x }, .sponge a ⟨squeezeState a s0 x, tail⟩⟩, txs⟩ ∧
      txs.length = (ceilDiv x (rate a) - 1) - (ceilDiv ctl.xpos (rate a) - 1) := by
  obtain ⟨hval, htxs⟩ := spongeSqueeze_spec a s0 ctl.xpos (x - ctl.xpos)
  rw [Nat.add_sub_cancel' hle] at hval htxs
  refine ⟨_, ?_, htxs⟩
  rw [seekSealed, if_neg (not_lt.mpr hle), Traced.map, hval]

end

/-- Settles O53. -/
theorem readSponge : Obligations.ReadSponge := by
  intro c len s ctl digest a s0 tail hs hx hlen p n
  obtain ⟨txs, hq, hcount⟩ := readSealed_sponge (ceil := s.params.b3Ceil) (ctl := ctl) (s0 := s0)
    (tail := tail) len.toNat
  exact ⟨txs, exec_xofRead_ok hs hx hlen hq, hcount⟩

/-- Settles O54. -/
theorem seekAnswers : Obligations.SeekAnswers := by
  intro c pos s ctl digest hx x
  refine ⟨fun a m r hs => ⟨fun hle => exec_xofSeek_ok hs hx (seekSealed_b3 hle),
    fun hlt => exec_xofSeek_error hs hx (if_pos hlt)⟩, fun q m h0 hs => ?_, fun a s0 tail hs =>
    ⟨fun hlt => exec_xofSeek_error hs hx (if_pos hlt), fun hle => ?_⟩⟩
  · cases q <;> exact exec_xofSeek_ok hs hx rfl
  · obtain ⟨txs, hk, hcount⟩ := seekSealed_sponge (ceil := s.params.b3Ceil) (s0 := s0) (tail := tail) hle
    exact ⟨txs, exec_xofSeek_ok hs hx hk, hcount⟩

/-- Settles O56: a seek to the position and then a read of the stream from there. -/
theorem readAtSlice : Obligations.ReadAtSlice := by
  intro c pos len s ctl digest hx hlen x n
  refine ⟨fun a m r hs => ⟨fun hle => ?_, fun hlt => ?_⟩, fun q m h0 hs => ?_,
    fun a s0 tail hs => ⟨fun hlt => ?_, fun hle => ?_⟩⟩
  · have hcheck : readAtCheck s.params.b3Ceil ctl (.b3 a m r) pos.toNat len.toNat = .ok () :=
      if_neg (by omega)
    have h := exec_xofReadAt_ok hs hx hlen hcheck (seekSealed_b3 (by omega)) (readSealed_b3 hle)
    rw [map_val, pure_val, b3Read_val] at h
    exact ⟨_, h⟩
  · exact exec_xofReadAt_error hs hx hlen (if_pos (.inr hlt))
  · have h := exec_xofReadAt_ok (pos := pos) hs hx hlen rfl rfl (readSealed_b2x (by exact hx) _)
    rw [map_val, pure_val, b2xRead_val, Nat.mod_add_mod] at h
    simp only [b2xXout_add_mod] at h
    exact ⟨_, h⟩
  · exact exec_xofReadAt_error hs hx hlen (if_pos hlt)
  · obtain ⟨ktxs, hk, -⟩ := seekSealed_sponge (ceil := s.params.b3Ceil) (s0 := s0) (tail := tail) hle
    obtain ⟨qtxs, hq, -⟩ := readSealed_sponge (ceil := s.params.b3Ceil)
      (ctl := { ctl with xpos := pos.toNat }) (a := a) (s0 := s0) (tail := tail) len.toNat
    exact ⟨_, exec_xofReadAt_ok hs hx hlen (if_neg (not_lt.mpr hle)) hk hq⟩

/-! ### XOF_READ_AT as XOF_SEEK and XOF_READ (44_xof_adapter.md R245) -/

/-- No error is `OK`. -/
def NeverOk {α : Type} (x : Except Status α) : Prop := x ≠ .error .ok

theorem readerCmd_neverOk {f : Ctl → List Byte → Sealed → Except Status Result} (v : Slot)
    (hf : ∀ ctl digest z, NeverOk (f ctl digest z)) : NeverOk (readerCmd f v) := by
  obtain h | ⟨ctl, digest, z, -, -, h⟩ := readerCmd_cases f v <;> rw [h]
  · simp [NeverOk]
  · exact hf ctl digest z

theorem readSealed_neverOk (ceil : Nat) (ctl : Ctl) (z : Sealed) (n : Nat) :
    NeverOk (readSealed ceil ctl z n) := by
  cases z with
  | b3 a m r => rw [readSealed]; split <;> simp [NeverOk]
  | _ => simp [readSealed, NeverOk]

theorem seekSealed_neverOk (ceil : Nat) (ctl : Ctl) (z : Sealed) (x : Nat) :
    NeverOk (seekSealed ceil ctl z x) := by
  cases z with
  | sponge a m => rw [seekSealed]; split <;> simp [NeverOk]
  | b3 a m r => rw [seekSealed]; split <;> simp [NeverOk]
  | _ => simp [seekSealed, NeverOk]

theorem readAtCheck_neverOk (ceil : Nat) (ctl : Ctl) (z : Sealed) (x n : Nat) :
    NeverOk (readAtCheck ceil ctl z x n) := by
  cases z with
  | sponge a m => rw [readAtCheck]; split <;> simp [NeverOk]
  | b3 a m r => rw [readAtCheck]; split <;> simp [NeverOk]
  | _ => simp [readAtCheck, NeverOk]

theorem xofReadCmd_neverOk (ceil n : Nat) (v : Slot) : NeverOk (xofReadCmd ceil n v) := by
  refine readerCmd_neverOk v fun ctl digest z => ?_
  have hread := readSealed_neverOk ceil ctl z n
  split
  · simp [NeverOk]
  · cases h : readSealed ceil ctl z n with
    | error e => rw [h] at hread; simpa [NeverOk] using hread
    | ok r => simp [NeverOk]

theorem xofSeekCmd_neverOk (ceil x : Nat) (v : Slot) : NeverOk (xofSeekCmd ceil x v) := by
  refine readerCmd_neverOk v fun ctl digest z => ?_
  have hseek := seekSealed_neverOk ceil ctl z x
  cases h : seekSealed ceil ctl z x with
  | error e => rw [h] at hseek; simpa [NeverOk] using hseek
  | ok r => simp [NeverOk]

theorem xofReadAtCmd_neverOk (ceil x n : Nat) (v : Slot) : NeverOk (xofReadAtCmd ceil x n v) := by
  refine readerCmd_neverOk v fun ctl digest z => ?_
  have hcheck := readAtCheck_neverOk ceil ctl z x n
  have hseek := seekSealed_neverOk ceil ctl z x
  split
  · simp [NeverOk]
  · cases hc : readAtCheck ceil ctl z x n with
    | error e => rw [hc] at hcheck; simpa [NeverOk] using hcheck
    | ok u =>
      cases hk : seekSealed ceil ctl z x with
      | error e => rw [hk] at hseek; simpa [NeverOk] using hseek
      | ok k =>
        have hread := readSealed_neverOk ceil k.val.ctl k.val.z n
        cases hq : readSealed ceil k.val.ctl k.val.z n with
        | error e => rw [hq] at hread; simpa [NeverOk, hq] using hread
        | ok q => simp [NeverOk, hq]

/-- A command that answers `OK` has succeeded, and what it answers is its payload. -/
theorem runOn_answers_ok {c : BitVec 4} {f : Slot → Except Status Result} {s t : State} {out : List Byte}
    (hf : NeverOk (f (s.slot c))) (h : runOn c f s = .next t)
    (hrsp : t.rsp = s.rsp ++ responseFrame .ok out) :
    ∃ r, f (s.slot c) = .ok r ∧ r.payload = out ∧ t = s.answered c r.slot r.txs r.payload := by
  obtain ⟨e, hcmd, hrun⟩ | ⟨r, hcmd, hrun⟩ := runOn_cases c f s <;>
    obtain rfl := Host.Outcome.next.inj (h.symm.trans hrun)
  · obtain ⟨rfl, -⟩ := responseFrame_inj (List.append_cancel_left hrsp)
    exact absurd hcmd hf
  · exact ⟨r, hcmd, (responseFrame_inj (List.append_cancel_left hrsp)).2, rfl⟩

theorem xofReadCmd_of_reader {ceil n : Nat} {ctl : Ctl} {digest : List Byte} {z : Sealed} {q : Traced Reading}
    (hx : ctl.xof = true) (hn : n ≠ 0) (hq : readSealed ceil ctl z n = .ok q) :
    xofReadCmd ceil n (.sealed ctl digest z) = .ok (readingResult digest q) := by
  rw [xofReadCmd, readerCmd_of_reader hx, if_neg hn, hq]

theorem xofSeekCmd_of_reader {ceil x : Nat} {ctl : Ctl} {digest : List Byte} {z : Sealed} {k : Traced Reading}
    (hx : ctl.xof = true) (hk : seekSealed ceil ctl z x = .ok k) :
    xofSeekCmd ceil x (.sealed ctl digest z) = .ok (readingResult digest k) := by
  rw [xofSeekCmd, readerCmd_of_reader hx, hk]

theorem reading_xof {ceil : Nat} {ctl : Ctl} {z : Sealed} {q : Traced Reading} (h : ReadKeeps ceil ctl z q) :
    q.val.ctl.xof = ctl.xof := by
  rw [h.others]

theorem seekSealed_out {ceil : Nat} {ctl : Ctl} {z : Sealed} {x : Nat} {k : Traced Reading}
    (h : seekSealed ceil ctl z x = .ok k) : k.val.out = [] := by
  obtain ⟨a, m, -, -, rfl⟩ | ⟨a, m, d, -, -, rfl⟩ | ⟨p, m, h0, -, rfl⟩ := seekSealed_cases ceil ctl z x k h
  all_goals rfl

/-- Where the seek and then the read succeed, the checks made before both pass. -/
theorem readAtCheck_of_seek_read {ceil : Nat} {ctl : Ctl} {z : Sealed} {x n : Nat} {k q : Traced Reading}
    (hk : seekSealed ceil ctl z x = .ok k) (hq : readSealed ceil k.val.ctl k.val.z n = .ok q) :
    readAtCheck ceil ctl z x n = .ok () := by
  obtain ⟨a, m, rfl, hle, rfl⟩ | ⟨a, m, d, rfl, hle, rfl⟩ | ⟨p, m, h0, rfl, rfl⟩ :=
    seekSealed_cases ceil ctl z x k hk
  · exact if_neg (not_lt.mpr hle)
  · have hread : ¬ceil < x + n := fun hlt => by
      rw [pure_val, readSealed, if_pos hlt] at hq
      cases hq
    exact if_neg (not_or.mpr ⟨not_lt.mpr hle, hread⟩)
  · rfl

/-- XOF_READ_AT on a slot succeeds exactly when the seek and then the read do, with their effects joined. -/
theorem xofReadAtCmd_ok_iff {ceil x n : Nat} (hn : n ≠ 0) (v : Slot) (r : Result) :
    xofReadAtCmd ceil x n v = .ok r ↔
      ∃ k q, xofSeekCmd ceil x v = .ok k ∧ xofReadCmd ceil n k.slot = .ok q ∧
        r = ⟨q.slot, q.payload, k.txs ++ q.txs⟩ := by
  constructor
  · intro h
    obtain ⟨ctl, digest, z, rfl, hx, ⟨h0, -⟩ | ⟨-, -, k, q, hk, hq, rfl⟩⟩ := xofReadAt_ok h
    · exact absurd h0 hn
    · have hkx : k.val.ctl.xof = true := (reading_xof (seekSealed_keeps hk)).trans hx
      exact ⟨_, _, xofSeekCmd_of_reader hx hk, xofReadCmd_of_reader hkx hn hq, rfl⟩
  · rintro ⟨k', q', hseek, hread, rfl⟩
    obtain ⟨ctl, digest, z, rfl, hx, k, hk, rfl⟩ := xofSeek_ok hseek
    obtain ⟨ctl', digest', z', hslot, -, ⟨h0, -⟩ | ⟨-, q, hq, rfl⟩⟩ := xofRead_ok hread
    · exact absurd h0 hn
    · obtain ⟨rfl, rfl, rfl⟩ := Slot.sealed.inj hslot
      rw [xofReadAtCmd, readerCmd_of_reader hx, if_neg hn, readAtCheck_of_seek_read hk hq, hk]
      simp only [hq]
      rfl

theorem affect_affect (s : State) (c : BitVec 4) (e f : Effect) :
    (s.affect c e).affect c f = s.affect c ⟨f.slot, e.rsp ++ f.rsp, e.txs ++ f.txs⟩ := by
  simp [State.affect, State.setSlot]

theorem answered_answered (s : State) (c : BitVec 4) (v w : Slot) (txs uxs : List Tx) (p q : List Byte) :
    (s.answered c v txs p).answered c w uxs q =
      s.affect c ⟨w, responseFrame .ok p ++ responseFrame .ok q, txs ++ uxs⟩ := by
  rw [answered_eq_affect, answered_eq_affect, affect_affect]

theorem runAll_cons {i : Instr} {is : List Instr} {s t : State} (h : exec i s = .next t) :
    runAll (i :: is) s = runAll is t := by
  rw [runAll, h]

theorem runAll_pair {i j : Instr} {s t u : State} (hi : exec i s = .next t) (hj : exec j t = .next u) :
    runAll [i, j] s = .next u := by
  rw [runAll_cons hi, runAll_cons hj, runAll]

/-- Two commands one after another both end. -/
theorem runAll_pair_inv {i j : Instr} {s u : State} (h : runAll [i, j] s = .next u) :
    ∃ t, exec i s = .next t ∧ exec j t = .next u := by
  obtain ⟨t, -, -, -, ht, -⟩ := oneResponse i s
  obtain ⟨v, -, -, -, hv, -⟩ := oneResponse j t
  rw [runAll_pair ht hv] at h
  exact ⟨t, ht, hv.trans h⟩

theorem xofSeekCmd_payload {ceil x : Nat} {v : Slot} {k : Result} (h : xofSeekCmd ceil x v = .ok k) :
    k.payload = [] := by
  obtain ⟨ctl, digest, z, -, -, r, hr, rfl⟩ := xofSeek_ok h
  exact seekSealed_out hr

/-- The first of two responses that begins as an `OK` without payload does is one. -/
theorem first_response_ok {e st : Status} {p out : List Byte}
    (h : responseFrame e [] ++ responseFrame st p = responseFrame .ok [] ++ responseFrame .ok out) :
    e = .ok :=
  (responseFrame_inj (List.append_inj_left h (by simp [responseFrame]))).1

/-- Settles O55: where one answers `OK` throughout so does the other, and the two effects are the same but for the
empty response of the seek. -/
theorem readAtIsSeekThenRead : Obligations.ReadAtIsSeekThenRead := by
  intro c pos len s out ctx cport hlen
  have hiff := xofReadAtCmd_ok_iff (ceil := s.params.b3Ceil) (x := pos.toNat) (Nat.ne_of_gt hlen) (s.slot c)
  constructor
  · intro hexec
    obtain ⟨r, hcmd, hout, ht⟩ := runOn_answers_ok (xofReadAtCmd_neverOk _ _ _ _) hexec rfl
    obtain ⟨k, q, hseek, hread, rfl⟩ := (hiff r).mp hcmd
    have h1 : exec (.xofSeek c pos) s = .next (s.answered c k.slot k.txs k.payload) := runOn_ok hseek
    have h2 : exec (.xofRead c len) (s.answered c k.slot k.txs k.payload) = .next _ :=
      runOn_ok (by rw [slot_answered_self]; exact hread)
    obtain ⟨-, hctx, -, -, hcport⟩ := State.mk.inj ht
    rw [runAll_pair h1 h2, answered_answered, xofSeekCmd_payload hseek, hctx, hcport, hout, List.append_assoc]
    rfl
  · intro hrun
    obtain ⟨t, h1, h2⟩ := runAll_pair_inv hrun
    obtain ⟨e, hseek, ht⟩ | ⟨k, hseek, ht⟩ := runOn_cases c (xofSeekCmd s.params.b3Ceil pos.toNat) s <;>
      obtain rfl := Host.Outcome.next.inj (h1.symm.trans ht)
    · obtain ⟨v, st, p, -, hv, -, -, -, hrsp, -⟩ := oneResponse (.xofRead c len) (s.failed e)
      obtain rfl := Host.Outcome.next.inj (h2.symm.trans hv)
      rw [← responseFrame_eq, failed_rsp, List.append_assoc, List.append_assoc] at hrsp
      obtain rfl := first_response_ok (List.append_cancel_left hrsp).symm
      exact absurd hseek (xofSeekCmd_neverOk _ _ _)
    · rw [xofSeekCmd_payload hseek] at h2
      obtain ⟨q, hread, hout, hu⟩ := runOn_answers_ok (xofReadCmd_neverOk _ _ _) h2 rfl
      rw [slot_answered_self] at hread
      have h3 : exec (.xofReadAt c pos len) s = .next (s.answered c q.slot (k.txs ++ q.txs) q.payload) :=
        runOn_ok (r := ⟨q.slot, q.payload, k.txs ++ q.txs⟩) ((hiff _).mpr ⟨k, q, hseek, hread, rfl⟩)
      rw [answered_answered] at hu
      obtain ⟨-, hctx, -, -, hcport⟩ := State.mk.inj hu
      rw [h3, hctx, hcport, ← hout]
      rfl

/-! ### Consecutive reads (44_xof_adapter.md R243) -/

theorem range_map_append {α : Type} (f : Nat → α) (m n : Nat) :
    (List.range m).map f ++ (List.range n).map (fun i => f (m + i)) = (List.range (m + n)).map f := by
  rw [map_range_round (Nat.le_add_right m n) f, Nat.add_sub_cancel_left]

theorem squeeze_append (a : SpongeAlg) (s : HashState .keccak) (x m n : Nat) :
    let r := (spongeSqueeze a s x m).val
    let r' := (spongeSqueeze a r.s r.xpos n).val
    (spongeSqueeze a s x (m + n)).val = ⟨r.out ++ r'.out, r'.s, r'.xpos⟩ := by
  obtain ⟨S, hS, rfl⟩ := squeezeState_of_any a s x
  have hmono : squeezeIndex a x ≤ squeezeIndex a (x + m) := squeezeIndex_mono a (Nat.le_add_right x m)
  have h (k : Nat) := (squeezeLoop_spec hS k x k le_rfl le_rfl).1
  have h' := (squeezeLoop_spec hS n (x + m) n le_rfl hmono).1
  unfold spongeSqueeze
  intro r r'
  have hr : r = _ := h m
  have hr' : r' = ⟨(List.range n).map fun i => laneByte a S (x + m + i), S (squeezeIndex a (x + m + n)),
      x + m + n⟩ := by
    simp only [r', hr]
    exact h'
  rw [h, hr, hr', Squeezed.mk.injEq]
  refine ⟨?_, by rw [Nat.add_assoc], by rw [Nat.add_assoc]⟩
  rw [← range_map_append]
  simp only [Nat.add_assoc]

/-- A read of `m` bytes and one of `n` more are one of `m + n`. -/
theorem readSealed_append {ceil : Nat} {ctl : Ctl} {z : Sealed} {m n : Nat} {q r : Traced Reading}
    (hx : ctl.xof = true) (hq : readSealed ceil ctl z m = .ok q)
    (hr : readSealed ceil q.val.ctl q.val.z n = .ok r) :
    ∃ t, readSealed ceil ctl z (m + n) = .ok t ∧ t.val = ⟨q.val.out ++ r.val.out, r.val.ctl, r.val.z⟩ := by
  obtain ⟨a, y, rfl, rfl⟩ | ⟨a, y, d, rfl, hle, rfl⟩ | ⟨p, y, h0, rfl, rfl⟩ :=
    readSealed_cases ceil ctl z m q hq
  · obtain rfl := Except.ok.inj hr
    refine ⟨_, rfl, ?_⟩
    simp only [map_val]
    rw [squeeze_append]
  · have hle' : ctl.xpos + m + n ≤ ceil := by
      by_contra hlt
      rw [map_val, readSealed, if_pos (show ceil < ctl.xpos + m + n by omega)] at hr
      cases hr
    rw [map_val, readSealed_b3 hle'] at hr
    obtain rfl := Except.ok.inj hr
    refine ⟨_, readSealed_b3 (by omega), ?_⟩
    simp only [map_val, b3Read_val]
    rw [← range_map_append, Nat.add_assoc]
    simp only [Nat.add_assoc]
  · rw [map_val, readSealed_b2x (by exact hx)] at hr
    obtain rfl := Except.ok.inj hr
    refine ⟨_, readSealed_b2x hx _, ?_⟩
    simp only [map_val, hx, b2xRead_val, b2xXout_add_mod, Nat.mod_add_mod, Nat.add_assoc]
    rw [← range_map_append]
    simp only [b2xXout_mod_period]

theorem xofReadCmd_append {ceil m n : Nat} {v : Slot} {q r : Result} (hq : xofReadCmd ceil m v = .ok q)
    (hr : xofReadCmd ceil n q.slot = .ok r) :
    ∃ t, xofReadCmd ceil (m + n) v = .ok t ∧ t.slot = r.slot ∧ t.payload = q.payload ++ r.payload := by
  obtain ⟨ctl, digest, z, rfl, hx, ⟨rfl, rfl⟩ | ⟨hm, k, hk, rfl⟩⟩ := xofRead_ok hq
  · exact ⟨r, by rw [Nat.zero_add]; exact hr, rfl, rfl⟩
  · obtain ⟨ctl', digest', z', hslot, -, ⟨rfl, rfl⟩ | ⟨hn, l, hl, rfl⟩⟩ := xofRead_ok hr
    · exact ⟨_, hq, hslot, (List.append_nil _).symm⟩
    · obtain ⟨rfl, rfl, rfl⟩ := Slot.sealed.inj hslot
      obtain ⟨t, ht, hval⟩ := readSealed_append hx hk hl
      exact ⟨_, xofReadCmd_of_reader hx (by omega) ht, by rw [readingResult, hval]; rfl,
        by rw [readingResult, hval]; rfl⟩

/-- Settles O57. -/
theorem readsConcatenate : Obligations.ReadsConcatenate := by
  intro c a b s t u outA outB hsum hA hrspA hB hrspB
  obtain ⟨q, hq, rfl, rfl⟩ := runOn_answers_ok (xofReadCmd_neverOk _ _ _) hA hrspA
  obtain ⟨r, hr, rfl, rfl⟩ := runOn_answers_ok (xofReadCmd_neverOk _ _ _) hB hrspB
  rw [slot_answered_self] at hr
  obtain ⟨k, hk, hslot, hpay⟩ := xofReadCmd_append hq hr
  have hadd : (a + b).toNat = a.toNat + b.toNat := by rw [BitVec.toNat_add, Nat.mod_eq_of_lt hsum]
  have hexec : exec (.xofRead c (a + b)) s = .next (s.answered c k.slot k.txs k.payload) :=
    runOn_ok (by rw [hadd]; exact hk)
  refine ⟨_, hexec, ?_, by rw [answered_rsp, hpay]⟩
  rw [answered_answered, hslot]
  rfl

end Sys2Proof.Machine
end

section
/-! PROOFS. FINALIZE of the classes with an output stream (41_incremental_hasher.md R158, R159; 42_blake3_tree.md R188;
44_xof_adapter.md R257): the state sealed, then, for a digest, the first bytes of the stream. -/

namespace Sys2Proof.Machine

/-! ### Class SPONGE -/

theorem sealClass_sponge_reader {a : SpongeAlg} {m : SpongeState} {ctl : Ctl} (hx : ctl.xof = true) :
    sealClass ctl (.sponge a m) = (spongeFinalize a m).map fun m' => ⟨[], .sponge a m'⟩ := by
  rw [sealClass, sealSponge, map_eq_bind]
  simp only [hx, if_true]

theorem sealClass_sponge_digest {a : SpongeAlg} {m : SpongeState} {ctl : Ctl} (hx : ctl.xof = false) :
    sealClass ctl (.sponge a m) = (spongeFinalize a m).bind fun m' =>
      (spongeSqueeze a m'.s 0 ctl.dlen).map fun r => ⟨r.out, .sponge a { m' with s := r.s }⟩ := by
  rw [sealClass, sealSponge]
  simp only [hx, Bool.false_eq_true, if_false]

/-- Settles O40. -/
theorem finalizeSponge : Obligations.FinalizeSponge := by
  intro a m ctl s0 r tx
  refine ⟨fun hx => ?_, fun hx => ?_⟩
  · simp only [r, sealClass_sponge_reader hx]
    exact ⟨rfl, rfl⟩
  · obtain ⟨hval, htxs⟩ := spongeSqueeze_spec a s0 0 ctl.dlen
    have hval' : (spongeSqueeze a s0 0 ctl.dlen).val.out = (List.range ctl.dlen).map (spongeXout a s0) := by
      have h := congrArg Squeezed.out hval
      simp only [Nat.zero_add] at h
      exact h
    have htxs' : (spongeSqueeze a s0 0 ctl.dlen).txs.length = ceilDiv ctl.dlen (rate a) - 1 := by
      rw [Nat.zero_add, ceilDiv_eq 0 (rate_pos a), if_pos rfl] at htxs
      exact htxs
    simp only [r, sealClass_sponge_digest hx]
    refine ⟨hval', rfl, ?_⟩
    rw [bind_txs, map_txs, List.length_append]
    exact congrArg₂ (· + ·) rfl htxs'

/-! ### Class B3 -/

theorem sealClass_b3_digest {a : B3Alg} {m : B3State} {ctl : Ctl} (hx : ctl.xof = false) :
    sealClass ctl (.b3 a m) = (b3Root m).bind fun d =>
      (b3Read d 0 ctl.dlen).map fun out => ⟨out, .b3 a { m with stack := [] } d⟩ := by
  rw [sealClass, sealB3]
  simp only [digestUnless, hx, Bool.false_eq_true, if_false]

/-- Settles O48. -/
theorem finalizeB3 : Obligations.FinalizeB3 := by
  intro a m ctl r z
  refine ⟨fun hx => ?_, fun hx => ?_⟩
  · rw [sealClass, sealB3]
    simp only [digestUnless, hx, if_true]
    exact ⟨rfl, List.append_nil _⟩
  · rw [sealClass_b3_digest hx]
    refine traced_ext ?_ ?_
    · simp only [bind_val, map_val, b3Read_val, Nat.zero_add]
      rfl
    · rw [bind_txs, map_txs, b3Read_txs_eq, blocksTouched_zero (by decide)]
      simp only [Nat.zero_div, Nat.zero_add]
      rfl

/-! ### Class B2X -/

theorem ceilDiv_le_self {n b : Nat} (hb : 0 < b) : ceilDiv n b ≤ n := by
  rw [ceilDiv_eq _ hb]
  split
  · exact Nat.zero_le _
  · have := Nat.div_le_self (n - 1) b
    omega

/-- The digest of a fixed length is its expansion blocks, the last one cut (44_xof_adapter.md R259). -/
theorem b2xRead_fixed (p : B2Prim) (m : B2XState p) (h0 : List Byte) {n : Nat} (hn : m.xlen = n)
    (h : n < xlenSent p) :
    b2xRead p false m h0 0 n =
      ⟨(List.range (ceilDiv n (b2Out p))).flatMap fun b => (b2xBlock p false m h0 b).val,
        (List.range (ceilDiv n (b2Out p))).flatMap fun b => (b2xBlock p false m h0 b).txs⟩ := by
  subst hn
  have hob := b2Out_pos p
  have hsent := xlenSent_le p
  have hindex {b : Nat} (hb : b ∈ List.range (ceilDiv m.xlen (b2Out p))) : b % 2 ^ 32 = b := by
    have := ceilDiv_le_self (n := m.xlen) hob
    rw [List.mem_range] at hb
    exact Nat.mod_eq_of_lt (by omega)
  refine traced_ext ?_ ?_
  · have hval := readBlocks_aligned (fun j => b2xBlock p false m h0 (j % 2 ^ 32)) hob m.xlen 0 m.xlen le_rfl
    rw [Nat.mul_zero, blocksTouched_zero hob] at hval
    rw [b2xRead, hval]
    refine List.flatMap_congr fun b hb => ?_
    rw [Nat.zero_add, hindex hb]
    exact List.take_of_length_le (b2xBlock_length p false m h0 b).le
  · rw [b2xRead, readBlocks_txs_eq _ hob _ _ _ le_rfl, blocksTouched_zero hob, Nat.zero_div]
    refine List.flatMap_congr fun b hb => ?_
    rw [Nat.zero_add, hindex hb]

theorem b2FullOut_length (p : B2Prim) (h : HashState p.prim) : (leWords h.toList).length = b2Out p := by
  rw [leWords_length, Vector.length_toList, b2State_bytes]

/-- Settles O45: the outer hash, then one expansion block for each `OB` bytes of the digest. -/
theorem finalizeB2x : Obligations.FinalizeB2x := by
  intro p m ctl t f h outer h0 z osz iv nb
  have hlen : h0.length = b2Out p := b2FullOut_length p h
  have houter : b2Finalize p m.inst (b2Out p) = ⟨({ m.inst with h := h, t := t }, h0), [outer]⟩ := by
    rw [b2Finalize_eq, Traced.map, compress_val, compress_txs]
    exact congrArg (fun bytes => (⟨(_, bytes), [outer]⟩ : Traced (B2Inst p × List Byte)))
      (List.take_of_length_le hlen.le)
  refine ⟨hlen, fun hx => ?_, fun hx hxlen hsent => ?_⟩
  · rw [sealClass, sealB2x, houter]
    simp only [digestUnless, hx, if_true]
    exact ⟨rfl, rfl⟩
  · have hread := b2xRead_fixed p { m with inst := { m.inst with h := h, t := t } } h0 hxlen hsent
    rw [sealClass, sealB2x, houter]
    simp only [digestUnless, hx, Bool.false_eq_true, if_false]
    refine traced_ext ?_ ?_
    · exact congrArg (fun d => (⟨d, z⟩ : SealedWith)) (congrArg Traced.val hread)
    · rw [List.map_eq_flatMap]
      exact congrArg (outer :: ·) (congrArg Traced.txs hread)

/-! ### The root descriptor (42_blake3_tree.md R188 to R192) -/

theorem popcount_eq_zero_iff (n : Nat) : popcount n = 0 ↔ n = 0 := by
  induction n using Nat.strong_induction_on with
  | _ n ih =>
    by_cases hn : n = 0
    · simp [hn]
    · rw [popcount_half, Nat.add_eq_zero_iff, ih (n / 2) (by omega)]
      omega

/-- No stack entry is at most one chunk. -/
theorem stack_nil_iff {m : B3State} {a : B3Alg} {total : Nat} (h : m.legal a total = true) :
    m.stack = [] ↔ total ≤ 1024 := by
  obtain ⟨hinv, hrec, htail, -⟩ := (b3Legal_iff m a total).mp h
  have hb := hinv.blocks
  have ht := hinv.tail
  rw [← List.length_eq_zero_iff, hinv.stack, popcount_eq_zero_iff]
  unfold b3Received at hrec
  constructor
  · intro h0
    omega
  · intro hle
    by_contra h0
    have hnil : m.tail = [] := List.length_eq_zero_iff.mp (by omega)
    have := htail hnil
    omega

theorem endChunkFlags_eq (m : B3State) :
    endChunkFlags m = m.base ||| (if m.blocks = 0 then 0x01 else 0) ||| 0x02 := rfl

/-- A merge, as a value. -/
def mergeCv (keyw : ChainVal) (base : BitVec 7) (left right : ChainVal) : ChainVal :=
  firstEight (Config.compressB3 keyw (leWords left.toList ++ leWords right.toList) 0 64 (base ||| 0x04))

theorem parentCv_val (keyw : ChainVal) (base : BitVec 7) (left right : ChainVal) :
    (parentCv keyw base left right).val = mergeCv keyw base left right := rfl

/-- The merges of FINALIZE fold the last chaining value over the younger entries, the most recent first; the oldest
entry and the fold make the root. -/
theorem finalMerges_val (keyw : ChainVal) (base : BitVec 7) (left : ChainVal) (older : List ChainVal)
    (cv : ChainVal) :
    (finalMerges keyw base left older cv).val =
      parentRoot keyw base ((left :: older).getLast (by simp))
        ((left :: older).dropLast.foldl (fun cv l => mergeCv keyw base l cv) cv) := by
  induction older generalizing left cv with
  | nil => rfl
  | cons o rest ih => rw [finalMerges, bind_val, ih]; rfl

theorem finalMerges_count (keyw : ChainVal) (base : BitVec 7) (left : ChainVal) (older : List ChainVal)
    (cv : ChainVal) : (finalMerges keyw base left older cv).txs.length = older.length := by
  induction older generalizing left cv with
  | nil => rfl
  | cons o rest ih =>
    rw [finalMerges, bind_txs, List.length_append, ih, parentCv, compressCv_txs, List.length_singleton,
      List.length_cons, Nat.add_comm]

theorem b3Root_nil {m : B3State} (h : m.stack = []) :
    b3Root m = .pure ⟨m.cv, zpad m.tail 64, m.tail.length, endChunkFlags m ||| ROOT⟩ := by
  rw [b3Root, h]

theorem b3Root_cons {m : B3State} {left : ChainVal} {older : List ChainVal} (h : m.stack = left :: older) :
    b3Root m =
      (compressCv m.cv (zpad m.tail 64) m.cidx m.tail.length (endChunkFlags m)).bind fun cv =>
        finalMerges m.keyw m.base left older cv := by
  rw [b3Root, h]

theorem b3Root_count (m : B3State) : (b3Root m).txs.length = m.stack.length := by
  cases h : m.stack with
  | nil => rw [b3Root_nil h]; rfl
  | cons left older =>
    rw [b3Root_cons h, bind_txs, List.length_append, finalMerges_count, compressCv_txs,
      List.length_singleton, List.length_cons, Nat.add_comm]

/-- Settles O46. -/
theorem rootDescriptor : Obligations.RootDescriptor := by
  intro m a total hl start
  refine ⟨stack_nil_iff hl, b3Root_nil, fun oldest hold => ?_, b3Root_count m,
    fun hne => ?_⟩
  · intro parent chunk right
    cases h : m.stack with
    | nil => rw [h] at hold; cases hold
    | cons left older =>
      have hlast : (left :: older).getLast (by simp) = oldest := by
        rw [h, List.getLast?_eq_getLast_of_ne_nil (by simp)] at hold
        exact Option.some.inj hold
      rw [b3Root_cons h, bind_val, finalMerges_val, hlast]
      simp only [right, h]
      rfl
  · obtain ⟨left, older, h⟩ := List.exists_cons_of_ne_nil hne
    rw [b3Root_cons h]
    rfl

end Sys2Proof.Machine
end

section
/-! PROOFS. Whole computations, NEW to FINALIZE, as one effect on the slot: it depends on the message and on the number
of its pieces alone (41_incremental_hasher.md R133), and for BLAKE3 its digest is the beginning of one stream
(44_xof_adapter.md R253). -/

namespace Sys2Proof.Machine

/-! ### Runs -/

theorem runAll_append {is js : List Instr} {s t : State} (h : runAll is s = .next t) :
    runAll (is ++ js) s = runAll js t := by
  induction is generalizing s with
  | nil => cases h; rfl
  | cons i is ih =>
    obtain ⟨u, -, -, -, hu, -⟩ := oneResponse i s
    rw [runAll_cons hu] at h
    rw [List.cons_append, runAll_cons hu, ih h]

theorem runAll_singleton {i : Instr} {s t : State} (h : exec i s = .next t) : runAll [i] s = .next t := by
  rw [runAll_cons h, runAll]

/-! ### ABSORB in pieces -/

/-- Two pieces absorbed one after another are both absorbed at once. -/
theorem absorbClass_append {ctl : Ctl} {h : Hasher} (hl : h.legal ctl = true) (d e : List Byte) :
    absorbClass ctl.total h (d ++ e) =
      (absorbClass ctl.total h d).bind fun h' => absorbClass (ctl.total + d.length) h' e := by
  cases h with
  | md a m => rw [absorbClass, mdAbsorb_append]; rfl
  | sponge a m => rw [absorbClass, spongeAbsorb_append]; rfl
  | b2 p m => rw [absorbClass, b2Absorb_append]; rfl
  | b2p p m => rw [absorbClass, b2pAbsorb_eq, leavesAbsorb_append]; rfl
  | b2x p m => rw [absorbClass, b2Absorb_append]; rfl
  | b3 a m =>
    obtain ⟨hinv, -⟩ := (b3Legal_iff m a ctl.total).mp hl
    rw [absorbClass, b3Absorb_append m d e hinv]
    rfl

/-- The effect of ABSORBs that together bring `msg`, in `k` pieces. -/
def absorbEffect (ctl : Ctl) (h : Hasher) (msg : List Byte) (k : Nat) : Effect where
  slot := .absorbing { ctl with total := ctl.total + msg.length } (absorbClass ctl.total h msg).val
  rsp := (List.replicate k (responseFrame .ok [])).flatten
  txs := (absorbClass ctl.total h msg).txs

theorem absorbEffect_nil {ctl : Ctl} {h : Hasher} (hl : h.legal ctl = true) :
    absorbEffect ctl h [] 0 = ⟨.absorbing ctl h, [], []⟩ := by
  rw [absorbEffect, absorbClass_nil hl]
  rfl

/-- One piece and then the others. -/
theorem absorbEffect_cons {ctl : Ctl} {h : Hasher} (hl : h.legal ctl = true) (d msg : List Byte) (k : Nat) :
    absorbEffect ctl h (d ++ msg) (k + 1) =
      ⟨(absorbEffect { ctl with total := ctl.total + d.length } (absorbClass ctl.total h d).val msg k).slot,
        responseFrame .ok [] ++
          (absorbEffect { ctl with total := ctl.total + d.length } (absorbClass ctl.total h d).val msg k).rsp,
        (absorbClass ctl.total h d).txs ++
          (absorbEffect { ctl with total := ctl.total + d.length } (absorbClass ctl.total h d).val msg k).txs⟩ := by
  simp only [absorbEffect, absorbClass_append hl, List.length_append, Nat.add_assoc]
  rfl

theorem affect_own (s : State) (c : BitVec 4) : s.affect c ⟨s.slot c, [], []⟩ = s := by
  rw [State.affect, setSlot_slot, List.append_nil, List.append_nil]

theorem runAll_absorbs {c : BitVec 4} (pieces : List (List Byte)) {s : State} {ctl : Ctl} {h : Hasher}
    (hs : s.slot c = .absorbing ctl h) (hl : h.legal ctl = true) :
    runAll (pieces.map (.absorb c)) s =
      .next (s.affect c (absorbEffect ctl h pieces.flatten pieces.length)) := by
  induction pieces generalizing s ctl h with
  | nil => rw [List.flatten_nil, List.length_nil, absorbEffect_nil hl, ← hs, affect_own]; rfl
  | cons d pieces ih =>
    rw [List.map_cons, runAll_cons (exec_absorb d hs), answered_eq_affect,
      ih (slot_affect_self s c _) (absorbClass_legal ctl h d hl), affect_affect, List.flatten_cons,
      List.length_cons, absorbEffect_cons hl]

/-! ### NEW, ABSORBs, FINALIZE -/

/-- What the class finalization makes of a fresh context that has absorbed `msg`. -/
def hashSeal (C : Created) (msg : List Byte) : Traced SealedWith :=
  sealClass { C.ctl with total := C.ctl.total + msg.length } (absorbClass C.ctl.total C.h msg).val

/-- The answer of FINALIZE to it. -/
def hashAnswer (C : Created) (msg : List Byte) : List Byte :=
  responseFrame .ok (finalPayload C.ctl.xof (hashSeal C msg).val.digest)

/-- The effect of a whole computation on `msg`, brought in `k` pieces. -/
def hashEffect (C : Traced Created) (msg : List Byte) (k : Nat) : Effect where
  slot := .sealed { C.val.ctl with total := C.val.ctl.total + msg.length, xpos := 0 }
    (hashSeal C.val msg).val.digest (hashSeal C.val msg).val.z
  rsp := responseFrame .ok [] ++ (List.replicate k (responseFrame .ok [])).flatten ++ hashAnswer C.val msg
  txs := C.txs ++ (absorbClass C.val.ctl.total C.val.h msg).txs ++ (hashSeal C.val msg).txs

theorem runAll_hash {a : Alg} {c : BitVec 4} {xof : Bool} {dlen : BitVec 64} {key salt : List Byte} {s : State}
    (hcheck : newCheck s.params.b3Ceil a xof dlen.toNat key.length salt.length = .ok ())
    (pieces : List (List Byte)) :
    runAll ([.new a c xof dlen key salt] ++ pieces.map (.absorb c) ++ [.finalize c]) s =
      .next (s.affect c (hashEffect (create a xof dlen.toNat key salt) pieces.flatten pieces.length)) := by
  obtain ⟨-, -, -, hlegal⟩ := create_legal _ a xof dlen.toNat key salt hcheck
  have hnew := runAll_singleton (exec_new_of_ok (c := c) hcheck)
  generalize create a xof dlen.toNat key salt = C at hlegal hnew ⊢
  have hslot : (s.answered c (.absorbing C.val.ctl C.val.h) C.txs []).slot c = .absorbing C.val.ctl C.val.h :=
    slot_affect_self s c ⟨_, _, _⟩
  have habsorb := runAll_absorbs pieces hslot hlegal
  have hslot' := slot_affect_self (s.answered c (.absorbing C.val.ctl C.val.h) C.txs []) c
    (absorbEffect C.val.ctl C.val.h pieces.flatten pieces.length)
  have hfin := runAll_singleton (exec_finalize hslot')
  rw [(runAll_append ((runAll_append hnew).trans habsorb)).trans hfin, answered_eq_affect, answered_eq_affect,
    affect_affect, affect_affect]
  simp only [hashEffect, absorbEffect, hashAnswer, hashSeal, List.append_assoc]

/-- Settles O33: the effect of the whole computation depends on how the message is cut only in the number of empty
responses. -/
theorem chunkingInvariance : Obligations.ChunkingInvariance := by
  intro a c xof dlen key salt pieces s hcheck
  have hcut := runAll_hash (c := c) hcheck pieces
  have hwhole := runAll_hash (c := c) hcheck [pieces.flatten]
  rw [List.flatten_singleton] at hwhole
  refine ⟨_, _, hashAnswer (create a xof dlen.toNat key salt).val pieces.flatten, hcut, hwhole, rfl, rfl, ?_, ?_⟩
  · simp only [hashEffect, State.affect, List.append_assoc]
  · simp only [hashEffect, State.affect, List.append_assoc, List.length_singleton, List.replicate_one,
      List.flatten_singleton]

/-! ### BLAKE3: one stream for every length (44_xof_adapter.md R253) -/

/-- What NEW of a `B3` algorithm creates does not depend on the length asked for. -/
theorem create_b3 (alg : B3Alg) (key : List Byte) :
    ∃ m, ∀ xof dlen, (create (.b3 alg) xof dlen key []).val = ⟨b3Ctl xof dlen, .b3 alg m⟩ := by
  cases alg with
  | blake3 => exact ⟨_, fun _ _ => rfl⟩
  | deriveKey => exact ⟨_, fun _ _ => rfl⟩

theorem newCheck_b3 {ceil : Nat} {alg : B3Alg} {xof : Bool} {dlen : Nat} {key : List Byte}
    (hkey : keyFits (.b3 alg) key.length = true) (hx : xof = true → dlen = 0) (hd : dlen ≤ ceil) :
    newCheck ceil (.b3 alg) xof dlen key.length ([] : List Byte).length = .ok () := by
  have hlen : lengthRequestValid (.b3 alg) xof dlen = true := by
    cases xof <;> simp [lengthRequestValid, hasXof, dlenValid, hx]
  have hvalid : NewOperandsValid (.b3 alg) xof dlen key.length ([] : List Byte).length :=
    ⟨hlen, hkey, Nat.zero_le _⟩
  rw [newCheck_of_valid hvalid, if_neg]
  simp [dlenUnsupported, hd]

/-- FINALIZE of a `B3` slot, by the descriptor alone. -/
theorem sealClass_b3_val (a : B3Alg) (m : B3State) (ctl : Ctl) :
    (sealClass ctl (.b3 a m)).val =
      ⟨if ctl.xof = true then [] else (List.range ctl.dlen).map (b3Xout (b3Root m).val),
        .b3 a { m with stack := [] } (b3Root m).val⟩ := by
  cases hx : ctl.xof with
  | true =>
    rw [sealClass, sealB3]
    simp only [digestUnless, hx, if_true]
    rfl
  | false =>
    rw [(finalizeB3 a m ctl).2 hx]
    rfl

/-- A whole computation of BLAKE3 ends in the same descriptor whatever length was asked for. -/
theorem hashSeal_b3 (alg : B3Alg) (key msg : List Byte) :
    ∃ (m : B3State) (r : RootD), ∀ xof dlen,
      let C := (create (.b3 alg) xof dlen key []).val
      C.ctl = b3Ctl xof dlen ∧ (hashSeal C msg).val =
        ⟨if xof = true then [] else (List.range (dlenOr 32 dlen)).map (b3Xout r), .b3 alg m r⟩ := by
  obtain ⟨m, hcreate⟩ := create_b3 alg key
  refine ⟨{ (b3Absorb m msg).val with stack := [] }, (b3Root (b3Absorb m msg).val).val, fun xof dlen => ?_⟩
  rw [hcreate]
  exact ⟨rfl, sealClass_b3_val alg (b3Absorb m msg).val _⟩

/-- The run of NEW, ABSORB and FINALIZE of BLAKE3: the length asked for decides only how much of the stream of the
descriptor is the digest. -/
theorem runAll_b3 (alg : B3Alg) (c : BitVec 4) (key msg : List Byte) :
    ∃ (m : B3State) (r : RootD), ∀ (xof : Bool) (dlen : BitVec 64) (s : State),
      keyFits (.b3 alg) key.length = true → (xof = true → dlen.toNat = 0) → dlen.toNat ≤ s.params.b3Ceil →
      let digest := if xof = true then [] else (List.range (dlenOr 32 dlen.toNat)).map (b3Xout r)
      ∃ t ctl, runAll [.new (.b3 alg) c xof dlen key [], .absorb c msg, .finalize c] s = .next t ∧
        t.params = s.params ∧ t.slot c = .sealed ctl digest (.b3 alg m r) ∧ ctl.xof = xof ∧
        t.rsp = s.rsp ++ responseFrame .ok [] ++ responseFrame .ok [] ++ responseFrame .ok digest := by
  obtain ⟨m, r, hseal⟩ := hashSeal_b3 alg key msg
  refine ⟨m, r, fun xof dlen s hkey hx hd => ?_⟩
  intro digest
  obtain ⟨hctl, hval⟩ := hseal xof dlen.toNat
  have hrun := runAll_hash (c := c) (newCheck_b3 (key := key) hkey hx hd) [msg]
  rw [List.flatten_singleton] at hrun
  have hanswer : hashAnswer (create (.b3 alg) xof dlen.toNat key []).val msg = responseFrame .ok digest := by
    rw [hashAnswer, hval, hctl]
    cases xof <;> rfl
  let ctl : Ctl := { b3Ctl xof dlen.toNat with total := (b3Ctl xof dlen.toNat).total + msg.length, xpos := 0 }
  refine ⟨_, ctl, hrun, rfl, ?_, rfl, ?_⟩
  · rw [slot_affect_self, hashEffect, hval, hctl]
  · simp only [hashEffect, State.affect, hanswer, List.append_assoc, List.length_singleton,
      List.replicate_one, List.flatten_singleton]

/-- Settles O58: all three digests are cut from the stream of one descriptor. -/
theorem prefixProperty : Obligations.PrefixProperty := by
  intro alg c key msg a b s hkey ha hab hb
  obtain ⟨m, r, hrun⟩ := runAll_b3 alg c key msg
  obtain ⟨t, -, ht, -, -, -, hrt⟩ := hrun false a s hkey (by simp) (by omega)
  obtain ⟨u, -, hu, -, -, -, hru⟩ := hrun false b s hkey (by simp) hb
  obtain ⟨w, ctl, hw, hparams, hslot, hxof, hrw⟩ := hrun true 0 s hkey (by simp) (Nat.zero_le _)
  rw [if_neg Bool.false_ne_true] at hrt hru
  rw [if_pos rfl] at hrw
  have hread := ((readAtSlice c 0 b w ctl _ hxof (by omega)).1 alg m r hslot).1
    (by rw [hparams]; simpa using hb)
  obtain ⟨txs, hread⟩ := hread
  simp only [dlenOr, ha.ne', (ha.trans hab).ne', if_false] at hrt hru
  refine ⟨t, u, _, (List.range a.toNat).map (b3Xout r), (List.range b.toNat).map (b3Xout r), ht, hu, (runAll_append hw).trans (runAll_singleton hread), hrt, hru, ?_, ?_, ?_⟩
  · rw [answered_rsp, hrw]
    simp
  · simp
  · rw [← List.map_take, List.take_range, Nat.min_eq_left hab.le]

end Sys2Proof.Machine
end

section
/-! PROOFS. The Parallel Tree Combiner at FINALIZE (43_parallel_combiner.md R223 to R226), two leaves at a time, and what
FINALIZE costs (70_reset_and_hazards.md R368). -/

namespace Sys2Proof.Machine

/-! ### Leaves by number -/

theorem nleaf_pos (p : B2Prim) : 0 < p.nleaf := by cases p <;> decide

/-- Leaf `k`, counted modulo the number of leaves. -/
def leafAt {p : B2Prim} (leaf : Vector (B2Inst p) p.nleaf) (k : Nat) : B2Inst p :=
  leaf[k % p.nleaf]'(Nat.mod_lt _ (nleaf_pos p))

theorem leafAt_of_lt {p : B2Prim} (leaf : Vector (B2Inst p) p.nleaf) {k : Nat} (hk : k < p.nleaf) :
    leafAt leaf k = leaf[k] := by
  simp only [leafAt, Nat.mod_eq_of_lt hk]

theorem leafAt_set_ne {p : B2Prim} (leaf : Vector (B2Inst p) p.nleaf) {k j : Nat} (hk : k < p.nleaf)
    (x : B2Inst p) (hj : j < p.nleaf) (hne : k ≠ j) : leafAt (leaf.set k x) j = leafAt leaf j := by
  rw [leafAt_of_lt _ hj, leafAt_of_lt _ hj, Vector.getElem_set_ne _ _ hne]

/-- Leaf `k` sealed at full width: what it leaves, its digest, its transaction. -/
def leafSeal {p : B2Prim} (leaf : Vector (B2Inst p) p.nleaf) (k : Nat) : Traced (B2Inst p × List Byte) :=
  b2Finalize p (leafAt leaf k) (b2Out p)

/-- The digests of leaves `2i` and `2i + 1`, which the root absorbs together (43_parallel_combiner.md R223). -/
def pairDigests {p : B2Prim} (leaf : Vector (B2Inst p) p.nleaf) (i : Nat) : List Byte :=
  (leafSeal leaf (2 * i)).val.2 ++ (leafSeal leaf (2 * i + 1)).val.2

theorem leafSeal_length {p : B2Prim} (leaf : Vector (B2Inst p) p.nleaf) (k : Nat) :
    (leafSeal leaf k).val.2.length = b2Out p := b2Finalize_out_length p _ _ le_rfl

theorem pairDigests_length {p : B2Prim} (leaf : Vector (B2Inst p) p.nleaf) (i : Nat) :
    (pairDigests leaf i).length = b2Block p := by
  rw [pairDigests, List.length_append, leafSeal_length, leafSeal_length, b2Block_eq, Nat.two_mul]

/-! ### The loop of FINALIZE, a pair of leaves at a time -/

/-- Two rounds: two leaves are sealed, the root absorbs their digests, and the loop goes on with the other leaves
as they were. -/
theorem b2pSealLoop_pair {p : B2Prim} (left i : Nat) (leaf : Vector (B2Inst p) p.nleaf) (prev : List Byte)
    (root : B2Inst p) (hi : 2 * i + 1 < p.nleaf) :
    ∃ leaf' prev', (∀ j, 2 * i + 1 < j → j < p.nleaf → leafAt leaf' j = leafAt leaf j) ∧
      b2pSealLoop p (left + 2) (2 * i) leaf prev root =
        (leafSeal leaf (2 * i)).bind fun _ => (leafSeal leaf (2 * i + 1)).bind fun _ =>
          (b2Absorb p root (pairDigests leaf i)).bind fun root' =>
            b2pSealLoop p left (2 * (i + 1)) leaf' prev' root' := by
  have hfirst : 2 * i < p.nleaf := by omega
  have heven : ¬2 * i % 2 = 1 := by omega
  have hodd : (2 * i + 1) % 2 = 1 := by omega
  have hsecond : (leaf.set (2 * i) (leafSeal leaf (2 * i)).val.1)[2 * i + 1] = leafAt leaf (2 * i + 1) := by
    rw [Vector.getElem_set_ne _ _ (by omega), leafAt_of_lt _ hi]
  refine ⟨(leaf.set (2 * i) (leafSeal leaf (2 * i)).val.1).set (2 * i + 1) (leafSeal leaf (2 * i + 1)).val.1,
    (leafSeal leaf (2 * i + 1)).val.2, fun j hj hjn => ?_, ?_⟩
  · rw [leafAt_set_ne _ hi _ hjn (by omega), leafAt_set_ne _ hfirst _ hjn (by omega)]
  · rw [b2pSealLoop, dif_pos hfirst, ← leafAt_of_lt leaf hfirst]
    apply bind_congr_val
    rw [feedRoot, if_neg heven, pure_bind, b2pSealLoop, dif_pos hi]
    change (b2Finalize p (leaf.set (2 * i) (leafSeal leaf (2 * i)).val.1)[2 * i + 1] (b2Out p)).bind _ = _
    rw [hsecond]
    apply bind_congr_val
    rw [feedRoot, if_pos hodd]
    rfl

/-- The root absorbs the digests of the leaves in order (43_parallel_combiner.md R224). -/
theorem b2pSealLoop_root {p : B2Prim} (n i : Nat) (leaf leaf₀ : Vector (B2Inst p) p.nleaf) (prev : List Byte)
    (root : B2Inst p) (hn : 2 * (i + n + 1) = p.nleaf)
    (hleaf : ∀ j, 2 * i ≤ j → j < p.nleaf → leafAt leaf j = leafAt leaf₀ j) :
    (b2pSealLoop p (2 * (n + 1)) (2 * i) leaf prev root).val.root =
      (b2Absorb p root ((List.range' i (n + 1)).flatMap (pairDigests leaf₀))).val := by
  have hpair : pairDigests leaf i = pairDigests leaf₀ i := by
    rw [pairDigests, leafSeal, leafSeal, hleaf _ le_rfl (by omega), hleaf _ (by omega) (by omega)]
    rfl
  obtain ⟨leaf', prev', hleaf', hloop⟩ := b2pSealLoop_pair (2 * n) i leaf prev root (by omega)
  rw [Nat.mul_add, hloop, bind_val, bind_val, bind_val, hpair]
  cases n with
  | zero => rw [List.range'_one, List.flatMap_singleton]; rfl
  | succ n =>
    rw [b2pSealLoop_root n (i + 1) leaf' leaf₀ _ _ (by omega)
      fun j h1 h2 => (hleaf' j (by omega) h2).trans (hleaf j (by omega) h2), List.range'_succ (s := i), List.flatMap_cons,
      b2Absorb_append, bind_val]

/-! ### Counters and flags -/

/-- What is asked of a transaction of the combiner. -/
def Tx.counterFlags (t : Tx) : Nat × BitVec 7 := (t.counter, t.flags)

theorem counterFlags_eq (txs : List Tx) :
    txs.map Tx.counterFlags = (txs.map Tx.args).map fun a => (a.2.1, a.2.2.2) := by
  rw [List.map_map]
  rfl

/-- Counter and flags of the last block of an instance. -/
def finalArgs {p : B2Prim} (m : B2Inst p) : Nat × BitVec 7 :=
  (m.received % 2 ^ (2 * p.prim.width), if m.lastNode = true then 0x3 else 0x1)

theorem b2Finalize_counterFlags {p : B2Prim} (m : B2Inst p) (n : Nat) :
    (b2Finalize p m n).txs.map Tx.counterFlags = [finalArgs m] := by
  rw [counterFlags_eq, b2Finalize_args]
  rfl

/-- The root when it has absorbed `i` pairs: it holds one block back. -/
theorem b2Absorb_pair {p : B2Prim} {root : B2Inst p} {d : List Byte} {i : Nat} (hlegal : root.legal = true)
    (hroot : root.received = i * b2Block p) (hd : d.length = b2Block p) :
    (b2Absorb p root d).txs.map Tx.counterFlags =
      if i = 0 then [] else [(i * b2Block p % 2 ^ (2 * p.prim.width), 0)] := by
  have hB := b2Block_pos p
  obtain ⟨hmod, hle, hempty⟩ := of_decide_eq_true hlegal
  rw [B2Inst.received] at hroot
  rw [counterFlags_eq, b2Absorb_args, b2Rounds, hd]
  by_cases htail : root.tail = []
  · have hi : i = 0 := by
      rw [hempty htail, htail, List.length_nil] at hroot
      exact (Nat.mul_eq_zero.mp hroot.symm).resolve_right hB.ne'
    rw [if_pos hi, htail, List.length_nil, Nat.zero_add, Nat.div_eq_of_lt (by omega)]
    rfl
  · have hfull : root.tail.length = b2Block p := by
      have hpos := List.length_pos_of_ne_nil htail
      have hdvd : b2Block p ∣ root.tail.length := by
        rw [← Nat.dvd_add_right (Nat.dvd_of_mod_eq_zero hmod), hroot]
        exact Nat.dvd_mul_left _ _
      exact Nat.le_antisymm hle (Nat.le_of_dvd hpos hdvd)
    have hi : i ≠ 0 := by
      rintro rfl
      omega
    have hone : (root.tail.length + b2Block p - 1) / b2Block p = 1 := by
      rw [hfull, Nat.div_eq_iff hB]
      omega
    rw [if_neg hi, hone, ← hroot, hfull]
    simp

/-- The transactions of the pair `j` of leaves: the two leaves, then the block the root held back. -/
def pairTrace {p : B2Prim} (leaf : Vector (B2Inst p) p.nleaf) (j : Nat) : List (Nat × BitVec 7) :=
  [finalArgs (leafAt leaf (2 * j)), finalArgs (leafAt leaf (2 * j + 1))] ++
    if j = 0 then [] else [(j * b2Block p % 2 ^ (2 * p.prim.width), 0)]

theorem b2pSealLoop_trace {p : B2Prim} (n i : Nat) (leaf leaf₀ : Vector (B2Inst p) p.nleaf) (prev : List Byte)
    (root : B2Inst p) (hn : 2 * (i + n) = p.nleaf)
    (hleaf : ∀ j, 2 * i ≤ j → j < p.nleaf → leafAt leaf j = leafAt leaf₀ j)
    (hlegal : root.legal = true) (hroot : root.received = i * b2Block p) :
    let r := b2pSealLoop p (2 * n) (2 * i) leaf prev root
    r.txs.map Tx.counterFlags = (List.range' i n).flatMap (pairTrace leaf₀) ∧
      r.val.root.received = (i + n) * b2Block p ∧ r.val.root.lastNode = root.lastNode := by
  induction n generalizing i leaf prev root with
  | zero => exact ⟨rfl, hroot, rfl⟩
  | succ n ih =>
    intro r
    obtain ⟨leaf', prev', hleaf', hloop⟩ := b2pSealLoop_pair (2 * n) i leaf prev root (by omega)
    have hlen := pairDigests_length leaf i
    obtain ⟨htxs, hreceived, hlast⟩ := ih (i + 1) leaf' prev' (b2Absorb p root (pairDigests leaf i)).val
      (by omega) (fun j h1 h2 => (hleaf' j (by omega) h2).trans (hleaf j (by omega) h2))
      (b2Absorb_legal p root _ hlegal) (by rw [b2Absorb_received, hroot, hlen, Nat.succ_mul])
    have hr : r = _ := hloop
    rw [hr]
    simp only [bind_txs, bind_val, List.map_append, htxs, b2Absorb_pair hlegal hroot hlen, leafSeal,
      b2Finalize_counterFlags]
    refine ⟨?_, ?_, hlast⟩
    · rw [hleaf _ le_rfl (by omega), hleaf _ (by omega) (by omega), List.range'_succ, List.flatMap_cons, pairTrace]
      simp only [List.cons_append, List.nil_append]
    · rw [hreceived, Nat.add_right_comm, Nat.add_assoc]

/-- The transactions of FINALIZE: those of the pairs, then the root's last block. -/
theorem b2pFinalize_trace {p : B2Prim} {m : B2PState p} {total : Nat} (n : Nat) (h : m.legal total = true) :
    (b2pFinalize p m n).txs.map Tx.counterFlags =
      (List.range (p.nleaf / 2)).flatMap (pairTrace m.leaf) ++
        [(p.nleaf / 2 * b2Block p % 2 ^ (2 * p.prim.width), 0x3)] := by
  simp only [B2PState.legal, Bool.and_eq_true, decide_eq_true_eq] at h
  obtain ⟨-, ht, htail, hlast⟩ := h
  have hpairs : 2 * (0 + p.nleaf / 2) = p.nleaf := by cases p <;> rfl
  obtain ⟨htxs, hreceived, hlast'⟩ := b2pSealLoop_trace (p.nleaf / 2) 0 m.leaf m.leaf [] m.root hpairs
    (fun _ _ _ => rfl) (by simp [B2Inst.legal, ht, htail]) (by simp [B2Inst.received, ht, htail])
  rw [Nat.zero_add] at hpairs hreceived
  rw [Nat.mul_zero, hpairs] at htxs hreceived hlast'
  rw [b2pFinalize, bind_txs, List.map_append, htxs, map_txs, b2Finalize_counterFlags, finalArgs, hreceived,
    hlast', hlast, List.range_eq_range']
  rfl

/-- The last block of leaf `k` of a legal combiner. -/
theorem finalArgs_leafAt {p : B2Prim} {m : B2PState p} {total : Nat} (h : m.legal total = true) (k : Fin p.nleaf) :
    finalArgs (leafAt m.leaf k) =
      (m.leaf[k].received % 2 ^ (2 * p.prim.width), if k.val = p.nleaf - 1 then 0x3 else 0x1) := by
  simp only [B2PState.legal, Bool.and_eq_true, decide_eq_true_eq] at h
  obtain ⟨⟨hleaf, -⟩, -⟩ := h
  rw [leafAt_of_lt _ k.isLt, finalArgs, show m.leaf[k.val] = m.leaf[k] from rfl, (hleaf k).2]
  simp only [decide_eq_true_eq]

theorem sealClass_b2p_txs (p : B2Prim) (m : B2PState p) (ctl : Ctl) :
    (sealClass ctl (.b2p p m)).txs = (b2pFinalize p m ctl.dlen).txs := rfl

/-- Settles O43. -/
theorem combinerTrace : Obligations.CombinerTrace := by
  refine ⟨fun m ctl hl => ?_, fun m ctl hl => ?_⟩
  · intro f
    have hf : ∀ k : Fin 4, finalArgs (leafAt m.leaf k) = f k := fun k => by
      fin_cases k <;> exact finalArgs_leafAt hl (p := .b2b) _
    refine (b2pFinalize_trace ctl.dlen hl).trans ?_
    simp only [← hf]
    rfl
  · intro f
    have hf : ∀ k : Fin 8, finalArgs (leafAt m.leaf k) = f k := fun k => by
      fin_cases k <;> exact finalArgs_leafAt hl (p := .b2s) _
    refine (b2pFinalize_trace ctl.dlen hl).trans ?_
    simp only [← hf]
    rfl

/-! ### The digest -/

theorem flatMap_pairDigests {p : B2Prim} (leaf : Vector (B2Inst p) p.nleaf) (n : Nat) :
    (List.range n).flatMap (pairDigests leaf) =
      (List.range (2 * n)).flatMap fun k => (leafSeal leaf k).val.2 := by
  induction n with
  | zero => rfl
  | succ n ih =>
    rw [List.range_succ, List.flatMap_append, ih, Nat.mul_add, List.range_succ, List.range_succ]
    simp [pairDigests]

/-- Settles O44. -/
theorem combinerDigest : Obligations.CombinerDigest := by
  intro p m ctl d
  have hd : ∀ k : Fin p.nleaf, (leafSeal m.leaf k).val.2 = d k := by
    intro k
    rw [leafSeal, leafAt_of_lt _ k.isLt, b2Finalize_eq]
    exact List.take_of_length_le (b2FullOut_length p _).le
  have hdigests : (List.range p.nleaf).flatMap (fun k => (leafSeal m.leaf k).val.2) =
      (List.finRange p.nleaf).flatMap d := by
    rw [← List.map_coe_finRange_eq_range, List.flatMap_map]
    exact List.flatMap_congr fun k _ => hd k
  obtain ⟨n, hn⟩ : ∃ n, 2 * (0 + n + 1) = p.nleaf := by
    cases p with
    | b2b => exact ⟨1, rfl⟩
    | b2s => exact ⟨3, rfl⟩
  have hroot := b2pSealLoop_root n 0 m.leaf m.leaf [] m.root hn fun _ _ _ => rfl
  rw [Nat.zero_add] at hn
  rw [Nat.mul_zero, hn, ← List.range_eq_range', flatMap_pairDigests, hn, hdigests] at hroot
  refine ⟨fun k => b2FullOut_length p _, ?_⟩
  rw [← hroot]
  rfl

/-! ### What FINALIZE costs -/

theorem finalize_md_count {a : MdAlg} {m : MdState a} {ctl : Ctl} (hl : m.legal ctl.total = true) :
    (sealClass ctl (.md a m)).txs.length = if m.tail.length ≤ mdBlock a - mdLengthField a - 1 then 1 else 2 := by
  obtain ⟨hone, htwo⟩ := finalizeMd a m ctl hl
  split
  next h => rw [hone h]; rfl
  next h => rw [htwo (by omega)]; rfl

theorem finalize_sponge_count (a : SpongeAlg) (m : SpongeState) (ctl : Ctl) :
    (sealClass ctl (.sponge a m)).txs.length =
      1 + if ctl.xof = true then 0 else ceilDiv ctl.dlen (rate a) - 1 := by
  obtain ⟨hreader, hdigest⟩ := finalizeSponge a m ctl
  cases hx : ctl.xof with
  | true => rw [(hreader hx).2]; rfl
  | false => exact (hdigest hx).2.2

theorem finalize_b2p_count {p : B2Prim} {m : B2PState p} {ctl : Ctl} (hl : m.legal ctl.total = true) :
    (sealClass ctl (.b2p p m)).txs.length = p.nleaf + p.nleaf / 2 := by
  have h := congrArg List.length (b2pFinalize_trace ctl.dlen hl)
  rw [List.length_map] at h
  rw [sealClass_b2p_txs, h]
  cases p <;> rfl

theorem finalize_b2x_count {ceil : Nat} {p : B2Prim} {m : B2XState p} {ctl : Ctl}
    (hp : m.legalParams ctl = true) (hc : ctl.legal ceil (.b2x p) = true) :
    (sealClass ctl (.b2x p m)).txs.length = 1 + if ctl.xof = true then 0 else ceilDiv ctl.dlen (b2Out p) := by
  obtain ⟨-, hreader, hdigest⟩ := finalizeB2x p m ctl
  simp only [B2XState.legalParams, Bool.and_eq_true, decide_eq_true_eq] at hp
  obtain ⟨hxlen, -⟩ := hp
  cases hx : ctl.xof with
  | true => rw [(hreader hx).2]; rfl
  | false =>
    rw [hx] at hxlen
    have hsent : ctl.dlen < xlenSent p := by
      simp only [Ctl.legal, hx, dlenUnsupported, Bool.false_eq_true, if_false, Bool.and_eq_true,
        Bool.not_eq_true', decide_eq_false_iff_not, Nat.not_le] at hc
      exact hc.2
    rw [hdigest hx hxlen hsent, List.length_cons, List.length_map, List.length_range, Nat.add_comm]
    rfl

theorem finalize_b3_count (a : B3Alg) (m : B3State) (ctl : Ctl) :
    (sealClass ctl (.b3 a m)).txs.length =
      m.stack.length + if ctl.xof = true then 0 else ceilDiv ctl.dlen 64 := by
  obtain ⟨hreader, hdigest⟩ := finalizeB3 a m ctl
  cases hx : ctl.xof with
  | true => rw [(hreader hx).2, b3Root_count]; rfl
  | false =>
    rw [hdigest hx, List.length_append, b3Root_count, List.length_map, List.length_range]
    rfl

/-- Settles O49: one count for each class. -/
theorem finalizeCost : Obligations.FinalizeCost := by
  intro ceil ctl h hl hc out
  cases h with
  | md a m => exact finalize_md_count hl
  | sponge a m => exact finalize_sponge_count a m ctl
  | b2 p m => rfl
  | b2p p m => exact finalize_b2p_count hl
  | b2x p m =>
    obtain ⟨-, hp⟩ := Bool.and_eq_true_iff.mp hl
    exact finalize_b2x_count hp hc
  | b3 a m => exact finalize_b3_count a m ctl

end Sys2Proof.Machine
end

section
/-! PROOFS. The Parallel Tree Combiner at ABSORB: which leaf takes which byte (43_parallel_combiner.md R221, R228), one
byte at a time. -/

namespace Sys2Proof.Machine

theorem b2Absorb_nil {p : B2Prim} {m : B2Inst p} (h : m.tail.length ≤ b2Block p) : b2Absorb p m [] = .pure m := by
  rw [b2Absorb, List.append_nil, absorbLazy_nil _ h (b2Block_pos p)]
  rfl

/-! ### The slices -/

theorem leafBytes_nil (p : B2Prim) (k : Nat) : leafBytes p k [] = [] := rfl

theorem leafBytes_concat (p : B2Prim) (k : Nat) (d : List Byte) (x : Byte) :
    leafBytes p k (d ++ [x]) = leafBytes p k d ++ if leafIndex p d.length = k then [x] else [] := by
  rw [leafBytes, List.zipIdx_append, List.filter_append, List.map_append]
  refine congrArg₂ _ rfl ?_
  simp only [Nat.zero_add, List.zipIdx_singleton, List.filter_singleton]
  by_cases h : (leafIndex p d.length : Nat) = k
  · have hb : (d.length / b2Block p % p.nleaf == k) = true := beq_iff_eq.mpr h
    rw [if_pos h, hb]
    rfl
  · have hb : (d.length / b2Block p % p.nleaf == k) = false := beq_eq_false_iff_ne.mpr h
    rw [if_neg h, hb]
    rfl

/-- Within the first round of the leaves a slice is one block of the message. -/
theorem leafBytes_first (p : B2Prim) (k : Nat) (d : List Byte) (hd : d.length ≤ p.nleaf * b2Block p) :
    leafBytes p k d = (d.drop (k * b2Block p)).take (b2Block p) := by
  induction d using List.reverseRecOn with
  | nil => simp [leafBytes_nil]
  | append_singleton d x ih =>
    have hB := b2Block_pos p
    rw [List.length_append, List.length_singleton] at hd
    have hindex : (leafIndex p d.length : Nat) = d.length / b2Block p :=
      Nat.mod_eq_of_lt ((Nat.div_lt_iff_lt_mul hB).mpr (by omega))
    rw [leafBytes_concat, ih (by omega), hindex, List.drop_append, List.take_append, List.length_drop]
    refine congrArg _ ?_
    have hk : d.length / b2Block p = k ↔ k * b2Block p ≤ d.length ∧ d.length < k * b2Block p + b2Block p := by
      rw [Nat.div_eq_iff hB]
      omega
    by_cases h : d.length / b2Block p = k
    · obtain ⟨hlo, hhi⟩ := hk.mp h
      rw [if_pos h, Nat.sub_eq_zero_of_le hlo, List.drop_zero, List.take_of_length_le]
      rw [List.length_singleton]
      omega
    · rw [if_neg h, eq_comm, ← List.length_eq_zero_iff, List.length_take, List.length_drop, List.length_singleton]
      have := mt hk.mpr h
      omega

/-! ### One byte at a time -/

theorem leavesAbsorb_singleton (p : B2Prim) (total : Nat) (leaf : Vector (B2Inst p) p.nleaf) (x : Byte) :
    leavesAbsorb p total leaf [x] = giveTo p (leafIndex p total) leaf [x] := by
  have hroom : b2pRoom p total [x] = 1 := by
    have := Nat.mod_lt total (b2Block_pos p)
    rw [b2pRoom, List.length_singleton]
    omega
  rw [leavesAbsorb_round _ _ _ (List.cons_ne_nil _ _), b2pGive, hroom]
  exact bind_pure _

/-- Every leaf absorbs its slices. -/
theorem leavesAbsorb_leaf {p : B2Prim} {leaf : Vector (B2Inst p) p.nleaf} (hleaf : leavesOk p leaf)
    (data : List Byte) (k : Fin p.nleaf) :
    (leavesAbsorb p 0 leaf data).val[k] = (b2Absorb p leaf[k] (leafBytes p k data)).val := by
  induction data using List.reverseRecOn with
  | nil =>
    rw [leafBytes_nil, b2Absorb_nil (legal_tail_le (hleaf k).1)]
    rfl
  | append_singleton d x ih =>
    rw [leavesAbsorb_append, bind_val, Nat.zero_add, leavesAbsorb_singleton, leafBytes_concat, b2Absorb_append,
      bind_val, ← ih, giveTo, map_val]
    by_cases hk : leafIndex p d.length = k
    · subst hk
      rw [if_pos rfl]
      exact Vector.getElem_set_self _
    · have hne : (leafIndex p d.length : Nat) ≠ k := fun h => hk (Fin.ext h)
      rw [if_neg hne, b2Absorb_nil]
      · exact Vector.getElem_set_ne _ _ hne
      · rw [ih]
        exact b2Absorb_tail_le p _ _

/-- The transactions are those of the leaves on their slices. -/
theorem leavesAbsorb_count {p : B2Prim} {leaf : Vector (B2Inst p) p.nleaf} (hleaf : leavesOk p leaf)
    (data : List Byte) :
    (leavesAbsorb p 0 leaf data).txs.length =
      ∑ k : Fin p.nleaf, (b2Absorb p leaf[k] (leafBytes p k data)).txs.length := by
  induction data using List.reverseRecOn with
  | nil =>
    refine (Finset.sum_eq_zero fun k _ => ?_).symm
    rw [leafBytes_nil, b2Absorb_nil (legal_tail_le (hleaf k).1)]
    rfl
  | append_singleton d x ih =>
    have hstep (k : Fin p.nleaf) : (b2Absorb p leaf[k] (leafBytes p k (d ++ [x]))).txs.length =
        (b2Absorb p leaf[k] (leafBytes p k d)).txs.length + if leafIndex p d.length = k then
          (giveTo p (leafIndex p d.length) (leavesAbsorb p 0 leaf d).val [x]).txs.length else 0 := by
      rw [leafBytes_concat, b2Absorb_append, bind_txs, List.length_append, ← leavesAbsorb_leaf hleaf]
      by_cases hk : leafIndex p d.length = k
      · rw [if_pos hk, if_pos (congrArg Fin.val hk), ← hk]
        rfl
      · rw [if_neg hk, if_neg fun h => hk (Fin.ext h), b2Absorb_nil]
        · rfl
        · rw [leavesAbsorb_leaf hleaf]
          exact b2Absorb_tail_le p _ _
    rw [leavesAbsorb_append, bind_txs, List.length_append, ih, Nat.zero_add, leavesAbsorb_singleton,
      Finset.sum_congr rfl fun k _ => hstep k, Finset.sum_add_distrib, Finset.sum_ite_eq,
      if_pos (Finset.mem_univ _)]

/-! ### A message of one round and one byte more (43_parallel_combiner.md R228) -/

/-- An instance that has received nothing holds back up to a block. -/
theorem b2Absorb_first {p : B2Prim} {m : B2Inst p} (h0 : m.received = 0) {d : List Byte}
    (hd : d.length ≤ b2Block p) : (b2Absorb p m d).txs = [] := by
  obtain ⟨-, htail⟩ := Nat.add_eq_zero_iff.mp h0
  have hB := b2Block_pos p
  rw [← List.map_eq_nil_iff (f := Tx.args), b2Absorb_args, b2Rounds, htail, Nat.div_eq_of_lt (by omega)]
  rfl

/-- While no slice is longer than a block nothing is compressed. -/
theorem leavesAbsorb_first {p : B2Prim} {leaf : Vector (B2Inst p) p.nleaf} (hleaf : leavesOk p leaf)
    (h0 : ∀ k : Fin p.nleaf, leaf[k].received = 0) {data : List Byte} (hd : data.length ≤ p.nleaf * b2Block p) :
    (leavesAbsorb p 0 leaf data).txs = [] := by
  rw [← List.length_eq_zero_iff, leavesAbsorb_count hleaf]
  refine Finset.sum_eq_zero fun k _ => ?_
  rw [b2Absorb_first (h0 k)]
  · rfl
  · rw [leafBytes_first p k data hd]
    exact List.length_take_le _ _

theorem b2Block_counter (p : B2Prim) : b2Block p % 2 ^ (2 * p.prim.width) = b2Block p := by cases p <;> rfl

/-- A block and one byte: the block is compressed. -/
theorem b2Absorb_second {p : B2Prim} {m : B2Inst p} (h0 : m.received = 0) {d : List Byte} (x : Byte)
    (hd : d.length = b2Block p) : (b2Absorb p m (d ++ [x])).txs.map Tx.args = [(d, b2Block p, 0, 0)] := by
  obtain ⟨ht, htail⟩ := Nat.add_eq_zero_iff.mp h0
  have hrounds : b2Rounds m (d ++ [x]) = 1 := by
    rw [b2Rounds, htail, List.length_append, hd, List.length_singleton, Nat.zero_add, Nat.add_sub_cancel,
      Nat.div_self (b2Block_pos p)]
  rw [b2Absorb_args, hrounds, ht, List.length_eq_zero_iff.mp htail, List.range_one, List.map_singleton,
    Nat.zero_mul, List.drop_zero, List.nil_append, ← hd, List.take_left, hd]
  simp only [Nat.zero_add, Nat.one_mul, b2Block_counter]

/-- The first byte of the second round makes the first leaf compress its block. -/
theorem leavesAbsorb_second {p : B2Prim} {leaf : Vector (B2Inst p) p.nleaf} (hleaf : leavesOk p leaf)
    (h0 : ∀ k : Fin p.nleaf, leaf[k].received = 0) {data : List Byte}
    (hd : data.length = p.nleaf * b2Block p + 1) :
    (leavesAbsorb p 0 leaf data).txs.map Tx.args = [(data.take (b2Block p), b2Block p, 0, 0)] := by
  have hB := b2Block_pos p
  obtain ⟨d, x, rfl⟩ := (List.eq_nil_or_concat data).resolve_left (List.ne_nil_of_length_eq_add_one hd)
  rw [List.concat_eq_append] at hd ⊢
  rw [List.length_append, List.length_singleton] at hd
  have hlen : d.length = p.nleaf * b2Block p := by omega
  have hround : b2Block p ≤ d.length := hlen ▸ Nat.le_mul_of_pos_left _ (nleaf_pos p)
  let k := leafIndex p d.length
  have hk : (k : Nat) = 0 := by
    simp only [k, leafIndex, hlen, Nat.mul_div_cancel _ hB, Nat.mod_self]
  have hslice : leafBytes p k d = d.take (b2Block p) := by
    rw [leafBytes_first p k d hlen.le, hk, Nat.zero_mul, List.drop_zero]
  have hsliceLen : (d.take (b2Block p)).length = b2Block p := by
    rw [List.length_take, Nat.min_eq_left hround]
  have hblock := b2Absorb_second (h0 k) x hsliceLen
  rw [b2Absorb_append, bind_txs, b2Absorb_first (h0 k) hsliceLen.le, List.nil_append, ← hslice,
    ← leavesAbsorb_leaf hleaf] at hblock
  rw [leavesAbsorb_append, bind_txs, leavesAbsorb_first hleaf h0 hlen.le, List.nil_append, Nat.zero_add,
    leavesAbsorb_singleton, List.take_append_of_le_length hround, ← hslice]
  exact hblock

/-- Settles O30. -/
theorem leafDispatch : Obligations.LeafDispatch := by
  intro p m data hl
  have hleaf : leavesOk p m.leaf := by
    simp only [B2PState.legal, Bool.and_eq_true, decide_eq_true_eq] at hl
    exact hl.1.1
  refine ⟨rfl, leavesAbsorb_leaf hleaf data, rfl, ?_, fun h0 => ⟨leavesAbsorb_first hleaf h0, ?_⟩⟩
  · rw [← Fin.sum_univ_def]
    exact leavesAbsorb_count hleaf data
  · exact leavesAbsorb_second hleaf h0

end Sys2Proof.Machine
end

section
/-! PROOFS. ABSORB of the BLAKE3 Tree Engine, one block at a time (42_blake3_tree.md R183 to R186): the chunk-block
transactions and the merges. -/

namespace Sys2Proof.Machine

/-! ### One block at a time -/

/-- The engine with other bytes in its tail. -/
def withTail (m : B3State) (tail : List Byte) : B3State := { m with tail := tail }

theorem withTail_inv {m : B3State} (h : B3Inv m) {tail : List Byte} (ht : tail.length ≤ 64) :
    B3Inv (withTail m tail) := ⟨h.blocks, ht, h.cv, h.stack⟩

/-- Up to a block the bytes are held. -/
theorem b3Absorb_short {m : B3State} (h : B3Inv m) {data : List Byte} (hd : m.tail.length + data.length ≤ 64) :
    b3Absorb m data = .pure (withTail m (m.tail ++ data)) := by
  by_cases he : data = []
  · rw [he, b3Absorb_nil, List.append_nil]
    rfl
  · have hpos := List.length_pos_of_ne_nil he
    have hroom : b3MakeRoom m = .pure m := if_neg (by omega)
    have htake : b3Room m data = data.length := by
      rw [b3Room]
      omega
    rw [b3Absorb_round m h he, hroom, pure_bind, htake, List.drop_length, b3Absorb_nil, b3Take, htake,
      List.take_length]
    rfl

/-- A full block is compressed when another byte comes. -/
theorem b3Absorb_full {m : B3State} (h : B3Inv m) (ht : m.tail.length = 64) {data : List Byte} (hd : data ≠ []) :
    b3Absorb m data = (b3Flush m).bind fun m' => b3Absorb m' data := by
  obtain ⟨hinv, htail, -⟩ := b3Flush_spec m h ht
  have hroom : b3MakeRoom m = b3Flush m := if_pos ht
  rw [b3Absorb_round m h hd, hroom]
  apply bind_congr_val
  have hroom' : b3MakeRoom (b3Flush m).val = .pure (b3Flush m).val := by
    rw [b3MakeRoom, htail]
    rfl
  rw [b3Absorb_round _ hinv hd, hroom', pure_bind]

/-- More than a block: the first block is compressed. -/
theorem b3Absorb_long {m : B3State} (h : B3Inv m) {data : List Byte} (hd : 64 < (m.tail ++ data).length) :
    b3Absorb m data =
      (b3Flush (withTail m ((m.tail ++ data).take 64))).bind fun m' =>
        b3Absorb m' ((m.tail ++ data).drop 64) := by
  have ht := h.tail
  rw [List.length_append] at hd
  have hsplit : b3Absorb m data =
      (b3Absorb m (data.take (64 - m.tail.length))).bind fun m' =>
        b3Absorb m' (data.drop (64 - m.tail.length)) := by
    rw [← b3Absorb_append m _ _ h, List.take_append_drop]
  have hfirst : m.tail.length + (data.take (64 - m.tail.length)).length = 64 := by
    rw [List.length_take]
    omega
  have hstream : (m.tail ++ data).take 64 = m.tail ++ data.take (64 - m.tail.length) := by
    rw [List.take_append, List.take_of_length_le ht]
  have hrest : (m.tail ++ data).drop 64 = data.drop (64 - m.tail.length) := by
    rw [List.drop_append, List.drop_eq_nil_of_le ht, List.nil_append]
  have hne : data.drop (64 - m.tail.length) ≠ [] := by
    rw [← List.length_pos_iff, List.length_drop]
    omega
  have hlen : (withTail m (m.tail ++ data.take (64 - m.tail.length))).tail.length = 64 := by
    rw [withTail, List.length_append, hfirst]
  rw [hsplit, b3Absorb_short h hfirst.le, pure_bind, hstream, hrest]
  exact b3Absorb_full (withTail_inv h hlen.le) hlen hne

/-! ### The transactions of a block -/

/-- A chunk-block transaction is one without `PARENT`. -/
def isChunkBlock (t : Tx) : Bool := t.flags &&& PARENT == 0

/-- A merge is one with `PARENT`. -/
def isMerge (t : Tx) : Bool := t.flags &&& PARENT == PARENT

theorem mergeLoop_flags (keyw : ChainVal) (base : BitVec 7) (fuel count : Nat) (stack : List ChainVal) :
    ∀ t ∈ (mergeLoop keyw base fuel count stack).txs, t.flags = parentFlags base := by
  induction fuel generalizing count stack with
  | zero => exact fun t ht => absurd ht List.not_mem_nil
  | succ fuel ih =>
    by_cases he : count % 2 = 0
    · match stack with
      | right :: left :: below =>
        rw [mergeLoop_even _ _ _ he, bind_txs]
        intro t ht
        rcases List.mem_append.mp ht with ht | ht
        · rw [parentCv, compressCv_txs, List.mem_singleton] at ht
          rw [ht]
        · exact ih _ _ t ht
      | [] | [_] => simp [mergeLoop_short]
    · simp [mergeLoop_odd _ _ _ _ he]

/-- Every merge takes one entry off the stack. -/
theorem mergeLoop_count (keyw : ChainVal) (base : BitVec 7) (fuel count : Nat) (stack : List ChainVal) :
    (mergeLoop keyw base fuel count stack).txs.length + (mergeLoop keyw base fuel count stack).val.length =
      stack.length := by
  induction fuel generalizing count stack with
  | zero => exact Nat.zero_add _
  | succ fuel ih =>
    by_cases he : count % 2 = 0
    · match stack with
      | right :: left :: below =>
        have hih := ih (count / 2) ((parentCv keyw base left right).val :: below)
        rw [List.length_cons] at hih
        have hone : (parentCv keyw base left right).txs.length = 1 := rfl
        rw [mergeLoop_even _ _ _ he, bind_txs, bind_val, List.length_append, hone, List.length_cons,
          List.length_cons]
        omega
      | [] | [_] => simp [mergeLoop_short]
    · simp [mergeLoop_odd _ _ _ _ he]

theorem parentFlags_isMerge (base : BitVec 7) : parentFlags base &&& PARENT = PARENT := by
  rw [parentFlags]
  decide +revert

theorem isMerge_of_parent {t : Tx} {base : BitVec 7} (h : t.flags = parentFlags base) :
    isMerge t = true ∧ isChunkBlock t = false := by
  rw [isMerge, isChunkBlock, h, parentFlags_isMerge]
  decide

theorem isChunkBlock_of_flags {t : Tx} (h : t.flags &&& PARENT = 0) : isMerge t = false ∧ isChunkBlock t = true := by
  rw [isMerge, isChunkBlock, h]
  decide

/-- The flags of block number `g` of the message (42_blake3_tree.md R184, R185). -/
def blockFlags (base : BitVec 7) (g : Nat) : BitVec 7 :=
  base ||| (if g % 16 = 0 then 0x01 else 0) ||| (if g % 16 = 15 then 0x02 else 0)

/-- The number of the block in the tail. -/
def blockNumber (m : B3State) : Nat := 16 * m.cidx + m.blocks

/-- The transactions of a flush: the block in the tail, then the merges. -/
theorem b3Flush_trace {m : B3State} (h : B3Inv m) (hb : m.base ∈ modeFlags) :
    (b3Flush m).txs.filter isChunkBlock =
        [⟨.b3, m.cv, m.tail, blockNumber m / 16, 64, blockFlags m.base (blockNumber m)⟩] ∧
      ((b3Flush m).txs.filter isMerge).length + popcount (b3Flush m).val.cidx + m.cidx =
        (b3Flush m).val.cidx + popcount m.cidx := by
  have hblocks := h.blocks
  have hdiv : blockNumber m / 16 = m.cidx := by
    rw [blockNumber]
    omega
  have hmod : blockNumber m % 16 = m.blocks := by
    rw [blockNumber]
    omega
  rw [hdiv, blockFlags, hmod]
  by_cases h15 : m.blocks = 15
  · obtain ⟨hmerge, hchunk⟩ := isChunkBlock_of_flags
      (t := ⟨.b3, m.cv, m.tail, m.cidx, 64, endChunkFlags m⟩) (b3FlagsLegal_end _ hb m.blocks).2
    obtain ⟨cv, hflush⟩ : ∃ cv, b3Flush m =
        ⟨{ m with cidx := m.cidx + 1, cv := m.keyw, blocks := 0, tail := [],
                  stack := (addChunkCv m cv (m.cidx + 1)).val },
          ⟨.b3, m.cv, m.tail, m.cidx, 64, endChunkFlags m⟩ :: (addChunkCv m cv (m.cidx + 1)).txs⟩ :=
      ⟨_, if_pos h15⟩
    have hall : ∀ t ∈ (addChunkCv m cv (m.cidx + 1)).txs, isMerge t = true ∧ isChunkBlock t = false :=
      fun t ht => isMerge_of_parent (mergeLoop_flags _ _ _ _ _ t ht)
    have hcount := mergeLoop_count m.keyw m.base (m.stack.length + 1) (m.cidx + 1) (cv :: m.stack)
    change (addChunkCv m cv (m.cidx + 1)).txs.length + (addChunkCv m cv (m.cidx + 1)).val.length = _ at hcount
    rw [addChunkCv_length m cv h.stack, List.length_cons, h.stack] at hcount
    rw [hflush]
    refine ⟨?_, ?_⟩
    · rw [List.filter_cons_of_pos hchunk, List.filter_eq_nil_iff.mpr fun t ht => by simp [(hall t ht).2],
        endChunkFlags_eq, if_pos h15]
    · rw [List.filter_cons_of_neg (by simp [hmerge]), List.filter_eq_self.mpr fun t ht => (hall t ht).1]
      change _ + popcount (m.cidx + 1) + m.cidx = m.cidx + 1 + popcount m.cidx
      omega
  · obtain ⟨hmerge, hchunk⟩ := isChunkBlock_of_flags
      (t := ⟨.b3, m.cv, m.tail, m.cidx, 64, midChunkFlags m⟩) (b3FlagsLegal_start _ hb m.blocks).2
    obtain ⟨cv, hflush⟩ : ∃ cv, b3Flush m =
        ⟨{ m with cv := cv, blocks := m.blocks + 1, tail := [] },
          [⟨.b3, m.cv, m.tail, m.cidx, 64, midChunkFlags m⟩]⟩ := ⟨_, if_neg h15⟩
    rw [hflush]
    refine ⟨?_, ?_⟩
    · have hzero : midChunkFlags m ||| 0 = midChunkFlags m := BitVec.or_zero
      rw [List.filter_cons_of_pos hchunk, if_neg h15, ← hzero]
      rfl
    · rw [List.filter_cons_of_neg (by simp [hmerge])]
      change 0 + popcount m.cidx + m.cidx = m.cidx + popcount m.cidx
      omega

theorem b3Flush_blockNumber {m : B3State} (h : B3Inv m) (ht : m.tail.length = 64) :
    blockNumber (b3Flush m).val = blockNumber m + 1 := by
  obtain ⟨-, htail, hrec, -⟩ := b3Flush_spec m h ht
  rw [b3Received, b3Received, htail, ht, List.length_nil] at hrec
  rw [blockNumber, blockNumber]
  omega

/-! ### The transactions of ABSORB -/

/-- The chunk-block transactions: each block of the stream but the last. -/
theorem b3Absorb_chunkBlocks {m : B3State} (h : B3Inv m) (hb : m.base ∈ modeFlags) (data : List Byte) :
    ((b3Absorb m data).txs.filter isChunkBlock).map Tx.args =
      (List.range (((m.tail ++ data).length - 1) / 64)).map fun k =>
        (((m.tail ++ data).drop (64 * k)).take 64, (blockNumber m + k) / 16, 64,
          blockFlags m.base (blockNumber m + k)) := by
  induction hn : (m.tail ++ data).length using Nat.strong_induction_on generalizing m data with
  | _ n ih =>
    subst hn
    by_cases hd : (m.tail ++ data).length ≤ 64
    · rw [Nat.div_eq_of_lt (by omega), b3Absorb_short h (by rwa [List.length_append] at hd)]
      rfl
    · have hlen : (withTail m ((m.tail ++ data).take 64)).tail.length = 64 := by
        rw [withTail, List.length_take]
        omega
      have hinv : B3Inv (withTail m ((m.tail ++ data).take 64)) := withTail_inv h hlen.le
      obtain ⟨hinv', htail, -, -, hbase⟩ := b3Flush_spec _ hinv hlen
      have hnumber := b3Flush_blockNumber hinv hlen
      obtain ⟨htrace, -⟩ := b3Flush_trace hinv hb
      have hrest := ih _ (by rw [htail, List.nil_append, List.length_drop]; omega) hinv' (hbase ▸ hb)
        ((m.tail ++ data).drop 64) rfl
      rw [htail, List.nil_append, hnumber, hbase] at hrest
      have hrounds : ((m.tail ++ data).length - 1) / 64 = (((m.tail ++ data).drop 64).length - 1) / 64 + 1 := by
        rw [List.length_drop]
        omega
      rw [b3Absorb_long h (by omega), bind_txs, List.filter_append, List.map_append, htrace, hrest, hrounds,
        List.range_succ_eq_map, List.map_singleton, List.singleton_append, List.map_cons (l := List.map _ _),
        List.map_map]
      refine congrArg₂ List.cons rfl (List.map_congr_left fun k _ => ?_)
      rw [Function.comp_apply, List.drop_drop, Nat.add_assoc, Nat.add_comm 1 k, Nat.mul_succ, Nat.add_comm 64]
      rfl

/-- The merges are the carries of the chunk counter. -/
theorem b3Absorb_merges {m : B3State} (h : B3Inv m) (hb : m.base ∈ modeFlags) (data : List Byte) :
    ((b3Absorb m data).txs.filter isMerge).length + popcount (b3Absorb m data).val.cidx + m.cidx =
      (b3Absorb m data).val.cidx + popcount m.cidx := by
  induction hn : (m.tail ++ data).length using Nat.strong_induction_on generalizing m data with
  | _ n ih =>
    subst hn
    by_cases hd : (m.tail ++ data).length ≤ 64
    · rw [b3Absorb_short h (by rwa [List.length_append] at hd)]
      simp [withTail, Nat.add_comm]
    · have hlen : (withTail m ((m.tail ++ data).take 64)).tail.length = 64 := by
        rw [withTail, List.length_take]
        omega
      have hinv : B3Inv (withTail m ((m.tail ++ data).take 64)) := withTail_inv h hlen.le
      obtain ⟨hinv', htail, -, -, hbase⟩ := b3Flush_spec _ hinv hlen
      obtain ⟨-, hmerges⟩ := b3Flush_trace hinv hb
      have hrest := ih _ (by rw [htail, List.nil_append, List.length_drop]; omega) hinv' (hbase ▸ hb)
        ((m.tail ++ data).drop 64) rfl
      have hcidx : (withTail m ((m.tail ++ data).take 64)).cidx = m.cidx := rfl
      rw [hcidx] at hmerges
      rw [b3Absorb_long h (by omega), bind_txs, bind_val, List.filter_append, List.length_append]
      omega

theorem fresh_inv (keyw : ChainVal) (base : BitVec 7) : B3Inv ⟨keyw, base, 0, 0, keyw, [], []⟩ :=
  ⟨Nat.zero_le _, Nat.zero_le _, fun _ => rfl, rfl⟩

/-- Settles O31. -/
theorem chunkBlocks : Obligations.ChunkBlocks := by
  intro a keyw base total data hb m
  refine ⟨rfl, (b3Absorb_chunkBlocks (fresh_inv keyw base) hb data).trans ?_⟩
  have hcount : (data.length - 1) / 64 = ceilDiv data.length 64 - 1 := by
    rw [ceilDiv]
    omega
  simp only [blockNumber, List.nil_append, Nat.mul_zero, Nat.zero_add, hcount]
  rfl

/-- Settles O32. -/
theorem treeAbsorbCost : Obligations.TreeAbsorbCost := by
  intro m a total data hl m' txs
  obtain ⟨hinv, hrec, hempty, hbase⟩ := (b3Legal_iff m a total).mp hl
  have hb := baseLegal_mode hbase
  refine ⟨?_, b3Absorb_merges hinv hb data⟩
  have h := congrArg List.length (b3Absorb_chunkBlocks hinv hb data)
  rw [List.length_map, List.length_map, List.length_range, List.length_append] at h
  refine h.trans ?_
  have htail := hinv.tail
  have hzero : m.tail.length = 0 → total = 0 := fun h0 => hempty (List.length_eq_zero_iff.mp h0)
  rw [b3Received] at hrec
  rw [ceilDiv, ceilDiv]
  omega

end Sys2Proof.Machine
end

section
/-! PROOFS. The tree of BLAKE3 (42_blake3_tree.md R180, R186, R188, R194): the stack holds the full subtrees of the chunks
counted so far, one for each 1 bit of their number, and the merges of FINALIZE join them into the tree defined from the
top. -/

namespace Sys2Proof.Machine

/-! ### The tree over a range of chunks -/

theorem leftChunks_pos (n : Nat) : 0 < leftChunks n := Nat.pow_pos (by decide)

theorem leftChunks_lt {n : Nat} (hn : 2 ≤ n) : leftChunks n < n :=
  Nat.lt_of_le_of_lt (Nat.log2_self_le (by omega)) (by omega)

/-- A full left subtree and up to as many chunks to its right. -/
theorem leftChunks_add {j r : Nat} (h0 : 0 < r) (hr : r ≤ 2 ^ j) : leftChunks (2 ^ j + r) = 2 ^ j := by
  have hne : 2 ^ j + r - 1 ≠ 0 := by
    have := Nat.two_pow_pos j
    omega
  have hlog : (2 ^ j + r - 1).log2 = j :=
    (Nat.log2_eq_iff hne).mpr ⟨by omega, by rw [Nat.pow_succ]; omega⟩
  rw [leftChunks, hlog]

section
variable (keyw : ChainVal) (base : BitVec 7) (leaf : Nat → ChainVal)

/-- The chaining value of the tree over the chunks `i` to `i + n − 1`, the chunks' own being `leaf`. -/
def treeCv (i n : Nat) : ChainVal :=
  if _h : n < 2 then leaf i
  else mergeCv keyw base (treeCv i (leftChunks n)) (treeCv (i + leftChunks n) (n - leftChunks n))
termination_by n
decreasing_by
  · exact leftChunks_lt (by omega)
  · have := leftChunks_pos n
    omega

theorem treeCv_one (i : Nat) : treeCv keyw base leaf i 1 = leaf i := by
  rw [treeCv, dif_pos (by decide)]

theorem treeCv_split (i : Nat) {n : Nat} (hn : 2 ≤ n) :
    treeCv keyw base leaf i n =
      mergeCv keyw base (treeCv keyw base leaf i (leftChunks n))
        (treeCv keyw base leaf (i + leftChunks n) (n - leftChunks n)) := by
  rw [treeCv, dif_neg (by omega)]

/-- A full subtree and what follows it join. -/
theorem treeCv_join (i : Nat) {j r : Nat} (h0 : 0 < r) (hr : r ≤ 2 ^ j) :
    mergeCv keyw base (treeCv keyw base leaf i (2 ^ j)) (treeCv keyw base leaf (i + 2 ^ j) r) =
      treeCv keyw base leaf i (2 ^ j + r) := by
  have hpos := Nat.two_pow_pos j
  rw [treeCv_split keyw base leaf i (n := 2 ^ j + r) (by omega), leftChunks_add h0 hr, Nat.add_sub_cancel_left]

/-! ### The stack -/

/-- The stack after `i` full subtrees of `2 ^ j` chunks, most recent entry first: a subtree for each 1 bit of
`i`. -/
def treeStack (j i : Nat) : List ChainVal :=
  if _h : i = 0 then []
  else if i % 2 = 1 then treeCv keyw base leaf ((i - 1) * 2 ^ j) (2 ^ j) :: treeStack (j + 1) (i / 2)
  else treeStack (j + 1) (i / 2)
termination_by i
decreasing_by all_goals omega

theorem treeStack_zero (j : Nat) : treeStack keyw base leaf j 0 = [] := by
  rw [treeStack, dif_pos rfl]

theorem treeStack_even (j k : Nat) : treeStack keyw base leaf j (2 * k) = treeStack keyw base leaf (j + 1) k := by
  by_cases hk : k = 0
  · rw [hk, Nat.mul_zero, treeStack_zero, treeStack_zero]
  · rw [treeStack, dif_neg (by omega), if_neg (by omega), Nat.mul_div_cancel_left _ (by decide)]

theorem treeStack_odd (j k : Nat) :
    treeStack keyw base leaf j (2 * k + 1) =
      treeCv keyw base leaf (k * 2 ^ (j + 1)) (2 ^ j) :: treeStack keyw base leaf (j + 1) k := by
  rw [treeStack, dif_neg (by omega), if_pos (by omega), Nat.add_sub_cancel, Nat.pow_succ',
    show (2 * k + 1) / 2 = k by omega, Nat.mul_left_comm, ← Nat.mul_assoc]

theorem treeStack_length (j i : Nat) : (treeStack keyw base leaf j i).length = popcount i := by
  induction i using Nat.strong_induction_on generalizing j with
  | _ i ih =>
    obtain ⟨k, rfl | rfl⟩ := Nat.even_or_odd' i
    · by_cases hk : k = 0
      · rw [hk, Nat.mul_zero, treeStack_zero]
        rfl
      · rw [treeStack_even, ih k (by omega), popcount_two_mul]
    · rw [treeStack_odd, List.length_cons, ih k (by omega), popcount_two_mul_add_one]

/-- Pushing the next full subtree and merging while the count is even gives the next stack. -/
theorem mergeLoop_treeStack (i j fuel : Nat) (hf : (treeStack keyw base leaf j i).length ≤ fuel) :
    (mergeLoop keyw base fuel (i + 1)
      (treeCv keyw base leaf (i * 2 ^ j) (2 ^ j) :: treeStack keyw base leaf j i)).val =
        treeStack keyw base leaf j (i + 1) := by
  induction i using Nat.strong_induction_on generalizing j fuel with
  | _ i ih =>
    obtain ⟨k, rfl | rfl⟩ := Nat.even_or_odd' i
    · rw [mergeLoop_odd _ _ _ _ (by omega), pure_val, treeStack_odd, treeStack_even, Nat.pow_succ',
        Nat.mul_left_comm, ← Nat.mul_assoc]
    · rw [treeStack_odd, List.length_cons] at hf
      obtain ⟨fuel, rfl⟩ : ∃ f, fuel = f + 1 := ⟨fuel - 1, by omega⟩
      have hjoin := treeCv_join keyw base leaf (k * 2 ^ (j + 1)) (Nat.two_pow_pos j) le_rfl
      have hnext : k * 2 ^ (j + 1) + 2 ^ j = (2 * k + 1) * 2 ^ j := by ring
      rw [hnext, ← Nat.two_mul, ← Nat.pow_succ'] at hjoin
      rw [treeStack_odd, mergeLoop_even _ _ _ (by omega), bind_val, parentCv_val, hjoin,
        show (2 * k + 1 + 1) / 2 = k + 1 by omega, ih k (by omega) (j + 1) fuel (by omega),
        show 2 * k + 1 + 1 = 2 * (k + 1) by omega, treeStack_even]

/-- The merges of FINALIZE: the subtrees on the stack and what follows them make the root of the whole tree. -/
theorem finalMerges_treeStack (i j r : Nat) (h0 : 0 < r) (hr : r ≤ 2 ^ j) {left : ChainVal}
    {older : List ChainVal} (hstack : treeStack keyw base leaf j i = left :: older) :
    let n := i * 2 ^ j + r
    (finalMerges keyw base left older (treeCv keyw base leaf (i * 2 ^ j) r)).val =
      parentRoot keyw base (treeCv keyw base leaf 0 (leftChunks n))
        (treeCv keyw base leaf (leftChunks n) (n - leftChunks n)) := by
  induction i using Nat.strong_induction_on generalizing j r left older with
  | _ i ih =>
    have hpos := Nat.two_pow_pos j
    obtain ⟨k, rfl | rfl⟩ := Nat.even_or_odd' i
    · have hk : k ≠ 0 := by
        rintro rfl
        rw [Nat.mul_zero, treeStack_zero] at hstack
        cases hstack
      rw [treeStack_even] at hstack
      have h := ih k (by omega) (j + 1) r h0 (by rw [Nat.pow_succ]; omega) hstack
      rwa [show k * 2 ^ (j + 1) = 2 * k * 2 ^ j by ring] at h
    · rw [treeStack_odd] at hstack
      obtain ⟨rfl, rfl⟩ := List.cons.inj hstack
      intro n
      have hnext : (2 * k + 1) * 2 ^ j = k * 2 ^ (j + 1) + 2 ^ j := by ring
      cases hrest : treeStack keyw base leaf (j + 1) k with
      | nil =>
        have hk : k = 0 := by
          rw [← popcount_eq_zero_iff, ← treeStack_length keyw base leaf (j + 1) k, hrest]
          rfl
        have hn : n = 2 ^ j + r := by
          simp only [n, hk, Nat.mul_zero, Nat.zero_add, Nat.one_mul]
        rw [finalMerges, hn, leftChunks_add h0 hr, Nat.add_sub_cancel_left, hk]
        simp only [Nat.zero_mul, Nat.mul_zero, Nat.zero_add, Nat.one_mul, pure_val]
      | cons left' older' =>
        have h := ih k (by omega) (j + 1) (2 ^ j + r) (by omega) (by rw [Nat.pow_succ]; omega) hrest
        rw [finalMerges, bind_val, parentCv_val, hnext, treeCv_join keyw base leaf _ h0 hr, h, ← Nat.add_assoc,
          ← hnext]

end

/-! ### The pieces of a message -/

theorem piecesTo_short (fuel : Nat) {n : Nat} {m : List Byte} (hm : m.length ≤ n) : piecesTo fuel n m = [m] := by
  cases fuel with
  | zero => rfl
  | succ fuel => rw [piecesTo, if_pos hm]

theorem piecesTo_fuel {n : Nat} (hn : 0 < n) (f g : Nat) (m : List Byte) (hf : m.length ≤ f) (hg : m.length ≤ g) :
    piecesTo f n m = piecesTo g n m := by
  induction f generalizing g m with
  | zero => rw [piecesTo_short _ (by omega), piecesTo_short _ (by omega)]
  | succ f ih =>
    by_cases hm : m.length ≤ n
    · rw [piecesTo_short _ hm, piecesTo_short _ hm]
    · obtain ⟨g, rfl⟩ : ∃ k, g = k + 1 := ⟨g - 1, by omega⟩
      rw [piecesTo, piecesTo, if_neg hm, if_neg hm,
        ih g _ (by rw [List.length_drop]; omega) (by rw [List.length_drop]; omega)]

theorem piecesOf_short {n : Nat} {m : List Byte} (hm : m.length ≤ n) : piecesOf n m = [m] := piecesTo_short _ hm

theorem piecesOf_long {n : Nat} (hn : 0 < n) {m : List Byte} (hm : n < m.length) :
    piecesOf n m = m.take n :: piecesOf n (m.drop n) := by
  obtain ⟨f, hf⟩ : ∃ f, m.length = f + 1 := ⟨m.length - 1, by omega⟩
  rw [piecesOf, hf, piecesTo, if_neg (by omega), piecesOf]
  rw [piecesTo_fuel hn f (m.drop n).length _ (by rw [List.length_drop]; omega) le_rfl]

theorem piecesOf_ne_nil {n : Nat} (hn : 0 < n) (m : List Byte) : piecesOf n m ≠ [] := by
  by_cases hm : m.length ≤ n
  · rw [piecesOf_short hm]
    exact List.cons_ne_nil _ _
  · rw [piecesOf_long hn (by omega)]
    exact List.cons_ne_nil _ _

theorem piecesOf_length {n : Nat} (hn : 0 < n) (m : List Byte) : (piecesOf n m).length = (m.length - 1) / n + 1 := by
  induction hl : m.length using Nat.strong_induction_on generalizing m with
  | _ l ih =>
    subst hl
    by_cases hm : m.length ≤ n
    · rw [piecesOf_short hm, Nat.div_eq_of_lt (by omega)]
      rfl
    · have hrest : (m.length - 1) / n = (m.length - n - 1) / n + 1 := by
        rw [Nat.div_eq_sub_div hn (by omega), Nat.sub_right_comm]
      rw [piecesOf_long hn (by omega), List.length_cons, ih _ (by rw [List.length_drop]; omega) _ rfl,
        List.length_drop, hrest]

theorem piecesOf_getElem {n : Nat} (hn : 0 < n) (m : List Byte) (j : Nat) (hj : j < (piecesOf n m).length) :
    (piecesOf n m)[j] = (m.drop (n * j)).take n := by
  induction hl : m.length using Nat.strong_induction_on generalizing m j with
  | _ l ih =>
    subst hl
    by_cases hm : m.length ≤ n
    · have h0 : j = 0 := by
        rw [piecesOf_short hm, List.length_singleton] at hj
        omega
      subst h0
      simp only [piecesOf_short hm, List.getElem_cons_zero, Nat.mul_zero, List.drop_zero,
        List.take_of_length_le hm]
    · have hlong := piecesOf_long hn (m := m) (by omega)
      cases j with
      | zero => simp only [hlong, List.getElem_cons_zero, Nat.mul_zero, List.drop_zero]
      | succ j =>
        rw [hlong, List.length_cons] at hj
        simp only [hlong, List.getElem_cons_succ]
        rw [ih _ (by rw [List.length_drop]; omega) (m.drop n) j (by omega) rfl, List.drop_drop, Nat.mul_succ,
          Nat.add_comm]

/-! ### The tree of the obligations -/

/-- `subtreeCv` is the tree over a range of chunks. -/
theorem subtreeCv_eq (keyw : ChainVal) (base : BitVec 7) (leaf : Nat → ChainVal) (fuel i : Nat)
    (chunks : List (List Byte)) (hf : chunks.length ≤ fuel) (hne : chunks ≠ [])
    (hleaf : ∀ j (hj : j < chunks.length), leaf (i + j) = chunkCv keyw base (i + j) chunks[j]) :
    subtreeCv keyw base fuel i chunks = treeCv keyw base leaf i chunks.length := by
  induction fuel generalizing i chunks with
  | zero => exact absurd (List.length_eq_zero_iff.mp (by omega)) hne
  | succ fuel ih =>
    match chunks with
    | [c] => rw [subtreeCv, List.length_singleton, treeCv_one, ← Nat.add_zero i, hleaf 0 (by simp)]; rfl
    | c :: d :: rest =>
      have hlen : (c :: d :: rest).length = rest.length + 2 := rfl
      have hlt := leftChunks_lt (n := rest.length + 2) (by omega)
      have hpos := leftChunks_pos (rest.length + 2)
      have htake : ((c :: d :: rest).take (leftChunks (rest.length + 2))).length = leftChunks (rest.length + 2) := by
        rw [List.length_take, hlen]
        omega
      have hdrop : ((c :: d :: rest).drop (leftChunks (rest.length + 2))).length =
          rest.length + 2 - leftChunks (rest.length + 2) := by
        rw [List.length_drop, hlen]
      rw [hlen] at hf
      rw [hlen, treeCv_split keyw base leaf i (by omega)]
      simp only [subtreeCv]
      rw [ih i _ (by omega) (List.ne_nil_of_length_pos (by omega)) ?_,
        ih (i + leftChunks (rest.length + 2)) _ (by omega) (List.ne_nil_of_length_pos (by omega)) ?_, htake, hdrop]
      · rfl
      · intro j hj
        rw [Nat.add_assoc, hleaf _ (by omega), List.getElem_drop]
      · intro j hj
        rw [hleaf j (by omega), List.getElem_take]

/-- The chaining value of chunk `j` of a message. -/
def messageLeaf (keyw : ChainVal) (base : BitVec 7) (msg : List Byte) (j : Nat) : ChainVal :=
  chunkCv keyw base j ((msg.drop (1024 * j)).take 1024)

theorem treeRoot_short (keyw : ChainVal) (base : BitVec 7) {msg : List Byte} (hm : msg.length ≤ 1024) :
    treeRoot keyw base msg =
      let r := chunkParts keyw base 0 msg
      ⟨r.1, zpad r.2.2 64, r.2.2.length, lastFlags base r.2.1 ||| ROOT⟩ := by
  rw [treeRoot, piecesOf_short hm]

theorem treeRoot_long (keyw : ChainVal) (base : BitVec 7) {msg : List Byte} (hm : 1024 < msg.length) :
    let n := (msg.length - 1) / 1024 + 1
    treeRoot keyw base msg =
      parentRoot keyw base (treeCv keyw base (messageLeaf keyw base msg) 0 (leftChunks n))
        (treeCv keyw base (messageLeaf keyw base msg) (leftChunks n) (n - leftChunks n)) := by
  intro n
  have hpieces : (piecesOf 1024 msg).length = n := piecesOf_length (by decide) msg
  have hleaf : ∀ j (hj : j < (piecesOf 1024 msg).length),
      messageLeaf keyw base msg j = chunkCv keyw base j (piecesOf 1024 msg)[j] := fun j hj => by
    rw [messageLeaf, piecesOf_getElem (by decide)]
  have hn : 2 ≤ n := by
    simp only [n]
    omega
  rw [treeRoot]
  generalize piecesOf 1024 msg = chunks at hpieces hleaf
  match chunks with
  | [] => rw [List.length_nil] at hpieces; omega
  | [_] => rw [List.length_singleton] at hpieces; omega
  | c :: d :: rest =>
    have hrest : rest.length + 2 = n := hpieces
    have hlt := leftChunks_lt hn
    have hpos := leftChunks_pos n
    have htake : ((c :: d :: rest).take (leftChunks n)).length = leftChunks n := by
      rw [List.length_take, hpieces]
      omega
    have hdrop : ((c :: d :: rest).drop (leftChunks n)).length = n - leftChunks n := by
      rw [List.length_drop, hpieces]
    simp only [hrest]
    rw [subtreeCv_eq keyw base (messageLeaf keyw base msg) n 0 _ (by omega) (List.ne_nil_of_length_pos (by omega)) ?_,
      subtreeCv_eq keyw base (messageLeaf keyw base msg) n (leftChunks n) _ (by omega)
        (List.ne_nil_of_length_pos (by omega)) ?_, htake, hdrop]
    · rfl
    · intro j hj
      rw [hleaf _ (by omega), List.getElem_drop]
    · intro j hj
      rw [Nat.zero_add, hleaf j (by omega), List.getElem_take]

/-! ### The engine -/

theorem chunkChain_cons (base : BitVec 7) (index b : Nat) (cv : ChainVal) (blk : List Byte)
    {blks : List (List Byte)} (h : blks ≠ []) :
    chunkChain base index b cv (blk :: blks) =
      chunkChain base index (b + 1)
        (firstEight (Config.compressB3 cv blk index 64 (base ||| startFlag b))) blks := by
  obtain ⟨c, cs, rfl⟩ := List.exists_cons_of_ne_nil h
  rfl

/-- The engine within a chunk. -/
def withParts (m : B3State) (r : ChainVal × Nat × List Byte) : B3State :=
  { m with cv := r.1, blocks := r.2.1, tail := r.2.2 }

/-- The engine after a block that is not its chunk's last. -/
def afterBlock (m : B3State) (blk : List Byte) : B3State :=
  { m with
    cv := firstEight (Config.compressB3 m.cv blk m.cidx 64 (m.base ||| startFlag m.blocks))
    blocks := m.blocks + 1
    tail := [] }

theorem b3Flush_mid {m : B3State} {blk : List Byte} (hb : m.blocks ≠ 15) :
    (b3Flush (withTail m blk)).val = afterBlock m blk :=
  congrArg Traced.val (if_neg hb)

/-- ABSORB of what is left of one chunk. -/
theorem b3Absorb_chunk {m : B3State} (h : B3Inv m) (ht : m.tail = []) {data : List Byte}
    (hd : 64 * m.blocks + data.length ≤ 1024) :
    (b3Absorb m data).val = withParts m (chunkChain m.base m.cidx m.blocks m.cv (piecesOf 64 data)) := by
  induction hn : data.length using Nat.strong_induction_on generalizing m data with
  | _ n ih =>
    subst hn
    by_cases hs : data.length ≤ 64
    · rw [b3Absorb_short h (by rwa [ht, List.length_nil, Nat.zero_add]), ht, piecesOf_short hs]
      rfl
    · have hlen : (data.take 64).length = 64 := by
        rw [List.length_take]
        omega
      have hrest : (data.drop 64).length = data.length - 64 := List.length_drop
      have hinv : B3Inv (withTail m (data.take 64)) := withTail_inv h hlen.le
      have hflush : (b3Flush (withTail m (data.take 64))).val = afterBlock m (data.take 64) := b3Flush_mid (by omega)
      have hinv' := hflush ▸ (b3Flush_spec _ hinv hlen).1
      have hblocks : (afterBlock m (data.take 64)).blocks = m.blocks + 1 := rfl
      have hlong := b3Absorb_long h (data := data) (by rw [ht, List.nil_append]; omega)
      rw [ht, List.nil_append] at hlong
      have hpieces : piecesOf 64 data = data.take 64 :: piecesOf 64 (data.drop 64) :=
        piecesOf_long (by decide) (by omega)
      rw [hlong, bind_val, hflush, ih _ (by omega) hinv' rfl (by omega) rfl, hpieces,
        chunkChain_cons _ _ _ _ _ (piecesOf_ne_nil (by decide) _)]
      rfl

/-- The engine at the beginning of chunk `i`. -/
def chunkStart (keyw : ChainVal) (base : BitVec 7) (leaf : Nat → ChainVal) (i : Nat) : B3State :=
  ⟨keyw, base, i, 0, keyw, [], treeStack keyw base leaf 0 i⟩

theorem chunkStart_inv (keyw : ChainVal) (base : BitVec 7) (leaf : Nat → ChainVal) (i : Nat) :
    B3Inv (chunkStart keyw base leaf i) :=
  ⟨Nat.zero_le _, Nat.zero_le _, fun _ => rfl, treeStack_length keyw base leaf 0 i⟩

theorem b3Absorb_chunkStart (keyw : ChainVal) (base : BitVec 7) (leaf : Nat → ChainVal) (i : Nat)
    {data : List Byte} (hd : data.length ≤ 1024) :
    (b3Absorb (chunkStart keyw base leaf i) data).val =
      withParts (chunkStart keyw base leaf i) (chunkParts keyw base i data) :=
  b3Absorb_chunk (chunkStart_inv keyw base leaf i) rfl (by simpa [chunkStart] using hd)

/-- A chunk that is not the last takes the engine to the beginning of the next one. -/
theorem b3Absorb_nextChunk (keyw : ChainVal) (base : BitVec 7) (leaf : Nat → ChainVal) (i : Nat)
    {data : List Byte} (hd : 1024 < data.length) (hleaf : leaf i = chunkCv keyw base i (data.take 1024)) :
    (b3Absorb (chunkStart keyw base leaf i) data).val =
      (b3Absorb (chunkStart keyw base leaf (i + 1)) (data.drop 1024)).val := by
  have hlen : (data.take 1024).length = 1024 := by
    rw [List.length_take]
    omega
  have hinv := chunkStart_inv keyw base leaf i
  have hval := b3Absorb_chunkStart keyw base leaf i hlen.le
  obtain ⟨hinv', hrec, -⟩ := b3Absorb_spec _ (data.take 1024) hinv
  rw [hval] at hinv' hrec
  rw [hlen] at hrec
  generalize hr : chunkParts keyw base i (data.take 1024) = r at hval hinv' hrec
  obtain ⟨cv, b, last⟩ := r
  have hb : b ≤ 15 := hinv'.blocks
  have hlast : last.length ≤ 64 := hinv'.tail
  change 1024 * i + 64 * b + last.length = 1024 * i + 64 * 0 + 0 + 1024 at hrec
  obtain rfl : b = 15 := by omega
  have hfull : last.length = 64 := by omega
  have hcv : firstEight (Config.compressB3 cv last i 64 (lastFlags base 15)) = leaf i := by
    rw [hleaf, chunkCv, hr]
    simp only [hfull, zpad_of_length_eq hfull]
  have hflush : (b3Flush (withParts (chunkStart keyw base leaf i) (cv, 15, last))).val =
      ⟨keyw, base, i + 1, 0, keyw, [],
        (addChunkCv (withParts (chunkStart keyw base leaf i) (cv, 15, last))
          (firstEight (Config.compressB3 cv last i 64 (lastFlags base 15))) (i + 1)).val⟩ :=
    congrArg Traced.val (if_pos rfl)
  have hpush := mergeLoop_treeStack keyw base leaf i 0 ((treeStack keyw base leaf 0 i).length + 1) (Nat.le_succ _)
  rw [Nat.pow_zero, Nat.mul_one, treeCv_one, ← hcv] at hpush
  have hstack : (addChunkCv (withParts (chunkStart keyw base leaf i) (cv, 15, last))
      (firstEight (Config.compressB3 cv last i 64 (lastFlags base 15))) (i + 1)).val =
        treeStack keyw base leaf 0 (i + 1) := hpush
  have hne : data.drop 1024 ≠ [] := by
    rw [← List.length_pos_iff, List.length_drop]
    omega
  have hsplit := b3Absorb_append _ (data.take 1024) (data.drop 1024) hinv
  rw [List.take_append_drop] at hsplit
  rw [hsplit, bind_val, hval, b3Absorb_full hinv' hfull hne, bind_val, hflush, hstack]
  rfl

/-- What a message leaves: the stack of the chunks before its last, and the parts of the last. -/
theorem b3Absorb_message (keyw : ChainVal) (base : BitVec 7) (msg : List Byte) (i : Nat)
    (hi : i ≤ (msg.length - 1) / 1024) :
    let leaf := messageLeaf keyw base msg
    let n := (msg.length - 1) / 1024
    (b3Absorb (chunkStart keyw base leaf i) (msg.drop (1024 * i))).val =
      withParts (chunkStart keyw base leaf n) (chunkParts keyw base n (msg.drop (1024 * n))) := by
  intro leaf n
  induction hk : n - i generalizing i with
  | zero =>
    obtain rfl : i = n := by omega
    exact b3Absorb_chunkStart keyw base leaf n (by rw [List.length_drop]; omega)
  | succ k ih =>
    rw [b3Absorb_nextChunk keyw base leaf i (by rw [List.length_drop]; omega) rfl, List.drop_drop,
      ← Nat.mul_succ, ih (i + 1) (by omega) (by omega)]

/-- Settles O47: the engine's stack at the end of the message is that of the tree, and the merges of FINALIZE make its
root. -/
theorem treeShape : Obligations.TreeShape := by
  intro keyw base msg
  have hstart : (⟨keyw, base, 0, 0, keyw, [], []⟩ : B3State) = chunkStart keyw base (messageLeaf keyw base msg) 0 := by
    rw [chunkStart, treeStack_zero]
  have hval := b3Absorb_message keyw base msg 0 (Nat.zero_le _)
  rw [Nat.mul_zero, List.drop_zero] at hval
  rw [bind_val, hstart, hval]
  by_cases hm : msg.length ≤ 1024
  · have hn : (msg.length - 1) / 1024 = 0 := Nat.div_eq_of_lt (by omega)
    rw [hn, Nat.mul_zero, List.drop_zero, treeRoot_short keyw base hm,
      b3Root_nil (treeStack_zero keyw base (messageLeaf keyw base msg) 0)]
    rfl
  · rw [treeRoot_long keyw base (by omega)]
    generalize hn : (msg.length - 1) / 1024 = n
    have hlast : ((msg.drop (1024 * n)).take 1024) = msg.drop (1024 * n) :=
      List.take_of_length_le (by rw [List.length_drop]; omega)
    have hne : treeStack keyw base (messageLeaf keyw base msg) 0 n ≠ [] := by
      rw [← List.length_pos_iff, treeStack_length, Nat.pos_iff_ne_zero, Ne, popcount_eq_zero_iff]
      omega
    obtain ⟨left, older, hstack⟩ := List.exists_cons_of_ne_nil hne
    have hroot := finalMerges_treeStack keyw base (messageLeaf keyw base msg) n 0 1 Nat.one_pos le_rfl hstack
    rw [Nat.pow_zero, Nat.mul_one, treeCv_one, messageLeaf, hlast] at hroot
    rw [b3Root_cons hstack]
    exact hroot

end Sys2Proof.Machine
end
